-- ==== Sys2Proof/Word.lean ====
section
/-! DEFINITION. The widths the block is made of (00_scope.md R6, R10). -/

namespace Sys2Proof

/-- A device register, a scratch byte or one operand byte: `REG_W` = 8 bits (R6). -/
abbrev Byte := BitVec 8

/-- The operand field `D = W[63:0]` of a command word, and the result `R`, `R_W` = 64 bits (R6, R64). -/
abbrev DWord := BitVec 64

/-- A command word `W[71:0]`, `CMD_W` = 72 bits (R6, R64). -/
abbrev CmdWord := BitVec 72

/-- The seven time registers SEC, MIN, HOUR, DOW, DATE, MONTH, YEAR, in offset order (R179). -/
abbrev TimeBytes := Vector Byte 7

end Sys2Proof
end

