-- ==== Sys2Proof/Syntax.lean ====
section
/-! DEFINITION. The 52 commands of RTCC command set 1 (30_encoding.md R79), one constructor per row of
spec/opcode_table.json. A constructor carries the operands its format names (R66 to R76) and nothing else: the bits of
D a format does not name are ignored (R81). -/

namespace Sys2Proof

/-- The operands of format F64 (R76). -/
structure FullTime where
  year   : BitVec 16
  month  : Byte
  date   : Byte
  dow    : Byte
  h12    : Bool
  pm     : Bool
  hour   : BitVec 6   -- mode-relative
  minute : Byte
  second : Byte
deriving DecidableEq, Repr

inductive Instr where
  | nop
  -- single-field setters, formats B8 and Y16
  | setsec   (v : Byte)
  | setmin   (v : Byte)
  | sethour  (v : Byte)
  | setweek  (v : Byte)
  | setday   (v : Byte)
  | setmonth (v : Byte)
  | setyear  (y : BitVec 16)
  -- single-field getters
  | getsec
  | getmin
  | gethour
  | getweek
  | getday
  | getmonth
  | getyear
  -- compositions, formats DT and T3
  | setdate (day month : Byte) (year : BitVec 16)
  | settime (hour minute second : Byte)
  -- clock mode and meridiem, format M1: f = 1 is 12-hour, or PM
  | sethmode (f : Bool)
  | gethmode
  | setmer (f : Bool)
  | getmer
  -- epoch, format E32
  | setepoch (e : BitVec 32)
  | getepoch
  -- oscillator
  | start
  | stop
  | isrun
  -- batch, format F64
  | getdt
  | setdt (d : FullTime)
  -- alarm setters, format A4: only the fields the variant reads (R71)
  | seta1s (second : Byte)
  | seta1ms (minute second : Byte)
  | seta1hms (hour minute second : Byte)
  | seta1dhms (day hour minute second : Byte)
  | seta2m (minute : Byte)
  | seta2hm (hour minute : Byte)
  | seta2dhm (day hour minute : Byte)
  -- alarm getters and control
  | geta1
  | geta2
  | en1
  | en2
  | dis1
  | dis2
  | trg1
  | trg2
  | clr1
  | clr2
  | almpin
  -- auxiliary, formats O8 and S8
  | setout (mode : Byte)
  | getout
  | sqwpin
  | getage
  | setage (v : Byte)
  | gettemp
deriving DecidableEq, Repr

end Sys2Proof
end

