-- ==== Sys2Proof/Decode.lean ====
section
/-! DEFINITION. The command decoder and, after it, the encoder, both from 30_encoding.md. A command word is one 72-bit
number `W`, `OP = W[71:64]`, `D = W[63:0]` (R64); it is presented on the command port whole, so it has no byte order. -/

namespace Sys2Proof

/-- Why a word is no command: its opcode is reserved (R80, R83). -/
inductive DecodeReject where
  | reservedOpcode (op : Byte)
deriving DecidableEq, Repr

/-- `OP = W[71:64]` (R64). -/
def opcodeOf (w : CmdWord) : Byte := w.extractLsb' 64 8

/-- `D = W[63:0]` (R64). -/
def operandOf (w : CmdWord) : DWord := w.extractLsb' 0 64

/-- `B_i = D[8i+7:8i]` (R65). -/
def operandByte (d : DWord) (i : Nat) : Byte := d.extractLsb' (8 * i) 8

/-- Format F64 (R76). -/
def fullTimeOf (d : DWord) : FullTime :=
  { year := d.extractLsb' 48 16, month := d.extractLsb' 40 8, date := d.extractLsb' 32 8, dow := d.extractLsb' 24 8,
    h12 := d.getLsbD 23, pm := d.getLsbD 22, hour := d.extractLsb' 16 6, minute := d.extractLsb' 8 8,
    second := d.extractLsb' 0 8 }

/-- The opcode map, by exact match on OP (R79, R80); the operand field never changes which command is selected. -/
def decodeFields (op : Byte) (d : DWord) : Except DecodeReject Instr :=
  match op with
  | 0x00#8 => .ok .nop
  | 0x01#8 => .ok (.setsec (operandByte d 0))
  | 0x02#8 => .ok (.setmin (operandByte d 0))
  | 0x03#8 => .ok (.sethour (operandByte d 0))
  | 0x04#8 => .ok (.setweek (operandByte d 0))
  | 0x05#8 => .ok (.setday (operandByte d 0))
  | 0x06#8 => .ok (.setmonth (operandByte d 0))
  | 0x07#8 => .ok (.setyear (d.extractLsb' 0 16))
  | 0x09#8 => .ok .getsec
  | 0x0A#8 => .ok .getmin
  | 0x0B#8 => .ok .gethour
  | 0x0C#8 => .ok .getweek
  | 0x0D#8 => .ok .getday
  | 0x0E#8 => .ok .getmonth
  | 0x0F#8 => .ok .getyear
  | 0x10#8 => .ok (.setdate (operandByte d 3) (operandByte d 2) (d.extractLsb' 0 16))
  | 0x11#8 => .ok (.settime (operandByte d 2) (operandByte d 1) (operandByte d 0))
  | 0x12#8 => .ok (.sethmode (d.getLsbD 0))
  | 0x13#8 => .ok .gethmode
  | 0x14#8 => .ok (.setmer (d.getLsbD 0))
  | 0x15#8 => .ok .getmer
  | 0x16#8 => .ok (.setepoch (d.extractLsb' 0 32))
  | 0x17#8 => .ok .getepoch
  | 0x18#8 => .ok .start
  | 0x19#8 => .ok .stop
  | 0x1A#8 => .ok .isrun
  | 0x1B#8 => .ok .getdt
  | 0x1C#8 => .ok (.setdt (fullTimeOf d))
  | 0x20#8 => .ok (.seta1s (operandByte d 0))
  | 0x21#8 => .ok (.seta1ms (operandByte d 1) (operandByte d 0))
  | 0x22#8 => .ok (.seta1hms (operandByte d 2) (operandByte d 1) (operandByte d 0))
  | 0x23#8 => .ok (.seta1dhms (operandByte d 3) (operandByte d 2) (operandByte d 1) (operandByte d 0))
  | 0x24#8 => .ok (.seta2m (operandByte d 1))
  | 0x25#8 => .ok (.seta2hm (operandByte d 2) (operandByte d 1))
  | 0x26#8 => .ok (.seta2dhm (operandByte d 3) (operandByte d 2) (operandByte d 1))
  | 0x28#8 => .ok .geta1
  | 0x29#8 => .ok .geta2
  | 0x2A#8 => .ok .en1
  | 0x2B#8 => .ok .en2
  | 0x2C#8 => .ok .dis1
  | 0x2D#8 => .ok .dis2
  | 0x2E#8 => .ok .trg1
  | 0x2F#8 => .ok .trg2
  | 0x30#8 => .ok .clr1
  | 0x31#8 => .ok .clr2
  | 0x32#8 => .ok .almpin
  | 0x38#8 => .ok (.setout (operandByte d 0))
  | 0x39#8 => .ok .getout
  | 0x3A#8 => .ok .sqwpin
  | 0x3B#8 => .ok .getage
  | 0x3C#8 => .ok (.setage (operandByte d 0))
  | 0x3D#8 => .ok .gettemp
  | op => .error (.reservedOpcode op)

/-- Decoding of a command word: total, a reserved opcode rejected by name (R80, R83). -/
def decode (w : CmdWord) : Except DecodeReject Instr := decodeFields (opcodeOf w) (operandOf w)

/-- The command word of a table row: `w` below bit `nbits`, zeros above (the table numbers a word as R64 does). -/
def tableWord (nbits w : Nat) : CmdWord := BitVec.ofNat 72 (w % 2 ^ nbits)

/-- What the decoder reads from the instruction whose bits are `w`. -/
def decodeTableWord (nbits w : Nat) : Option Instr :=
  match decode (tableWord nbits w) with
  | .ok i => some i
  | .error _ => none

/-! The encoder, as R85 asks of an assembler: each operand in its field (R66 to R76), every ignored bit 0. -/

/-- The opcode of a command (R79). -/
def opcode : Instr → Byte
  | .nop => 0x00
  | .setsec _ => 0x01
  | .setmin _ => 0x02
  | .sethour _ => 0x03
  | .setweek _ => 0x04
  | .setday _ => 0x05
  | .setmonth _ => 0x06
  | .setyear _ => 0x07
  | .getsec => 0x09
  | .getmin => 0x0A
  | .gethour => 0x0B
  | .getweek => 0x0C
  | .getday => 0x0D
  | .getmonth => 0x0E
  | .getyear => 0x0F
  | .setdate _ _ _ => 0x10
  | .settime _ _ _ => 0x11
  | .sethmode _ => 0x12
  | .gethmode => 0x13
  | .setmer _ => 0x14
  | .getmer => 0x15
  | .setepoch _ => 0x16
  | .getepoch => 0x17
  | .start => 0x18
  | .stop => 0x19
  | .isrun => 0x1A
  | .getdt => 0x1B
  | .setdt _ => 0x1C
  | .seta1s _ => 0x20
  | .seta1ms _ _ => 0x21
  | .seta1hms _ _ _ => 0x22
  | .seta1dhms _ _ _ _ => 0x23
  | .seta2m _ => 0x24
  | .seta2hm _ _ => 0x25
  | .seta2dhm _ _ _ => 0x26
  | .geta1 => 0x28
  | .geta2 => 0x29
  | .en1 => 0x2A
  | .en2 => 0x2B
  | .dis1 => 0x2C
  | .dis2 => 0x2D
  | .trg1 => 0x2E
  | .trg2 => 0x2F
  | .clr1 => 0x30
  | .clr2 => 0x31
  | .almpin => 0x32
  | .setout _ => 0x38
  | .getout => 0x39
  | .sqwpin => 0x3A
  | .getage => 0x3B
  | .setage _ => 0x3C
  | .gettemp => 0x3D

/-- Format A4, and the byte fields of B8, T3, O8 and S8: `D[31:0] = {B3, B2, B1, B0}` (R65, R67, R70, R71, R74, R75). -/
def bytesOperand (b3 b2 b1 b0 : Byte) : DWord := (b3 ++ b2 ++ b1 ++ b0).setWidth 64

/-- Format F64 (R76). -/
def fullTimeOperand (t : FullTime) : DWord :=
  t.year ++ t.month ++ t.date ++ t.dow ++ BitVec.ofBool t.h12 ++ BitVec.ofBool t.pm ++ t.hour ++ t.minute ++ t.second

/-- The operand field of a command, by its format (R66 to R76). -/
def operand : Instr → DWord
  | .setsec v | .setmin v | .sethour v | .setweek v | .setday v | .setmonth v => bytesOperand 0 0 0 v
  | .setyear y => y.setWidth 64
  | .setdate day month year => (day ++ month ++ year).setWidth 64
  | .settime hour minute second => bytesOperand 0 hour minute second
  | .sethmode f | .setmer f => (BitVec.ofBool f).setWidth 64
  | .setepoch e => e.setWidth 64
  | .setdt t => fullTimeOperand t
  | .seta1s second => bytesOperand 0 0 0 second
  | .seta1ms minute second => bytesOperand 0 0 minute second
  | .seta1hms hour minute second => bytesOperand 0 hour minute second
  | .seta1dhms day hour minute second => bytesOperand day hour minute second
  | .seta2m minute => bytesOperand 0 0 minute 0
  | .seta2hm hour minute => bytesOperand 0 hour minute 0
  | .seta2dhm day hour minute => bytesOperand day hour minute 0
  | .setout mode => bytesOperand 0 0 0 mode
  | .setage v => bytesOperand 0 0 0 v
  | .nop | .getsec | .getmin | .gethour | .getweek | .getday | .getmonth | .getyear | .gethmode | .getmer
  | .getepoch | .start | .stop | .isrun | .getdt | .geta1 | .geta2 | .en1 | .en2 | .dis1 | .dis2 | .trg1 | .trg2
  | .clr1 | .clr2 | .almpin | .getout | .sqwpin | .getage | .gettemp => 0

/-- The command word `W = {OP, D}` (R64). -/
def encode (i : Instr) : CmdWord := opcode i ++ operand i

end Sys2Proof
end

