-- ==== Sys2Proof/Config.lean ====
section
/-! DEFINITION. What an implementation fixes (00_scope.md R6): the parameters the spec gives a default, as plain
data, and the parameters it leaves OPEN, as constants with no body. -/

namespace Sys2Proof

/-- `P_FLAG_WSEM`: how the device takes a bus write to an alarm flag (R6, R40). -/
inductive FlagWsem where
  | w0c     -- writing 0 clears, writing 1 leaves the flag alone (the default)
  | plain   -- the flag takes the written bit
deriving DecidableEq, Repr

/-- `P_TICK_FN`: where the bytes a TICK produces come from (R6, R179). -/
inductive TickSource where
  | draw      -- `none`, the default: any seven bytes, a draw of the TICK step
  | supplied  -- the supplied total function `Config.tickFn`
  | ds3231    -- the informative shape of R179, `Machine.ds3231Tick` (log entry 15)
deriving DecidableEq, Repr

/-- The register that holds the oscillator-enable bit, `P_OSC_OFF`: STATUS (0x0F, the default) or CONTROL (0x0E) (R39). -/
inductive OscReg where
  | control
  | status
deriving DecidableEq, Repr

/-- `P_OSC_OFF` as an offset. -/
def OscReg.offset : OscReg → Nat
  | .control => 0x0E
  | .status  => 0x0F

/-- The parameters of R6 that have a value in the spec. They are fixed for a machine: no step changes them. -/
structure Params where
  oscReg          : OscReg      -- P_OSC_OFF
  oscBit          : Fin 8       -- P_OSC_BIT
  oscActive       : Bool        -- P_OSC_ACTIVE
  flagWsem        : FlagWsem    -- P_FLAG_WSEM
  flagProtect     : Bool        -- P_FLAG_PROTECT
  burstAtomic     : Bool        -- P_BURST_ATOMIC
  tickWhenStopped : Bool        -- P_TICK_WHEN_STOPPED
  tickFn          : TickSource  -- P_TICK_FN
  matchAnytime    : Bool        -- P_MATCH_ANYTIME
  hasBatch        : Bool        -- P_HAS_BATCH
  yearBase        : BitVec 16   -- P_YEAR_BASE; its width is the model's choice (log entry 29)
deriving DecidableEq, Repr

/-- The values R6 gives. -/
def Params.default : Params :=
  { oscReg := .status, oscBit := 7, oscActive := true, flagWsem := .w0c, flagProtect := true, burstAtomic := true,
    tickWhenStopped := false, tickFn := .draw, matchAnytime := true, hasBatch := true, yearBase := 2000 }

/-- The combinations the spec allows: flag-protect only with W0C flags (R53), and the oscillator bit on a bit that
CONTROL's or STATUS's table marks reserved, or on STATUS[7] itself (R39). -/
def Params.wf (p : Params) : Bool :=
  (!p.flagProtect || p.flagWsem == .w0c) &&
  (match p.oscReg with
   | .control => p.oscBit == 7 || p.oscBit == 5
   | .status  => 2 ≤ p.oscBit.val)

/-- The calendar fields an epoch splits into: the value of `P_CAL_SPLIT` and the content of the latch `FLD` (R9, R20). -/
structure EpochFields where
  year   : BitVec 16
  month  : Byte
  day    : Byte
  hour   : Byte   -- canonical, 0..23
  minute : Byte
  second : Byte
  dow    : Byte
deriving DecidableEq, Repr, Inhabited

/-- `P_EPOCH_BASE`, the reference instant of the epoch integer, OPEN (R6). R6 gives it no type: that it is held as calendar
fields is the model's choice, and nothing rests on it (log entry 30). -/
opaque Config.epochBase : EpochFields

/-- The split of the calendar collaborator, for an epoch counted from the instant `base`, OPEN (R9). -/
opaque Config.splitFrom (base : EpochFields) : BitVec 32 → EpochFields

/-- Its join, `year month day hour minute second`, for the instant `base`, OPEN (R9): not even an inverse of the split. -/
opaque Config.joinFrom (base : EpochFields) : BitVec 16 → Byte → Byte → Byte → Byte → Byte → BitVec 32

/-- `P_CAL_SPLIT` (R9). Only it and `P_CAL_JOIN` see `P_EPOCH_BASE` (R6). -/
def Config.calSplit : BitVec 32 → EpochFields := Config.splitFrom Config.epochBase

/-- `P_CAL_JOIN (year month day hour minute second)` (R9). -/
def Config.calJoin : BitVec 16 → Byte → Byte → Byte → Byte → Byte → BitVec 32 := Config.joinFrom Config.epochBase

/-- `P_TICK_FN` as a supplied total function, OPEN (R179). -/
opaque Config.tickFn : TimeBytes → TimeBytes

/-- `P_DEV_ADDR`, the 7-bit bus address of the device, OPEN (R8): every transaction addresses it. -/
opaque Config.devAddr : BitVec 7

end Sys2Proof
end

