-- ==== Sys2Proof/Machine/Operands.lean ====
section
/-! DEFINITION. How operand values become register bytes and register bytes become results: the codec of 41_codec.md.
Pure functions, total on their widths (R96). -/

namespace Sys2Proof.Machine

/-- `hi(b) = b[7:4]` (R97). -/
def hiNibble (b : Byte) : Nat := (b.extractLsb' 4 4).toNat

/-- `lo(b) = b[3:0]` (R97). -/
def loNibble (b : Byte) : Nat := (b.extractLsb' 0 4).toNat

/-- `isBCD(b)` (R97). -/
def isBCD (b : Byte) : Bool := hiNibble b ≤ 9 && loNibble b ≤ 9

/-- The BCD encoder (R98): truncated modulo 256 above 159. -/
def toBCD8 (v : Byte) : Byte := BitVec.ofNat 8 (16 * (v.toNat / 10) + v.toNat % 10)

/-- The BCD decoder (R99): every byte is accepted, range 0..165. -/
def fromBCD8 (b : Byte) : Byte := BitVec.ofNat 8 (10 * hiNibble b + loNibble b)

/-- `pack(old, m, v)` (R101). -/
def pack (old m v : Byte) : Byte := (old &&& ~~~m) ||| (toBCD8 v &&& m)

/-- `fieldVal(b, m)` (R101). -/
def fieldVal (b m : Byte) : Byte := fromBCD8 (b &&& m)

/-- The clock mode held in an hours register: bit 6, 1 = 12-hour (R28). -/
def hourIs12 (b : Byte) : Bool := b.getLsbD 6

/-- The meridiem held in an hours register: bit 5, 1 = PM, in 12-hour mode only (R28, R102). -/
def hourIsPm (b : Byte) : Bool := hourIs12 b && b.getLsbD 5

/-- `hmask(h12)` (R103). -/
def hmask (h12 : Bool) : Byte := if h12 then 0x1F else 0x3F

/-- The `val` of `decHour(b)` (R102): the mode-relative hour; its `h12` and `pm` are `hourIs12` and `hourIsPm`. -/
def decHourVal (b : Byte) : Byte := fieldVal b (hmask (hourIs12 b))

/-- `encHourRel(v, h12)` (R103). -/
def encHourRel (v : Byte) (h12 : Bool) : Byte := toBCD8 v &&& hmask h12

/-- The byte a mode-relative hour setter writes over `p` (R103): bits 7 and 6 kept, and PM in 12-hour mode. -/
def setHourRel (p v : Byte) : Byte := (p &&& ~~~(hmask (hourIs12 p))) ||| encHourRel v (hourIs12 p)

/-- `yearToReg(y)` (R104). -/
def yearToReg (y : BitVec 16) : Byte := toBCD8 (BitVec.ofNat 8 (y.toNat % 100))

/-- `regToYear(b)` (R104), with `P_YEAR_BASE` an argument. DESIGN CHOICE (log entry 29): the base is 16 bits wide and the sum
wraps modulo 2^16, which the base 2000 of R6 never reaches. -/
def regToYear (base : BitVec 16) (b : Byte) : BitVec 16 := base + (fromBCD8 b).setWidth 16

/-- `canonHour(b)` (R105). -/
def canonHour (b : Byte) : Byte :=
  if hourIs12 b then BitVec.ofNat 8 ((decHourVal b).toNat % 12 + (if hourIsPm b then 12 else 0)) else decHourVal b

/-- The twelve-hour number of an hour 0..23: 0 and 12 are 12 (R105). -/
def twelveHourNumber (hh : Nat) : Nat := if hh % 12 = 0 then 12 else hh % 12

/-- `encCanonHour(h, h12)`, bits 6:0 (R105). -/
def encCanonHour (h : Byte) (h12 : Bool) : Byte :=
  if h12 then
    let hh := h.toNat % 24
    0x40 ||| (if 12 ≤ hh then 0x20 else 0) ||| (toBCD8 (BitVec.ofNat 8 (twelveHourNumber hh)) &&& 0x1F)
  else toBCD8 h &&& 0x3F

/-- `encDow(v)` (R106). -/
def encDow (v : Byte) : Byte := toBCD8 v &&& 0x07

/-- `decDow(b)` (R106). -/
def decDow (b : Byte) : Byte := b &&& 0x07

/-- `tempQ(m, l)`, quarter degrees (R107): `4 * sext(m) + zext(l[7:6])`. -/
def tempQ (m l : Byte) : BitVec 16 := 4 * m.signExtend 16 + (l.extractLsb' 6 2).setWidth 16

/-- `agingVal(b)` (R108). -/
def agingVal (b : Byte) : DWord := b.signExtend 64

/-- The `dydt` of `decAlarmDay(b)` (R109): 1 = day-of-week. -/
def alarmDayIsDow (b : Byte) : Bool := b.getLsbD 6

/-- The `val` of `decAlarmDay(b)` (R109). -/
def decAlarmDayVal (b : Byte) : Byte := if alarmDayIsDow b then b &&& 0x0F else fieldVal b 0x3F

/-! The packed result layouts. -/

/-- `{.., p1, p0}`: previous bytes, the byte read first in R[7:0] (R78). -/
def packBytes : List Byte → DWord
  | [] => 0
  | b :: bs => (packBytes bs <<< 8) ||| b.setWidth 64

/-- The hour byte of F64 and of the alarm getters: `{h12, pm, val[5:0]}` (R76, R138, R153). -/
def hourByte (b : Byte) : Byte := BitVec.ofBool (hourIs12 b) ++ BitVec.ofBool (hourIsPm b) ++ (decHourVal b).setWidth 6

/-- The day byte of the alarm getters: `{0, dydt, dv[5:0]}` (R153). -/
def alarmDayByte (b : Byte) : Byte := (0#1) ++ BitVec.ofBool (alarmDayIsDow b) ++ (decAlarmDayVal b).setWidth 6

/-- Bit 7 of an alarm register: the mask bit, 1 = don't care (R33). -/
def maskBit (b : Byte) : Bool := b.getLsbD 7

/-- `kind1(m1, m2, m3, m4)` (R152). -/
def kind1 : Bool → Bool → Bool → Bool → Byte
  | true, true, true, true => 0
  | false, true, true, true => 1
  | false, false, true, true => 2
  | false, false, false, true => 3
  | false, false, false, false => 4
  | _, _, _, _ => 0xFF

/-- `kind2(m2, m3, m4)` (R152). -/
def kind2 : Bool → Bool → Bool → Byte
  | true, true, true => 0
  | false, true, true => 1
  | false, false, true => 2
  | false, false, false => 3
  | _, _, _ => 0xFF

end Sys2Proof.Machine
end

