-- ==== Sys2Proof/Machine/Flags.lean ====
section
/-! DEFINITION. The device flags and what is computed from them (10_state.md R38 to R45, 20_memory.md R53, 43_alarm.md
R142, R155, R156). Everything here is a function of register bytes. -/

namespace Sys2Proof.Machine

/-- What STATUS holds after a bus write of `w` over `old` (R40, R49): with W0C a flag written 1 is left alone and one
written 0 is cleared, with PLAIN it takes the written bit; every other bit takes the written value. -/
def statusAfterWrite (sem : FlagWsem) (old w : Byte) : Byte :=
  match sem with
  | .w0c => (w &&& 0xFC) ||| (old &&& w &&& 0x03)
  | .plain => w

/-- Flag-protect (R52, R53): an RMW of STATUS writes 1 to each alarm flag outside its mask. -/
def flagProtected (p : Params) (o : Nat) (mask w : Byte) : Byte :=
  if o = 0x0F ∧ p.flagProtect = true then w ||| (0x03 &&& ~~~mask) else w

/-- The byte `RMW(o, mask, val)` writes over the byte `old` it read (R52). -/
def rmwByte (p : Params) (o : Nat) (mask val old : Byte) : Byte :=
  flagProtected p o mask ((old &&& ~~~mask) ||| (val &&& mask))

/-! CONTROL (R38) and STATUS (R39), bit by bit. -/

def controlA1IE (c : Byte) : Bool := c.getLsbD 0
def controlA2IE (c : Byte) : Bool := c.getLsbD 1
def controlINTCN (c : Byte) : Bool := c.getLsbD 2
def controlRS (c : Byte) : BitVec 2 := c.extractLsb' 3 2
def controlSQWE (c : Byte) : Bool := c.getLsbD 6
def statusA1F (st : Byte) : Bool := st.getLsbD 0
def statusA2F (st : Byte) : Bool := st.getLsbD 1

/-- `1 << P_OSC_BIT` (R133). -/
def oscMask (p : Params) : Byte := 1 <<< p.oscBit.val

/-- `active << P_OSC_BIT` for the active level, or for the other one (R133, R134). -/
def oscLevel (p : Params) (run : Bool) : Byte := if run == p.oscActive then oscMask p else 0

/-- Whether the byte `b` of the oscillator's register reads running (R135, R178). -/
def oscRunning (p : Params) (b : Byte) : Bool := b.getLsbD p.oscBit.val == p.oscActive

/-- The interrupt line (R45, R183). -/
def intAsserted (c st : Byte) : Bool :=
  controlINTCN c && ((controlA1IE c && statusA1F st) || (controlA2IE c && statusA2F st))

/-- The function of the shared output pin (R45). -/
inductive PinFunction where
  | int
  | sqw (rs : BitVec 2)
  | other              -- any function the spec does not name; possible only where it is unspecified
deriving DecidableEq, Repr

/-- Whether the pin may have function `f` when CONTROL is `c` (R45): with INTCN = 0 and SQWE = 0 it is unspecified, so
every function is possible (D43). -/
def pinAllows (c : Byte) (f : PinFunction) : Bool :=
  if controlINTCN c then f = .int else if controlSQWE c then f = .sqw (controlRS c) else true

/-- The observable state of an alarm (R142). -/
inductive AlarmState where
  | disabled
  | disabledPending
  | armed
  | triggered
deriving DecidableEq, Repr

/-- The alarm state of `(AxIE, AxF)` (R142). -/
def alarmState : Bool → Bool → AlarmState
  | false, false => .disabled
  | false, true => .disabledPending
  | true, false => .armed
  | true, true => .triggered

/-! The comparator (R155), on the register bytes at one instant. -/

/-- `dayEq(a)` against DOW and DATE (R155). -/
def dayEq (a dow date : Byte) : Bool :=
  if alarmDayIsDow a then decAlarmDayVal a == decDow dow else decAlarmDayVal a == fieldVal date 0x3F

/-- One compared field: don't care, or equal (R155). -/
def fieldMatches (alarm : Byte) (eq : Bool) : Bool := maskBit alarm || eq

/-- `match1(REG)` (R155). -/
def match1 (reg : Nat → Byte) : Bool :=
  fieldMatches (reg 0x07) (fieldVal (reg 0x07) 0x7F == fieldVal (reg 0x00) 0x7F) &&
  fieldMatches (reg 0x08) (fieldVal (reg 0x08) 0x7F == fieldVal (reg 0x01) 0x7F) &&
  fieldMatches (reg 0x09) (canonHour (reg 0x09) == canonHour (reg 0x02)) &&
  fieldMatches (reg 0x0A) (dayEq (reg 0x0A) (reg 0x03) (reg 0x04))

/-- `match2(REG)` (R155): alarm 2 has no seconds register and fires at second 0. -/
def match2 (reg : Nat → Byte) : Bool :=
  fieldVal (reg 0x00) 0x7F == 0 &&
  fieldMatches (reg 0x0B) (fieldVal (reg 0x0B) 0x7F == fieldVal (reg 0x01) 0x7F) &&
  fieldMatches (reg 0x0C) (canonHour (reg 0x0C) == canonHour (reg 0x02)) &&
  fieldMatches (reg 0x0D) (dayEq (reg 0x0D) (reg 0x03) (reg 0x04))

/-- AxF after a comparator step (R156): a match sets it if the alarm is enabled and may set it, by the draw `d`, if not;
without a match it is unchanged. The comparator never clears it. -/
def flagAfterCompare (isMatch enabled f d : Bool) : Bool :=
  if isMatch then (if enabled then true else f || d) else f

end Sys2Proof.Machine
end

