-- ==== Sys2Proof/Machine/State.lean ====
section
/-! DEFINITION. The architectural state (10_state.md), the inputs that interleave the other agents with the sequencer,
the reasons a step can stop, and the state at launch. -/

namespace Sys2Proof.Machine

/-- The device register file (R23), the block's one address space (R47): pairs of an offset and its byte. -/
abbrev Memory := List Host.Cell

/-- `PHASE` (R16): IDLE = 0, BUSY = 1. -/
inductive Phase where
  | idle
  | busy
deriving DecidableEq, Repr

/-- `RSP.code` (R21, R174). -/
inductive StatusCode where
  | ok
  | busFail
  | illegalOpcode
  | illegalOperand
deriving DecidableEq, Repr

/-- The response register `RSP` (R21). -/
structure Response where
  valid : Bool
  code  : StatusCode
  fidx  : BitVec 4
  r     : DWord
deriving DecidableEq, Repr

/-- The draw of one bus transaction (R50). In `fail landed`, entry i says whether byte i of a failed write was applied
(R49); a byte the list does not reach was not applied. A failed read delivers nothing, whatever the list says. -/
inductive BusDraw where
  | ok
  | fail (landed : List Bool)
deriving DecidableEq, Repr

/-- What a block reset leaves unspecified (R191): the contents of CMD, SCR and FLD, and which bytes of a write in flight
were applied. -/
structure ResetDraw where
  cmd    : CmdWord
  scr    : Vector Byte 8
  fld    : EpochFields
  landed : List Bool
deriving DecidableEq, Repr

/-- One step of a run by an agent, with the values that step draws. The list of them in `State` is the interleaving of
R14, R55 and R59: the host's issues, the transport's draws, the timekeeper's steps, and the platform's reset. -/
inductive Input where
  /-- The host issues `w`, as soon as the block is IDLE (R88, R197). -/
  | host (w : CmdWord)
  /-- The sequencer performs its next transaction, and the transport draws `d` for it (R50, R91). -/
  | bus (d : BusDraw)
  /-- TICK (R179): `n` is the new time where `P_TICK_FN` is `none`; `d1`, `d2` are the draws for a disabled alarm's flag. -/
  | tick (n : TimeBytes) (d1 d2 : Bool)
  /-- MATCH (R180): `d1`, `d2` are the draws for a disabled alarm's flag. -/
  | matchStep (d1 d2 : Bool)
  /-- TEMP (R181): the new TEMPM and TEMPL. -/
  | temp (m l : Byte)
  /-- VOL (R182): new values for the volatile bits, taken from `control` and `status` at those bits. -/
  | vol (control status : Byte)
  /-- Block reset (R191). -/
  | reset (d : ResetDraw)
deriving DecidableEq, Repr

/-- Everything the spec gives the machine, then the model's own fields. Plain data. -/
structure State where
  /-- `PHASE` (R16). -/
  phase : Phase
  /-- `CMD`, the latched command word (R17). -/
  cmd : CmdWord
  /-- `K`, the step index (R18). -/
  k : BitVec 4
  /-- `SCR[0..7]`, the scratch buffer (R19). -/
  scr : Vector Byte 8
  /-- `FLD`, the epoch field latch (R20). -/
  fld : EpochFields
  /-- `RSP` (R21). -/
  rsp : Response
  /-- `REG[0x00..0x12]`, the device register file (R23): offset and byte, in the canonical form of `Memory.wf`. -/
  mem : Memory
  /-- With `P_BURST_ATOMIC` false, the bytes of the transaction in flight already moved (R55). The model's own. -/
  burst : Nat
  /-- With `P_BURST_ATOMIC` false, whether the transaction in flight has already lost a byte and so fails (R55, R49). The
  model's own. -/
  burstLost : Bool
  /-- The parameters of R6; no step changes them. The model's own. -/
  params : Params
  /-- What the transport draws for a transaction no input names. A free value: the model's own. -/
  busRest : BusDraw
  /-- The steps of the other agents still to come, and the transport's draws, the next one first. The model's own. -/
  inputs : List Input
deriving DecidableEq, Repr

/-- Why the machine stops with a fault. -/
inductive Fault where
  /-- Raised by `step` while PHASE is BUSY and CMD holds a reserved opcode: R88 finishes such a word at issue, so no
  state reached from an IDLE one is so. Safe. -/
  | commandLost
deriving DecidableEq, Repr

/-- Why a step is refused. -/
inductive Refusal where
  /-- Raised by an arm of `exec` for an instruction with no meaning yet; no arm raises it. Safe. -/
  | notModelled (mnemonic : String)
  /-- Raised by the shared transaction operation for a transaction outside 0x00..0x12 (R47: "A model refuses any
  transaction outside 0x00..0x12. No script produces one, so the refusal is never reached"). Safe. -/
  | offsetOutside (offset count : Nat)
  /-- Raised by `step` when the block is IDLE and no input is listed: no agent has a move (R88, R91). Safe. -/
  | awaitingIssue
  /-- Raised by `step` when the next input names a step that is not enabled: a TICK or MATCH that R178 does not enable, or
  a transaction while the block is IDLE. Safe. -/
  | inputNotEnabled
deriving DecidableEq, Repr

/-- The state at launch: the block after reset (R191), and the device registers, which the spec leaves unspecified at
launch (R24, R192), at the value log entry 1 names (the empty list: every register 0x00). CMD, SCR and FLD, unspecified
too, are zero (log entry 2). -/
def State.reset : State :=
  { phase := .idle
    cmd := 0
    k := 0
    scr := Vector.replicate 8 0
    fld := { year := 0, month := 0, day := 0, hour := 0, minute := 0, second := 0, dow := 0 }
    rsp := { valid := false, code := .ok, fidx := 0, r := 0 }
    mem := []
    burst := 0
    burstLost := false
    params := Params.default
    busRest := .ok
    inputs := [] }

end Sys2Proof.Machine
end

