-- ==== Sys2Proof/Machine/Ops.lean ====
section
/-! DEFINITION. The shared operations: the device register file and its two bus primitives (20_memory.md), the RMW
helpers, and the command lifecycle of issue, step, finish and failure (40_sequencer.md). Every meaning is `runCommand`
of its pseudocode. -/

namespace Sys2Proof.Machine

/-! The register file. -/

/-- What a register reads as when nothing is listed for it: the launch value, unspecified by R24 and R192 (log entry 1). -/
def Memory.unlisted : Byte := 0

/-- `REG[a]`. -/
def Memory.read : Memory → Nat → Byte
  | [], _ => Memory.unlisted
  | c :: t, a => if c.1 = a then c.2 else Memory.read t a

/-- The file without its entry for `a`. -/
def Memory.erase (m : Memory) (a : Nat) : Memory := m.filter (fun c => c.1 != a)

/-- The file with an entry for `a`, placed by offset. -/
def Memory.place : Memory → Nat → Byte → Memory
  | [], a, b => [(a, b)]
  | c :: t, a, b => if a < c.1 then (a, b) :: c :: t else c :: Memory.place t a b

/-- `REG[a] <- b`, keeping the canonical form. -/
def Memory.write (m : Memory) (a : Nat) (b : Byte) : Memory :=
  if b = Memory.unlisted then m.erase a else (m.erase a).place a b

/-- The canonical form: offsets strictly rising, and no entry equal to what an unlisted offset reads as. -/
abbrev Memory.wf (m : Memory) : Prop :=
  m.Pairwise (fun c d => c.1 < d.1) ∧ ∀ c ∈ m, c.2 ≠ Memory.unlisted

/-- Every entry is one of the 19 registers (R23, R47). -/
abbrev Memory.inMap (m : Memory) : Prop := ∀ c ∈ m, c.1 < 0x13

/-- The bytes of the registers `o` to `o + n - 1`, in ascending order (R48). -/
def readBytes (m : Memory) (o n : Nat) : List Byte := (List.range n).map fun i => m.read (o + i)

/-- The device write rule for one byte (R49): STATUS by R40, TEMPM and TEMPL unchanged, every other register stored. -/
def devWriteByte (p : Params) (m : Memory) (o : Nat) (b : Byte) : Memory :=
  if o = 0x0F then m.write o (statusAfterWrite p.flagWsem (m.read o) b)
  else if o = 0x11 ∨ o = 0x12 then m
  else m.write o b

/-- The bytes of a successful bus write, in ascending order (R49). -/
def devWriteBytes (p : Params) : Memory → Nat → List Byte → Memory
  | m, _, [] => m
  | m, o, b :: bs => devWriteBytes p (devWriteByte p m o b) (o + 1) bs

/-- A failed bus write (R49): byte i is applied exactly if `landed` says so. -/
def devWriteLanded (p : Params) : Memory → Nat → List Byte → List Bool → Memory
  | m, o, b :: bs, l :: ls => devWriteLanded p (if l then devWriteByte p m o b else m) (o + 1) bs ls
  | m, _, _, _ => m

/-- `REG[o]` of a state. -/
def State.reg (s : State) (o : Nat) : Byte := s.mem.read o

/-- A state with `REG[o] <- b`, by no bus write: the timekeeper's own change. -/
def State.setReg (s : State) (o : Nat) (b : Byte) : State := { s with mem := s.mem.write o b }

/-- `SCR[i]` (R19). -/
def State.slot (s : State) (i : Nat) : Byte := s.scr[i]?.getD 0

/-- `SCR[0..n-1]`. -/
def State.slots (s : State) (n : Nat) : List Byte := (List.range n).map s.slot

/-- Delivers read bytes into the scratch bytes from `i` on (R19). -/
def fillSlots (scr : Vector Byte 8) : Nat → List Byte → Vector Byte 8
  | _, [] => scr
  | i, b :: bs => fillSlots (scr.setIfInBounds i b) (i + 1) bs

/-! Transactions. -/

/-- One bus transaction of a script: `MemRead(offset, count)` delivered into `SCR[slot..]`, or `MemWrite(offset, bytes)`
(R48, R49). Both address the device at `P_DEV_ADDR` (R8). -/
inductive Tx where
  | read (offset count slot : Nat)
  | write (offset : Nat) (bytes : List Byte)
deriving DecidableEq, Repr

def Tx.offset : Tx → Nat
  | .read o _ _ => o
  | .write o _ => o

/-- How many bytes the transaction moves. -/
def Tx.count : Tx → Nat
  | .read _ n _ => n
  | .write _ bs => bs.length

/-- The bus address every transaction is sent to (R8). -/
def Tx.deviceAddress (_ : Tx) : BitVec 7 := Config.devAddr

/-- `o + n - 1 <= 0x12` (R47). -/
def Tx.inMap (t : Tx) : Bool := t.offset + t.count ≤ 0x13

/-- The effect of a transaction that succeeds (R48, R49). -/
def applyTx (t : Tx) (s : State) : State :=
  match t with
  | .read o n i => { s with scr := fillSlots s.scr i (readBytes s.mem o n) }
  | .write o bs => { s with mem := devWriteBytes s.params s.mem o bs }

/-- The effect of a transaction that fails (R48, R49): none for a read, any subset of the bytes for a write. -/
def applyFailedTx (t : Tx) (landed : List Bool) (s : State) : State :=
  match t with
  | .read _ _ _ => s
  | .write o bs => { s with mem := devWriteLanded s.params s.mem o bs landed }

/-- With `P_BURST_ATOMIC` false, the effect of moving byte `j` of a transaction (R55). A byte the transport loses is not
delivered by a read, and is applied or not, by the first entry of `landed`, in a write (R49). -/
def applyTxByte (t : Tx) (j : Nat) (d : BusDraw) (s : State) : State :=
  match t, d with
  | .read o _ i, .ok => { s with scr := fillSlots s.scr (i + j) [s.mem.read (o + j)] }
  | .read _ _ _, .fail _ => s
  | .write o bs, .ok => { s with mem := devWriteBytes s.params s.mem (o + j) (bs[j]?).toList }
  | .write o bs, .fail landed => { s with mem := devWriteLanded s.params s.mem (o + j) (bs[j]?).toList landed }

/-- The draw the inputs name for the next transaction, or the free value `rest` (R50). -/
def headDraw (rest : BusDraw) : List Input → BusDraw
  | .bus d :: _ => d
  | _ => rest

/-- The inputs once that draw is taken. -/
def popBus : List Input → List Input
  | .bus _ :: l => l
  | l => l

/-- The draw of the next transaction (R50). -/
def State.nextDraw (s : State) : BusDraw := headDraw s.busRest s.inputs

/-- The state once that draw is taken. -/
def State.popDraw (s : State) : State := { s with inputs := popBus s.inputs }

/-- Whether a draw is a failure. -/
def BusDraw.failed : BusDraw → Bool
  | .ok => false
  | .fail _ => true

/-! The read-modify-write helpers. -/

/-- `p <- RMW(o, mask, val)` with `p` held in `SCR[slot]`: its two transactions (R52). -/
def rmw (s : State) (o : Nat) (mask val : Byte) (slot : Nat) : List Tx :=
  [.read o 1 slot, .write o [rmwByte s.params o mask val (s.slot slot)]]

/-- `P <- RMWN(o, n, f)` with `P` held in `SCR[0..n-1]`: its two transactions (R54). -/
def rmwn (s : State) (o n : Nat) (f : List Byte → List Byte) : List Tx :=
  [.read o n 0, .write o (f (s.slots n))]

/-! The lifecycle. -/

/-- A command's pseudocode: the failure its issue raises, if any (R89, R90), what it latches at issue (R88), its script
(R87, R91) and its result (R92). The script is the list of transactions in order, computed from the state: entry `K` is
the next one, and it uses only scratch bytes that entries before it delivered. -/
structure Command where
  check : State → Option StatusCode
  latch : State → State
  script : State → List Tx
  result : State → DWord

/-- A command that is legal whenever it is issued and latches nothing but CMD. -/
def Command.plain (script : State → List Tx) (result : State → DWord) : Command :=
  { check := fun _ => none, latch := id, script := script, result := result }

/-- Ends the command with a code (R92): the one operation every finish and every failure calls. It is this block's
exception entry: RSP records the code and the index, PHASE becomes IDLE, and nothing else is saved (R176). There is no
return from it (R177). -/
def finishWith (code : StatusCode) (fidx : BitVec 4) (r : DWord) (s : State) : State :=
  { s with phase := .idle, rsp := { valid := true, code := code, fidx := fidx, r := r }, burst := 0, burstLost := false }

/-- `finish(R)` (R92). -/
def finish (r : DWord) (s : State) : State := finishWith .ok 0 r s

/-- `raise IllegalOpcode()` and `raise IllegalOperand()` (R89, R90). -/
def raiseIllegal (code : StatusCode) (s : State) : State := finishWith code 0 0 s

/-- `raise BusFail(K)` (R93). -/
def raiseBusFail (s : State) : State := finishWith .busFail s.k 0 s

/-- `CMD <- W`, the first assignment of issue (R88). -/
def latchCommand (w : CmdWord) (s : State) : State := { s with cmd := w }

/-- `K <- 0; RSP.valid <- 0; PHASE <- BUSY` (R88). -/
def beginCommand (s : State) : State :=
  { s with phase := .busy, k := 0, rsp := { s.rsp with valid := false }, burst := 0, burstLost := false }

/-- `K <- K + 1` (R18, R91). -/
def advanceK (s : State) : State := { s with k := s.k + 1 }

/-- Finish is the same sequencer step as the last transaction, or as issue when there is none (R92). -/
def finishIfDone (c : Command) (s : State) : State :=
  if s.k.toNat < (c.script s).length then s else finish (c.result s) s

/-- Issue (R88), after `CMD <- W`. -/
def issue (c : Command) (s : State) : State :=
  match c.check (beginCommand s) with
  | some code => raiseIllegal code (beginCommand s)
  | none => finishIfDone c (c.latch (beginCommand s))

/-- Issue of a word with a reserved opcode (R88, R89). -/
def issueReserved (s : State) : State := raiseIllegal .illegalOpcode (beginCommand s)

/-- One whole transaction (R91, R93), indivisible as `P_BURST_ATOMIC` says (R55). -/
def transactWhole (c : Command) (t : Tx) (s : State) : State :=
  match s.nextDraw with
  | .ok => finishIfDone c (advanceK (applyTx t s.popDraw))
  | .fail landed => raiseBusFail (applyFailedTx t landed s.popDraw)

/-- One byte of a transaction (R55, `P_BURST_ATOMIC` false). After the last byte the transaction has succeeded, or has
failed if any byte was lost. -/
def transactByte (c : Command) (t : Tx) (s : State) : State :=
  let moved := applyTxByte t s.burst s.nextDraw s.popDraw
  let lost := s.burstLost || s.nextDraw.failed
  if s.burst + 1 < t.count then { moved with burst := s.burst + 1, burstLost := lost }
  else if lost then raiseBusFail moved
  else finishIfDone c (advanceK { moved with burst := 0, burstLost := false })

/-- One sequencer step of a BUSY command at its transaction `t` (R91). -/
def transact (c : Command) (t : Tx) (s : State) : State :=
  if s.params.burstAtomic then transactWhole c t s else transactByte c t s

/-- One sequencer step of a command: its issue while IDLE (R88), its next transaction while BUSY (R91). -/
def runCommand (c : Command) (s : State) : Host.Outcome State Fault Refusal :=
  match s.phase with
  | .idle => .next (issue c s)
  | .busy =>
    match c.check s with
    | some code => .next (raiseIllegal code s)
    | none =>
      match (c.script s)[s.k.toNat]? with
      | none => .next (finish (c.result s) s)
      | some t => if t.inMap then .next (transact c t s) else .refused (.offsetOutside t.offset t.count)

/-- Byte `i` of a burst, `P[i]`. -/
def byteAt (P : List Byte) (i : Nat) : Byte := P[i]?.getD 0

/-! Shapes of command that several mnemonics share. -/

/-- `p <- RMW(o, mask, val); finish(zext_64(p))`. -/
def rmwCommand (o : Nat) (mask val : Byte) : Command :=
  .plain (fun s => rmw s o mask val 0) (fun s => (s.slot 0).setWidth 64)

/-- `p <- MemRead(o, 1)[0]; finish(f(p))`. -/
def readCommand (o : Nat) (f : Byte → DWord) : Command :=
  .plain (fun _ => [.read o 1 0]) (fun s => f (s.slot 0))

/-- `P <- MemRead(o, n); finish(f(P))`. -/
def burstReadCommand (o n : Nat) (f : List Byte → DWord) : Command :=
  .plain (fun _ => [.read o n 0]) (fun s => f (s.slots n))

/-- `p <- MemRead(o, 1)[0]; MemWrite(o, 1, [f(p)]); finish(zext_64(p))`. -/
def modifyCommand (o : Nat) (f : Byte → Byte) : Command :=
  .plain (fun s => [.read o 1 0, .write o [f (s.slot 0)]]) (fun s => (s.slot 0).setWidth 64)

/-- `P <- RMWN(o, n, f); finish(zext_64(P))`. -/
def burstModifyCommand (o n : Nat) (f : List Byte → List Byte) : Command :=
  .plain (fun s => rmwn s o n f) (fun s => packBytes (s.slots n))

/-- A batch command exists only when `P_HAS_BATCH`; otherwise its opcode is reserved (R80). -/
def Command.batchOnly (c : Command) : Command :=
  { c with check := fun s => if s.params.hasBatch then none else some .illegalOpcode }

end Sys2Proof.Machine
end

