-- ==== Sys2Proof/Machine/AlarmControl.lean ====
section
/-! DEFINITION. Enable, disable, trigger, clear and pin routing (43_alarm.md R157 to R165). -/

namespace Sys2Proof.Machine

/-- EN1 (R157). -/
def execEn1 (s : State) : Host.Outcome State Fault Refusal :=
  runCommand (rmwCommand 0x0E 0x01 0x01) s

/-- EN2 (R158). -/
def execEn2 (s : State) : Host.Outcome State Fault Refusal :=
  runCommand (rmwCommand 0x0E 0x02 0x02) s

/-- DIS1 (R159): A1F is not cleared. -/
def execDis1 (s : State) : Host.Outcome State Fault Refusal :=
  runCommand (rmwCommand 0x0E 0x01 0x00) s

/-- DIS2 (R160): A2F is not cleared. -/
def execDis2 (s : State) : Host.Outcome State Fault Refusal :=
  runCommand (rmwCommand 0x0E 0x02 0x00) s

/-- TRG1 (R161): the flag alone. -/
def execTrg1 (s : State) : Host.Outcome State Fault Refusal :=
  runCommand (readCommand 0x0F (fun p => (BitVec.ofBool (statusA1F p)).setWidth 64)) s

/-- TRG2 (R162): the flag alone. -/
def execTrg2 (s : State) : Host.Outcome State Fault Refusal :=
  runCommand (readCommand 0x0F (fun p => (BitVec.ofBool (statusA2F p)).setWidth 64)) s

/-- CLR1 (R163). -/
def execClr1 (s : State) : Host.Outcome State Fault Refusal :=
  runCommand (rmwCommand 0x0F 0x01 0x00) s

/-- CLR2 (R164). -/
def execClr2 (s : State) : Host.Outcome State Fault Refusal :=
  runCommand (rmwCommand 0x0F 0x02 0x00) s

/-- ALMPIN (R165): INTCN <- 1, SQWE <- 0. -/
def execAlmpin (s : State) : Host.Outcome State Fault Refusal :=
  runCommand (rmwCommand 0x0E 0x44 0x04) s

end Sys2Proof.Machine
end

