-- ==== Sys2Proof/Machine/AlarmGet.lean ====
section
/-! DEFINITION. The alarm getters (43_alarm.md R152 to R154): one burst each, masked fields decoded anyway. -/

namespace Sys2Proof.Machine

/-- The mask byte B4: bit 0 = M1 .. bit 3 = M4 (R153). -/
def maskByte (m1 m2 m3 m4 : Bool) : Byte :=
  0#4 ++ BitVec.ofBool m4 ++ BitVec.ofBool m3 ++ BitVec.ofBool m2 ++ BitVec.ofBool m1

/-- The result of GETA1 (R153). -/
def alarm1Result (P : List Byte) : DWord :=
  0#16 ++
    kind1 (maskBit (byteAt P 0)) (maskBit (byteAt P 1)) (maskBit (byteAt P 2)) (maskBit (byteAt P 3)) ++
    maskByte (maskBit (byteAt P 0)) (maskBit (byteAt P 1)) (maskBit (byteAt P 2)) (maskBit (byteAt P 3)) ++
    alarmDayByte (byteAt P 3) ++ hourByte (byteAt P 2) ++ fieldVal (byteAt P 1) 0x7F ++ fieldVal (byteAt P 0) 0x7F

/-- The result of GETA2 (R154): alarm 2 has no seconds, B0 and the M1 bit of B4 read 0. -/
def alarm2Result (P : List Byte) : DWord :=
  0#16 ++ kind2 (maskBit (byteAt P 0)) (maskBit (byteAt P 1)) (maskBit (byteAt P 2)) ++
    maskByte false (maskBit (byteAt P 0)) (maskBit (byteAt P 1)) (maskBit (byteAt P 2)) ++
    alarmDayByte (byteAt P 2) ++ hourByte (byteAt P 1) ++ fieldVal (byteAt P 0) 0x7F ++ 0#8

/-- GETA1 (R153). -/
def execGeta1 (s : State) : Host.Outcome State Fault Refusal :=
  runCommand (burstReadCommand 0x07 4 alarm1Result) s

/-- GETA2 (R154). -/
def execGeta2 (s : State) : Host.Outcome State Fault Refusal :=
  runCommand (burstReadCommand 0x0B 3 alarm2Result) s

end Sys2Proof.Machine
end

