-- ==== Sys2Proof/Machine/AlarmSet.lean ====
section
/-! DEFINITION. The alarm setters and their mask generator (43_alarm.md R144 to R151). Each result is the old bytes. -/

namespace Sys2Proof.Machine

/-- One field of an alarm setter's supplied set (R144). -/
inductive AlarmField where
  | secOrMin (v : Byte)
  | hour (v : Byte)      -- canonical, written in 24-hour form
  | day (v : Byte)       -- a day-of-month
  | notSupplied
deriving DecidableEq, Repr

/-- The byte the mask generator writes for one field over `p` (R144): a supplied field has mask 0, one not supplied keeps
its value bits and has mask 1. -/
def AlarmField.byte (p : Byte) : AlarmField → Byte
  | .secOrMin v => toBCD8 v &&& 0x7F
  | .hour v => toBCD8 v &&& 0x3F
  | .day v => toBCD8 v &&& 0x3F
  | .notSupplied => p ||| 0x80

/-- `f(P)` of an alarm setter (R144), its fields in offset order. -/
def alarmBytes (fields : List AlarmField) (P : List Byte) : List Byte :=
  List.zipWith (fun p f => AlarmField.byte p f) P fields

/-- SETA1S (R145). -/
def execSeta1s (second : Byte) (s : State) : Host.Outcome State Fault Refusal :=
  runCommand (burstModifyCommand 0x07 4 (alarmBytes [.secOrMin second, .notSupplied, .notSupplied, .notSupplied])) s

/-- SETA1MS (R146). -/
def execSeta1ms (minute second : Byte) (s : State) : Host.Outcome State Fault Refusal :=
  runCommand (burstModifyCommand 0x07 4 (alarmBytes [.secOrMin second, .secOrMin minute, .notSupplied, .notSupplied])) s

/-- SETA1HMS (R147). -/
def execSeta1hms (hour minute second : Byte) (s : State) : Host.Outcome State Fault Refusal :=
  runCommand (burstModifyCommand 0x07 4 (alarmBytes [.secOrMin second, .secOrMin minute, .hour hour, .notSupplied])) s

/-- SETA1DHMS (R148). -/
def execSeta1dhms (day hour minute second : Byte) (s : State) : Host.Outcome State Fault Refusal :=
  runCommand (burstModifyCommand 0x07 4 (alarmBytes [.secOrMin second, .secOrMin minute, .hour hour, .day day])) s

/-- SETA2M (R149). -/
def execSeta2m (minute : Byte) (s : State) : Host.Outcome State Fault Refusal :=
  runCommand (burstModifyCommand 0x0B 3 (alarmBytes [.secOrMin minute, .notSupplied, .notSupplied])) s

/-- SETA2HM (R150). -/
def execSeta2hm (hour minute : Byte) (s : State) : Host.Outcome State Fault Refusal :=
  runCommand (burstModifyCommand 0x0B 3 (alarmBytes [.secOrMin minute, .hour hour, .notSupplied])) s

/-- SETA2DHM (R151). -/
def execSeta2dhm (day hour minute : Byte) (s : State) : Host.Outcome State Fault Refusal :=
  runCommand (burstModifyCommand 0x0B 3 (alarmBytes [.secOrMin minute, .hour hour, .day day])) s

end Sys2Proof.Machine
end

