-- ==== Sys2Proof/WellFormed.lean ====
section
/-! DEFINITION. Which instructions are well formed: the operand values 30_encoding.md R82 calls legal. Every operand's
width is in its type, so the one check is SETOUT's mode. An ill-formed SETOUT still decodes: the block answers it with
ILLEGAL_OPERAND (R90). -/

namespace Sys2Proof

/-- SETOUT's legal modes, 0 = INT and 1..4 = SQW0..SQW3 (R74). -/
def legalOutMode (mode : Byte) : Bool := mode.toNat < 5

/-- Every operand value is legal (R82: "No other operand value is illegal"). -/
def Instr.wellFormed : Instr → Bool
  | .setout mode => legalOutMode mode
  | .nop | .setsec _ | .setmin _ | .sethour _ | .setweek _ | .setday _ | .setmonth _ | .setyear _
  | .getsec | .getmin | .gethour | .getweek | .getday | .getmonth | .getyear
  | .setdate _ _ _ | .settime _ _ _ | .sethmode _ | .gethmode | .setmer _ | .getmer
  | .setepoch _ | .getepoch | .start | .stop | .isrun | .getdt | .setdt _
  | .seta1s _ | .seta1ms _ _ | .seta1hms _ _ _ | .seta1dhms _ _ _ _ | .seta2m _ | .seta2hm _ _ | .seta2dhm _ _ _
  | .geta1 | .geta2 | .en1 | .en2 | .dis1 | .dis2 | .trg1 | .trg2 | .clr1 | .clr2 | .almpin
  | .getout | .sqwpin | .getage | .setage _ | .gettemp => true

end Sys2Proof
end

