-- ==== Sys2Proof/Machine/Auxiliary.lean ====
section
/-! DEFINITION. Output pin, aging and temperature (44_aux.md R167 to R172). -/

namespace Sys2Proof.Machine

/-- GETOUT's mode in SETOUT's numbering (R168): INTCN = 1 wins. -/
def outMode (p : Byte) : Byte := if controlINTCN p then 0 else 1 + (controlRS p).setWidth 8

/-- SETOUT (R167): mode 0 is INT, 1..4 are square wave with RS = mode - 1, and 5 or more ends at issue (R90). -/
def execSetout (mode : Byte) (s : State) : Host.Outcome State Fault Refusal :=
  runCommand
    { check := fun _ => if legalOutMode mode then none else some .illegalOperand
      latch := id
      script := fun s =>
        if mode = 0 then rmw s 0x0E 0x44 0x04 0 else rmw s 0x0E 0x5C (0x40 ||| ((mode - 1) <<< 3)) 0
      result := fun s => (s.slot 0).setWidth 64 } s

/-- GETOUT (R168). -/
def execGetout (s : State) : Host.Outcome State Fault Refusal :=
  runCommand (readCommand 0x0E (fun p => (BitVec.ofBool (controlSQWE p) ++ outMode p).setWidth 64)) s

/-- SQWPIN (R169): SQWE <- 1, INTCN <- 0. -/
def execSqwpin (s : State) : Host.Outcome State Fault Refusal :=
  runCommand (rmwCommand 0x0E 0x44 0x40) s

/-- GETAGE (R170). -/
def execGetage (s : State) : Host.Outcome State Fault Refusal :=
  runCommand (readCommand 0x10 agingVal) s

/-- SETAGE (R171): one whole-byte write, no read, result 0. -/
def execSetage (v : Byte) (s : State) : Host.Outcome State Fault Refusal :=
  runCommand (.plain (fun _ => [.write 0x10 [v]]) (fun _ => 0)) s

/-- GETTEMP (R172): quarter degrees, sign-extended. -/
def execGettemp (s : State) : Host.Outcome State Fault Refusal :=
  runCommand (burstReadCommand 0x11 2 (fun P => (tempQ (byteAt P 0) (byteAt P 1)).signExtend 64)) s

end Sys2Proof.Machine
end

