-- ==== Sys2Proof/Machine/Batch.lean ====
section
/-! DEFINITION. Batch read and batch write (42_time_mode.md R138, R139). Without `P_HAS_BATCH` their opcodes are reserved (R80). -/

namespace Sys2Proof.Machine

/-- The result of GETDT from the bytes `P` of SEC to YEAR (R138). -/
def fullTimeResult (base : BitVec 16) (P : List Byte) : DWord :=
  regToYear base (byteAt P 6) ++ fieldVal (byteAt P 5) 0x1F ++ fieldVal (byteAt P 4) 0x3F ++ decDow (byteAt P 3) ++
    hourByte (byteAt P 2) ++ fieldVal (byteAt P 1) 0x7F ++ fieldVal (byteAt P 0) 0x7F

/-- The hours byte SETDT writes over `p` (R139): mode and PM come from the operand; bit 7 is kept. R28's
list of the writers of H12 has SETHMODE only: R139 is followed where the two differ (log entry 20). -/
def fullTimeHour (d : FullTime) (p : Byte) : Byte :=
  (p &&& 0x80) |||
    (if d.h12 then 0x40 ||| (if d.pm then 0x20 else 0) ||| (toBCD8 (d.hour.setWidth 8) &&& 0x1F)
     else toBCD8 (d.hour.setWidth 8) &&& 0x3F)

/-- `f(P)` of SETDT (R139). -/
def fullTimeBytes (d : FullTime) (P : List Byte) : List Byte :=
  [pack (byteAt P 0) 0x7F d.second, pack (byteAt P 1) 0x7F d.minute, fullTimeHour d (byteAt P 2),
   pack (byteAt P 3) 0x07 d.dow, pack (byteAt P 4) 0x3F d.date, pack (byteAt P 5) 0x1F d.month, yearToReg d.year]

/-- GETDT (R138). -/
def execGetdt (s : State) : Host.Outcome State Fault Refusal :=
  runCommand (burstReadCommand 0x00 7 (fullTimeResult s.params.yearBase)).batchOnly s

/-- SETDT (R139): `R` = the seven bytes read. -/
def execSetdt (d : FullTime) (s : State) : Host.Outcome State Fault Refusal :=
  runCommand (burstModifyCommand 0x00 7 (fullTimeBytes d)).batchOnly s

end Sys2Proof.Machine
end

