-- ==== Sys2Proof/Machine/Compose.lean ====
section
/-! DEFINITION. The compositions of single-field setters, not atomic (42_time_mode.md R127, R128). -/

namespace Sys2Proof.Machine

/-- SETDATE (R127): day, month, year; `R = {p2, p1, p0}`. -/
def execSetdate (day month : Byte) (year : BitVec 16) (s : State) : Host.Outcome State Fault Refusal :=
  runCommand
    (.plain
      (fun s => rmw s 0x04 0x3F (toBCD8 day) 0 ++ rmw s 0x05 0x1F (toBCD8 month) 1 ++ rmw s 0x06 0xFF (yearToReg year) 2)
      (fun s => packBytes (s.slots 3))) s

/-- SETTIME (R128): hour, minute, second; `R = {old SEC, old MIN, old HOUR}`. -/
def execSettime (hour minute second : Byte) (s : State) : Host.Outcome State Fault Refusal :=
  runCommand
    (.plain
      (fun s => [.read 0x02 1 0, .write 0x02 [setHourRel (s.slot 0) hour]] ++
        rmw s 0x01 0x7F (toBCD8 minute) 1 ++ rmw s 0x00 0x7F (toBCD8 second) 2)
      (fun s => packBytes (s.slots 3))) s

end Sys2Proof.Machine
end

