-- ==== Sys2Proof/Machine/Epoch.lean ====
section
/-! DEFINITION. The epoch commands (42_time_mode.md R136, R137), through the OPEN calendar functions (R9). -/

namespace Sys2Proof.Machine

/-- The hours byte SETEPOCH writes over `p` (R136): the canonical hour `h` in the mode `p` already has, bit 7 kept. -/
def setHourCanon (p h : Byte) : Byte := (p &&& 0x80) ||| encCanonHour h (hourIs12 p)

/-- SETEPOCH (R136): FLD is latched at issue (R88, D44); 14 transactions, `R[8i+7:8i]` = old REG[i]. -/
def execSetepoch (e : BitVec 32) (s : State) : Host.Outcome State Fault Refusal :=
  runCommand
    { check := fun _ => none
      latch := fun s => { s with fld := Config.calSplit e }
      script := fun s =>
        rmw s 0x00 0x7F (toBCD8 s.fld.second) 0 ++
        rmw s 0x01 0x7F (toBCD8 s.fld.minute) 1 ++
        [.read 0x02 1 2, .write 0x02 [setHourCanon (s.slot 2) s.fld.hour]] ++
        rmw s 0x03 0x07 (toBCD8 s.fld.dow) 3 ++
        rmw s 0x04 0x3F (toBCD8 s.fld.day) 4 ++
        rmw s 0x05 0x1F (toBCD8 s.fld.month) 5 ++
        rmw s 0x06 0xFF (yearToReg s.fld.year) 6
      result := fun s => packBytes (s.slots 7) } s

/-- GETEPOCH (R137): six separate reads, DOW not among them. -/
def execGetepoch (s : State) : Host.Outcome State Fault Refusal :=
  runCommand
    (.plain
      (fun _ => [.read 0x00 1 0, .read 0x01 1 1, .read 0x02 1 2, .read 0x04 1 3, .read 0x05 1 4, .read 0x06 1 5])
      (fun s => (Config.calJoin (regToYear s.params.yearBase (s.slot 5)) (fieldVal (s.slot 4) 0x1F)
        (fieldVal (s.slot 3) 0x3F) (canonHour (s.slot 2)) (fieldVal (s.slot 1) 0x7F)
        (fieldVal (s.slot 0) 0x7F)).setWidth 64)) s

end Sys2Proof.Machine
end

