-- ==== Sys2Proof/Machine/Mode.lean ====
section
/-! DEFINITION. Clock mode and meridiem (42_time_mode.md R129 to R132). -/

namespace Sys2Proof.Machine

/-- The byte SETHMODE writes over `p` (R129): to 12-hour sets bit 6; to 24-hour clears bit 6, and bit 5 when leaving
12-hour mode. -/
def setHourMode (f : Bool) (p : Byte) : Byte :=
  if f then p ||| 0x40
  else if hourIs12 p then p &&& ~~~0x40 &&& ~~~0x20
  else p &&& ~~~0x40

/-- The byte SETMER writes over `p` in 12-hour mode (R131). -/
def setMeridiem (f : Bool) (p : Byte) : Byte := (p &&& ~~~0x20) ||| (if f then 0x20 else 0)

/-- SETHMODE (R129): always writes. -/
def execSethmode (f : Bool) (s : State) : Host.Outcome State Fault Refusal :=
  runCommand (modifyCommand 0x02 (setHourMode f)) s

/-- GETHMODE (R130). -/
def execGethmode (s : State) : Host.Outcome State Fault Refusal :=
  runCommand (readCommand 0x02 (fun p => (BitVec.ofBool (hourIs12 p)).setWidth 64)) s

/-- SETMER (R131): in 24-hour mode the write is skipped. -/
def execSetmer (f : Bool) (s : State) : Host.Outcome State Fault Refusal :=
  runCommand
    (.plain
      (fun s => .read 0x02 1 0 ::
        (if hourIs12 (s.slot 0) then [.write 0x02 [setMeridiem f (s.slot 0)]] else []))
      (fun s => (s.slot 0).setWidth 64)) s

/-- GETMER (R132): `R[0]` = PM in 12-hour mode, `R[1]` = 12-hour mode. -/
def execGetmer (s : State) : Host.Outcome State Fault Refusal :=
  runCommand (readCommand 0x02 (fun p => (BitVec.ofBool (hourIs12 p) ++ BitVec.ofBool (hourIsPm p)).setWidth 64)) s

end Sys2Proof.Machine
end

