-- ==== Sys2Proof/Machine/RunStop.lean ====
section
/-! DEFINITION. The oscillator commands (42_time_mode.md R133 to R135). -/

namespace Sys2Proof.Machine

/-- START (R133). -/
def execStart (s : State) : Host.Outcome State Fault Refusal :=
  runCommand (rmwCommand s.params.oscReg.offset (oscMask s.params) (oscLevel s.params true)) s

/-- STOP (R134). -/
def execStop (s : State) : Host.Outcome State Fault Refusal :=
  runCommand (rmwCommand s.params.oscReg.offset (oscMask s.params) (oscLevel s.params false)) s

/-- ISRUN (R135). -/
def execIsrun (s : State) : Host.Outcome State Fault Refusal :=
  runCommand (readCommand s.params.oscReg.offset (fun p => if oscRunning s.params p then 1 else 0)) s

end Sys2Proof.Machine
end

