-- ==== Sys2Proof/Machine/Sequencer.lean ====
section
/-! DEFINITION. The command with no transaction (40_sequencer.md R95). -/

namespace Sys2Proof.Machine

/-- NOP (R95): `finish(0)`. -/
def execNop (s : State) : Host.Outcome State Fault Refusal :=
  runCommand (.plain (fun _ => []) (fun _ => 0)) s

end Sys2Proof.Machine
end

