-- ==== Sys2Proof/Machine/TimeGet.lean ====
section
/-! DEFINITION. The single-field getters (42_time_mode.md R120 to R126): one read each. -/

namespace Sys2Proof.Machine

/-- GETSEC (R120). -/
def execGetsec (s : State) : Host.Outcome State Fault Refusal :=
  runCommand (readCommand 0x00 (fun p => (fieldVal p 0x7F).setWidth 64)) s

/-- GETMIN (R121). -/
def execGetmin (s : State) : Host.Outcome State Fault Refusal :=
  runCommand (readCommand 0x01 (fun p => (fieldVal p 0x7F).setWidth 64)) s

/-- GETHOUR (R122): the mode-relative hour. -/
def execGethour (s : State) : Host.Outcome State Fault Refusal :=
  runCommand (readCommand 0x02 (fun p => (decHourVal p).setWidth 64)) s

/-- GETWEEK (R123). -/
def execGetweek (s : State) : Host.Outcome State Fault Refusal :=
  runCommand (readCommand 0x03 (fun p => (decDow p).setWidth 64)) s

/-- GETDAY (R124). -/
def execGetday (s : State) : Host.Outcome State Fault Refusal :=
  runCommand (readCommand 0x04 (fun p => (fieldVal p 0x3F).setWidth 64)) s

/-- GETMONTH (R125). -/
def execGetmonth (s : State) : Host.Outcome State Fault Refusal :=
  runCommand (readCommand 0x05 (fun p => (fieldVal p 0x1F).setWidth 64)) s

/-- GETYEAR (R126): the century bit is not read. -/
def execGetyear (s : State) : Host.Outcome State Fault Refusal :=
  runCommand (readCommand 0x06 (fun p => (regToYear s.params.yearBase p).setWidth 64)) s

end Sys2Proof.Machine
end

