-- ==== Sys2Proof/Machine/TimeSet.lean ====
section
/-! DEFINITION. The single-field setters (42_time_mode.md R112 to R119). Each result is the byte read. -/

namespace Sys2Proof.Machine

/-- SETSEC (R113). -/
def execSetsec (v : Byte) (s : State) : Host.Outcome State Fault Refusal :=
  runCommand (rmwCommand 0x00 0x7F (toBCD8 v)) s

/-- SETMIN (R114). -/
def execSetmin (v : Byte) (s : State) : Host.Outcome State Fault Refusal :=
  runCommand (rmwCommand 0x01 0x7F (toBCD8 v)) s

/-- SETHOUR (R115): the mode is read from the hours byte itself. -/
def execSethour (v : Byte) (s : State) : Host.Outcome State Fault Refusal :=
  runCommand (modifyCommand 0x02 (fun p => setHourRel p v)) s

/-- SETWEEK (R116). -/
def execSetweek (v : Byte) (s : State) : Host.Outcome State Fault Refusal :=
  runCommand (rmwCommand 0x03 0x07 (toBCD8 v)) s

/-- SETDAY (R117). -/
def execSetday (v : Byte) (s : State) : Host.Outcome State Fault Refusal :=
  runCommand (rmwCommand 0x04 0x3F (toBCD8 v)) s

/-- SETMONTH (R118). -/
def execSetmonth (v : Byte) (s : State) : Host.Outcome State Fault Refusal :=
  runCommand (rmwCommand 0x05 0x1F (toBCD8 v)) s

/-- SETYEAR (R119). -/
def execSetyear (y : BitVec 16) (s : State) : Host.Outcome State Fault Refusal :=
  runCommand (rmwCommand 0x06 0xFF (yearToReg y)) s

end Sys2Proof.Machine
end

