-- ==== Sys2Proof/Machine/Dispatch.lean ====
section
/-! DEFINITION. One arm per constructor: what one sequencer step of each command does. -/

namespace Sys2Proof.Machine

def exec (i : Instr) (s : State) : Host.Outcome State Fault Refusal :=
  match i with
  | .nop => Sys2Proof.Machine.execNop s
  | .setsec v => Sys2Proof.Machine.execSetsec v s
  | .setmin v => Sys2Proof.Machine.execSetmin v s
  | .sethour v => Sys2Proof.Machine.execSethour v s
  | .setweek v => Sys2Proof.Machine.execSetweek v s
  | .setday v => Sys2Proof.Machine.execSetday v s
  | .setmonth v => Sys2Proof.Machine.execSetmonth v s
  | .setyear y => Sys2Proof.Machine.execSetyear y s
  | .getsec => Sys2Proof.Machine.execGetsec s
  | .getmin => Sys2Proof.Machine.execGetmin s
  | .gethour => Sys2Proof.Machine.execGethour s
  | .getweek => Sys2Proof.Machine.execGetweek s
  | .getday => Sys2Proof.Machine.execGetday s
  | .getmonth => Sys2Proof.Machine.execGetmonth s
  | .getyear => Sys2Proof.Machine.execGetyear s
  | .setdate day month year => Sys2Proof.Machine.execSetdate day month year s
  | .settime hour minute second => Sys2Proof.Machine.execSettime hour minute second s
  | .sethmode f => Sys2Proof.Machine.execSethmode f s
  | .gethmode => Sys2Proof.Machine.execGethmode s
  | .setmer f => Sys2Proof.Machine.execSetmer f s
  | .getmer => Sys2Proof.Machine.execGetmer s
  | .setepoch e => Sys2Proof.Machine.execSetepoch e s
  | .getepoch => Sys2Proof.Machine.execGetepoch s
  | .start => Sys2Proof.Machine.execStart s
  | .stop => Sys2Proof.Machine.execStop s
  | .isrun => Sys2Proof.Machine.execIsrun s
  | .getdt => Sys2Proof.Machine.execGetdt s
  | .setdt d => Sys2Proof.Machine.execSetdt d s
  | .seta1s second => Sys2Proof.Machine.execSeta1s second s
  | .seta1ms minute second => Sys2Proof.Machine.execSeta1ms minute second s
  | .seta1hms hour minute second => Sys2Proof.Machine.execSeta1hms hour minute second s
  | .seta1dhms day hour minute second => Sys2Proof.Machine.execSeta1dhms day hour minute second s
  | .seta2m minute => Sys2Proof.Machine.execSeta2m minute s
  | .seta2hm hour minute => Sys2Proof.Machine.execSeta2hm hour minute s
  | .seta2dhm day hour minute => Sys2Proof.Machine.execSeta2dhm day hour minute s
  | .geta1 => Sys2Proof.Machine.execGeta1 s
  | .geta2 => Sys2Proof.Machine.execGeta2 s
  | .en1 => Sys2Proof.Machine.execEn1 s
  | .en2 => Sys2Proof.Machine.execEn2 s
  | .dis1 => Sys2Proof.Machine.execDis1 s
  | .dis2 => Sys2Proof.Machine.execDis2 s
  | .trg1 => Sys2Proof.Machine.execTrg1 s
  | .trg2 => Sys2Proof.Machine.execTrg2 s
  | .clr1 => Sys2Proof.Machine.execClr1 s
  | .clr2 => Sys2Proof.Machine.execClr2 s
  | .almpin => Sys2Proof.Machine.execAlmpin s
  | .setout mode => Sys2Proof.Machine.execSetout mode s
  | .getout => Sys2Proof.Machine.execGetout s
  | .sqwpin => Sys2Proof.Machine.execSqwpin s
  | .getage => Sys2Proof.Machine.execGetage s
  | .setage v => Sys2Proof.Machine.execSetage v s
  | .gettemp => Sys2Proof.Machine.execGettemp s

end Sys2Proof.Machine
end

