-- ==== Sys2Proof/Machine/Timekeeper.lean ====
section
/-! DEFINITION. The device's autonomous agent, the timekeeper: TICK, MATCH, TEMP and VOL (60_exceptions.md R178 to
R182), each one atomic step, and the block reset (70_reset_and_hazards.md R191). -/

namespace Sys2Proof.Machine

/-! TICK (R179). -/

/-- `T`, the time registers SEC to YEAR. -/
def timeOf (m : Memory) : TimeBytes :=
  #v[m.read 0, m.read 1, m.read 2, m.read 3, m.read 4, m.read 5, m.read 6]

/-- `KEEP[i]`: the bits of the time registers a TICK never writes, the reserved bits and H12. -/
def tickKeep : Nat → Byte
  | 0 => 0x80
  | 1 => 0x80
  | 2 => 0xC0
  | 3 => 0xF8
  | 4 => 0xC0
  | 5 => 0x60
  | _ => 0x00

/-- The days of a month of year `2000 + yy` (the informative shape of R179). -/
def monthLength (yy month : Nat) : Nat :=
  if month = 2 then (if yy % 4 = 0 then 29 else 28)
  else if month = 4 ∨ month = 6 ∨ month = 9 ∨ month = 11 then 30
  else 31

/-- Whether `T` is a legal time: valid BCD fields in the ranges of R26 to R32. -/
def legalTime (T : TimeBytes) : Bool :=
  isBCD (T[0] &&& 0x7F) && (fieldVal T[0] 0x7F).toNat < 60 &&
  isBCD (T[1] &&& 0x7F) && (fieldVal T[1] 0x7F).toNat < 60 &&
  isBCD (T[2] &&& hmask (hourIs12 T[2])) &&
  (if hourIs12 T[2] then 1 ≤ (decHourVal T[2]).toNat && (decHourVal T[2]).toNat ≤ 12 else (decHourVal T[2]).toNat < 24) &&
  1 ≤ (decDow T[3]).toNat &&
  isBCD (T[4] &&& 0x3F) && 1 ≤ (fieldVal T[4] 0x3F).toNat &&
  isBCD (T[5] &&& 0x1F) && 1 ≤ (fieldVal T[5] 0x1F).toNat && (fieldVal T[5] 0x1F).toNat ≤ 12 &&
  isBCD T[6] &&
  (fieldVal T[4] 0x3F).toNat ≤ monthLength (fromBCD8 T[6]).toNat (fieldVal T[5] 0x1F).toNat

/-- The informative shape of R179, on a legal time: one second on, with BCD carries, PM toggling at 11:59:59, day-of-week
7 to 1, month lengths, leap years, and CENTURY toggling at year 99 to 00. PRESUMED (log entry 15). -/
def ds3231Tick (T : TimeBytes) : TimeBytes :=
  let sec := (fieldVal T[0] 0x7F).toNat
  let min := (fieldVal T[1] 0x7F).toNat
  let hour := (canonHour T[2]).toNat
  let dow := (decDow T[3]).toNat
  let date := (fieldVal T[4] 0x3F).toNat
  let month := (fieldVal T[5] 0x1F).toNat
  let yy := (fromBCD8 T[6]).toNat
  let bcd (n : Nat) : Byte := toBCD8 (BitVec.ofNat 8 n)
  let cMin := sec == 59
  let cHour := cMin && min == 59
  let cDay := cHour && hour == 23
  let cMonth := cDay && date == monthLength yy month
  let cYear := cMonth && month == 12
  let cCent := cYear && yy == 99
  #v[if cMin then 0 else bcd (sec + 1),
     if cMin then (if cHour then 0 else bcd (min + 1)) else T[1],
     if cHour then encCanonHour (BitVec.ofNat 8 (if cDay then 0 else hour + 1)) (hourIs12 T[2]) else T[2],
     if cDay then (if dow == 7 then 1 else BitVec.ofNat 8 (dow + 1)) else T[3],
     if cDay then (if cMonth then 1 else bcd (date + 1)) else T[4],
     (if cMonth then (if cYear then 1 else bcd (month + 1)) else T[5] &&& 0x7F) |||
       (if cCent then ~~~T[5] &&& 0x80 else T[5] &&& 0x80),
     if cYear then (if cCent then 0 else bcd (yy + 1)) else T[6]]

/-- `N`: the draw, or the value of `P_TICK_FN` (R179). The informative shape says nothing of an illegal time: the draw
(I24). -/
def tickTime (p : Params) (T draw : TimeBytes) : TimeBytes :=
  match p.tickFn with
  | .draw => draw
  | .supplied => Config.tickFn T
  | .ds3231 => if legalTime T then ds3231Tick T else draw

/-- `REG[i] <- (T[i] AND KEEP[i]) OR (N[i] AND NOT KEEP[i])` (R179). -/
def tickByte (i : Nat) (t n : Byte) : Byte := (t &&& tickKeep i) ||| (n &&& ~~~(tickKeep i))

/-- The time registers after a TICK (R179). -/
def tickRegs (T N : TimeBytes) (s : State) : State :=
  ((((((s.setReg 0 (tickByte 0 T[0] N[0])).setReg 1 (tickByte 1 T[1] N[1])).setReg 2 (tickByte 2 T[2] N[2])).setReg 3
    (tickByte 3 T[3] N[3])).setReg 4 (tickByte 4 T[4] N[4])).setReg 5 (tickByte 5 T[5] N[5])).setReg 6
    (tickByte 6 T[6] N[6])

/-- STATUS after a comparator step on the registers `reg` (R156): each alarm's flag by `flagAfterCompare`, every other
bit unchanged. -/
def statusAfterCompare (reg : Nat → Byte) (d1 d2 : Bool) : Byte :=
  let f1 := flagAfterCompare (match1 reg) (controlA1IE (reg 0x0E)) (statusA1F (reg 0x0F)) d1
  let f2 := flagAfterCompare (match2 reg) (controlA2IE (reg 0x0E)) (statusA2F (reg 0x0F)) d2
  (reg 0x0F &&& 0xFC) ||| (if f1 then 0x01 else 0) ||| (if f2 then 0x02 else 0)

/-- The comparator's part of a TICK, and the whole of MATCH (R179, R180): both alarms in one step, neither before the
other (R175). -/
def compareStep (d1 d2 : Bool) (s : State) : State := s.setReg 0x0F (statusAfterCompare s.reg d1 d2)

/-- TICK (R179). -/
def tickStep (draw : TimeBytes) (d1 d2 : Bool) (s : State) : State :=
  compareStep d1 d2 (tickRegs (timeOf s.mem) (tickTime s.params (timeOf s.mem) draw) s)

/-- When TICK is enabled (R178). -/
def tickEnabled (s : State) : Bool :=
  oscRunning s.params (s.reg s.params.oscReg.offset) || s.params.tickWhenStopped

/-- TEMP (R181). -/
def tempStep (m l : Byte) (s : State) : State := (s.setReg 0x11 m).setReg 0x12 l

/-- The device-volatile bits of CONTROL: bits 7 and 5 (R41), but the oscillator-enable bit where it is one of them (I10). -/
def controlVolatile (p : Params) : Byte := 0xA0 &&& ~~~(if p.oscReg = .control then oscMask p else 0)

/-- The device-volatile bits of STATUS: bits 6:2 (R41), but the oscillator-enable bit where it is one of them (I10). -/
def statusVolatile (p : Params) : Byte := 0x7C &&& ~~~(if p.oscReg = .status then oscMask p else 0)

/-- The byte `b` with the bits of `m` taken from `n`. -/
def mergeBits (m b n : Byte) : Byte := (b &&& ~~~m) ||| (n &&& m)

/-- VOL (R182). -/
def volStep (c st : Byte) (s : State) : State :=
  (s.setReg 0x0E (mergeBits (controlVolatile s.params) (s.reg 0x0E) c)).setReg 0x0F
    (mergeBits (statusVolatile s.params) (s.reg 0x0F) st)

/-- Block reset of an IDLE block, or of a BUSY one once the transaction in flight has had its effect (R191): CMD, SCR and
FLD take unspecified values, and no device register changes (R192). -/
def resetBlock (d : ResetDraw) (s : State) : State :=
  { s with
    phase := .idle
    cmd := d.cmd
    k := 0
    scr := d.scr
    fld := d.fld
    rsp := { valid := false, code := .ok, fidx := 0, r := 0 }
    burst := 0
    burstLost := false }

end Sys2Proof.Machine
end

