-- ==== Sys2Proof/Machine/Fetch.lean ====
section
/-! DEFINITION. Which agent has the next move, and the parts of a step around the command's own: the block's analogue of
instruction fetch. The block fetches from no memory (20_memory.md R62): a command word comes from the host's issue
(40_sequencer.md R88), and a BUSY command from CMD (10_state.md R17). -/

namespace Sys2Proof.Machine

/-- The next move of a run. -/
inductive Move where
  /-- The host issues `w` in `s` (R88). -/
  | issue (w : CmdWord) (s : State)
  /-- The sequencer steps the command `i` in `s` (R91). -/
  | sequence (i : Instr) (s : State)
  /-- The timekeeper's step, or the reset of an IDLE block, leaves `s`. -/
  | done (s : State)
  /-- The block is reset while `i` is BUSY in `s`, with the transaction in flight still to have its effect (R191). -/
  | abandon (i : Instr) (d : ResetDraw) (s : State)
  | fault (f : Fault)
  | refuse (r : Refusal)

/-- The sequencer's move while BUSY: a step of the command in CMD (R17, R91). -/
def busyMove (s : State) : Move :=
  match decode s.cmd with
  | .ok i => .sequence i s
  | .error _ => .fault .commandLost

/-- A block reset (R191): the command in CMD, if one is BUSY, is abandoned with its transaction in flight. -/
def resetMove (d : ResetDraw) (s : State) : Move :=
  match s.phase, decode s.cmd with
  | .busy, .ok i => .abandon i d s
  | _, _ => .done (resetBlock d s)

/-- An input's step where it is enabled (R178), or its refusal. -/
def ifEnabled (b : Bool) (s : State) : Move := if b then .done s else .refuse .inputNotEnabled

/-- The state once the next input is taken. -/
def State.popInput (s : State) : State := { s with inputs := s.inputs.tail }

/-- The next move (R14, R55, R178). A host command waits in the list while the block is BUSY (R88, R197), and a BUSY
block goes on when no input is listed. -/
def nextMove (s : State) : Move :=
  match s.inputs, s.phase with
  | .tick n d1 d2 :: _, _ => ifEnabled (tickEnabled s) (tickStep n d1 d2 s.popInput)
  | .matchStep d1 d2 :: _, _ => ifEnabled s.params.matchAnytime (compareStep d1 d2 s.popInput)
  | .temp m l :: _, _ => .done (tempStep m l s.popInput)
  | .vol c st :: _, _ => .done (volStep c st s.popInput)
  | .reset d :: _, _ => resetMove d s.popInput
  | .host w :: _, .idle => .issue w s.popInput
  | .host _ :: _, .busy => busyMove s
  | .bus _ :: _, .idle => .refuse .inputNotEnabled
  | .bus _ :: _, .busy => busyMove s
  | [], .idle => .refuse .awaitingIssue
  | [], .busy => busyMove s

/-- The state whose next transaction fails with the bytes `landed` applied: what a reset in flight leaves of a write
(R191, R49), and nothing of a read. -/
def inFlight (d : ResetDraw) (s : State) : State := { s with inputs := .bus (.fail d.landed) :: s.inputs }

/-- The reset once the transaction in flight has had its effect; `l` is what is left of the inputs. -/
def abandonWith (d : ResetDraw) (l : List Input) : Host.Outcome State Fault Refusal → Host.Outcome State Fault Refusal
  | .next s => .next { resetBlock d s with inputs := l }
  | .fault f => .fault f
  | .refused r => .refused r

/-- A state whose next move is the host's issue of the table word `w`: the block IDLE, the word first in the inputs. -/
def placeCommand (s : State) (nbits w : Nat) : State :=
  { s with phase := .idle, inputs := .host (tableWord nbits w) :: s.inputs }

end Sys2Proof.Machine
end

