-- ==== Sys2Proof/Machine/Step.lean ====
section
/-! DEFINITION. One step of a run: an issue, one transaction, one step of the timekeeper, or a reset. -/

namespace Sys2Proof.Machine

/-- One step (40_sequencer.md R87 to R93, 60_exceptions.md R178). -/
def step (s : State) : Host.Outcome State Fault Refusal :=
  match nextMove s with
  | .issue w t =>
    match decode w with
    | .ok i => exec i (latchCommand w t)
    | .error _ => .next (issueReserved (latchCommand w t))
  | .sequence i t => exec i t
  | .done t => .next t
  | .abandon i d t => abandonWith d t.inputs (exec i (inFlight d t))
  | .fault f => .fault f
  | .refuse r => .refused r

/-- `s` with the command whose bits are `w` presented on the command port, so that the next step issues it (log entry 5). -/
def State.withFetchWord (s : State) (nbits w : Nat) : State := placeCommand s nbits w

end Sys2Proof.Machine
end

