-- ==== Sys2Proof/Safety.lean ====
section
/-! DEFINITION. The terms claims are stated in: runs of one command, the premise that no transaction fails, the shape a
finished command leaves, and the invariant of every step. -/

namespace Sys2Proof.Machine

/-- The transport lets the next `n` transactions succeed: the named premise "no bus failure" of R50. -/
def drawsOk (rest : BusDraw) : Nat → List Input → Prop
  | 0, _ => True
  | n + 1, l => headDraw rest l = .ok ∧ drawsOk rest n (popBus l)

/-- No bus failure in the next `n` transactions of `s`. -/
def State.DrawsOk (s : State) (n : Nat) : Prop := drawsOk s.busRest n s.inputs

/-- The inputs once the draws of `n` transactions are taken. -/
def popBuses : Nat → List Input → List Input
  | 0, l => l
  | n + 1, l => popBuses n (popBus l)

/-- `exec i` answers a next state `n` times in a row, the last of them `t`: the command `i` stepped `n` times with no
step of another agent between. -/
def RunsTo (i : Instr) : Nat → State → State → Prop
  | 0, s, t => s = t
  | n + 1, s, t => ∃ s', exec i s = .next s' ∧ RunsTo i n s' t

/-- The block is BUSY and about to start transaction `n` of its command. -/
def State.At (s : State) (n : Nat) : Prop :=
  s.phase = .busy ∧ s.k.toNat = n ∧ s.burst = 0 ∧ s.burstLost = false

/-- How many transactions a command makes when none fails, the Tx column of R79 (SETMER: at most). -/
def txCount : Instr → Nat
  | .nop => 0
  | .setsec _ | .setmin _ | .sethour _ | .setweek _ | .setday _ | .setmonth _ | .setyear _ => 2
  | .getsec | .getmin | .gethour | .getweek | .getday | .getmonth | .getyear => 1
  | .setdate _ _ _ | .settime _ _ _ => 6
  | .sethmode _ => 2
  | .gethmode => 1
  | .setmer _ => 2
  | .getmer => 1
  | .setepoch _ => 14
  | .getepoch => 6
  | .start | .stop => 2
  | .isrun => 1
  | .getdt => 1
  | .setdt _ => 2
  | .seta1s _ | .seta1ms _ _ | .seta1hms _ _ _ | .seta1dhms _ _ _ _ | .seta2m _ | .seta2hm _ _ | .seta2dhm _ _ _ => 2
  | .geta1 | .geta2 => 1
  | .en1 | .en2 | .dis1 | .dis2 => 2
  | .trg1 | .trg2 => 1
  | .clr1 | .clr2 | .almpin => 2
  | .setout _ => 2
  | .getout => 1
  | .sqwpin => 2
  | .getage | .setage _ | .gettemp => 1

/-- Whether a command is legal at issue (R88): SETOUT's mode, and the batch commands only with `P_HAS_BATCH` (R80). -/
def issueLegal (p : Params) (i : Instr) : Bool :=
  i.wellFormed && (p.hasBatch || (match i with | .getdt => false | .setdt _ => false | _ => true))

/-- Whether the pseudocode of `i` has a transaction at step index K in `s` (R91): SETMER's write only in 12-hour mode. -/
def hasTransaction (i : Instr) (s : State) : Bool :=
  match i with
  | .setmer _ => s.k.toNat < (if hourIs12 (s.slot 0) then 2 else 1)
  | i => s.k.toNat < txCount i

/-- The registers a command's rule writes, with the oscillator's register at `osc`. -/
def mayWrite (osc : Nat) : Instr → Nat → Prop
  | .setsec _, a => a = 0x00
  | .setmin _, a => a = 0x01
  | .sethour _, a | .sethmode _, a | .setmer _, a => a = 0x02
  | .setweek _, a => a = 0x03
  | .setday _, a => a = 0x04
  | .setmonth _, a => a = 0x05
  | .setyear _, a => a = 0x06
  | .setdate _ _ _, a => 0x04 ≤ a ∧ a ≤ 0x06
  | .settime _ _ _, a => a ≤ 0x02
  | .setepoch _, a | .setdt _, a => a ≤ 0x06
  | .start, a | .stop, a => a = osc
  | .seta1s _, a => 0x07 ≤ a ∧ a ≤ 0x0A
  | .seta1ms _ _, a => 0x07 ≤ a ∧ a ≤ 0x0A
  | .seta1hms _ _ _, a => 0x07 ≤ a ∧ a ≤ 0x0A
  | .seta1dhms _ _ _ _, a => 0x07 ≤ a ∧ a ≤ 0x0A
  | .seta2m _, a => 0x0B ≤ a ∧ a ≤ 0x0D
  | .seta2hm _ _, a => 0x0B ≤ a ∧ a ≤ 0x0D
  | .seta2dhm _ _ _, a => 0x0B ≤ a ∧ a ≤ 0x0D
  | .en1, a | .en2, a | .dis1, a | .dis2, a | .almpin, a | .sqwpin, a | .setout _, a => a = 0x0E
  | .clr1, a | .clr2, a => a = 0x0F
  | .setage _, a => a = 0x10
  | .nop, _ | .getsec, _ | .getmin, _ | .gethour, _ | .getweek, _ | .getday, _ | .getmonth, _ | .getyear, _
  | .gethmode, _ | .getmer, _ | .getepoch, _ | .isrun, _ | .getdt, _ | .geta1, _ | .geta2, _ | .trg1, _ | .trg2, _
  | .getout, _ | .getage, _ | .gettemp, _ => False

/-- R21: `fidx` is 0 unless the code is BUS_FAIL, and R is 0 unless the code is OK. -/
def RspOk (r : Response) : Prop := (r.code ≠ .busFail → r.fidx = 0) ∧ (r.code ≠ .ok → r.r = 0)

/-- While IDLE no transaction is in flight (R60). -/
def IdleOk (s : State) : Prop := s.phase = .idle → s.burst = 0 ∧ s.burstLost = false

/-- While BUSY, CMD holds a legal command, K is the index of one of its transactions, and RSP is not valid (R17, R18,
R88). -/
def BusyOk (s : State) : Prop :=
  s.phase = .busy →
    s.rsp.valid = false ∧ s.burst < 8 ∧
    match decode s.cmd with
    | .ok i => issueLegal s.params i = true ∧ s.k.toNat < txCount i
    | .error _ => False

/-- The invariant every step keeps: the register file's canonical form and extent, and the three conditions above. -/
def Inv (s : State) : Prop := s.mem.wf ∧ s.mem.inMap ∧ RspOk s.rsp ∧ IdleOk s ∧ BusyOk s

/-- The interrupt line of a state (R45). -/
def State.intLine (s : State) : Bool := intAsserted (s.reg 0x0E) (s.reg 0x0F)

/-- `P_LAUNCH_DS3231` (R193), a launch premise no rule and no claim rests on: CONTROL = 0x1C, AGING = 0x00, and the time
00:00:00, 01/01/00. -/
def LaunchDs3231 (s : State) : Prop :=
  s.reg 0x0E = 0x1C ∧ s.reg 0x10 = 0x00 ∧ s.reg 0x00 = 0 ∧ s.reg 0x01 = 0 ∧ s.reg 0x02 = 0 ∧ s.reg 0x04 = 0x01 ∧
    s.reg 0x05 = 0x01 ∧ s.reg 0x06 = 0

end Sys2Proof.Machine
end

