-- ==== Sys2Proof/Certificates/Slice0/Obligations.lean ====
section
/-! DEFINITION. The statements for the provers. The shapes they share come first: what one transaction of a command does,
for every state that is at it, whatever the timekeeper did before. -/

namespace Sys2Proof.Claims

open Sys2Proof.Machine

/-- A word with opcode `op` decodes to `f D` (R64, R80). -/
def Encoded (op : Byte) (f : DWord → Instr) : Prop :=
  ∀ w : CmdWord, w.extractLsb' 64 8 = op → decode w = .ok (f (w.extractLsb' 0 64))

/-- The state after issue, but for what the command latches (R88). -/
def opened (s : State) : State :=
  { s with phase := .busy, k := 0, rsp := { s.rsp with valid := false }, burst := 0, burstLost := false }

/-- No premise. -/
def always : State → Prop := fun _ => True

/-- Where `P` holds, issue of `i` opens it and does nothing else (R88). -/
def Opens (P : State → Prop) (i : Instr) : Prop := ∀ s : State, P s → s.phase = .idle → exec i s = .next (opened s)

/-- `finish` with a code (R92, R93, R89, R90). -/
def ended (code : StatusCode) (fidx : BitVec 4) (r : DWord) (s : State) : State :=
  { s with phase := .idle, rsp := { valid := true, code := code, fidx := fidx, r := r }, burst := 0, burstLost := false }

/-- The state once the transport's draw is taken. -/
def drawn (s : State) : State := { s with inputs := popBus s.inputs }

/-- What follows a transaction that succeeded: K advances (R91), and with a result the command finishes OK (R92). -/
def after (result : Option DWord) (s : State) : State :=
  match result with
  | none => { s with k := s.k + 1 }
  | some r => ended .ok 0 r { s with k := s.k + 1 }

/-- A transaction of `n` bytes is one step: `n` is 1, or `P_BURST_ATOMIC` holds (R55). -/
def OneStep (n : Nat) (s : State) : Prop := n = 1 ∨ s.params.burstAtomic = true

/-- Where `P` holds, transaction `k` of `i` reads `n` registers from `o` on into SCR from `slot` on (R48). It changes nothing else; then
`result`, of the bytes SCR now holds, ends the command. A failure delivers nothing and ends it with BUS_FAIL (R93). -/
def Reads (P : State → Prop) (i : Instr) (k o n slot : Nat) (result : State → Option DWord) : Prop :=
  ∀ s : State, P s → s.At k → OneStep n s →
    (s.nextDraw = .ok →
      exec i s = .next
        (let t := { drawn s with scr := fillSlots s.scr slot (readBytes s.mem o n) }
         after (result t) t)) ∧
    (∀ l, s.nextDraw = .fail l → exec i s = .next (ended .busFail s.k 0 (drawn s)))

/-- Where `P` holds, transaction `k` of `i` writes `bytes` from register `o` on (R49). It changes nothing else; then `result` ends the
command. A failure applies the bytes the draw says and ends it with BUS_FAIL (R93). -/
def Writes (P : State → Prop) (i : Instr) (k o : Nat) (bytes : State → List Byte)
    (result : State → Option DWord) : Prop :=
  ∀ s : State, P s → s.At k → OneStep (bytes s).length s →
    (s.nextDraw = .ok →
      exec i s = .next
        (let t := { drawn s with mem := devWriteBytes s.params s.mem o (bytes s) }
         after (result t) t)) ∧
    (∀ l, s.nextDraw = .fail l →
      exec i s = .next
        (ended .busFail s.k 0 { drawn s with mem := devWriteLanded s.params s.mem o (bytes s) l }))

/-- No transaction follows, and R is `f` of the scratch bytes. -/
def last (f : State → DWord) : State → Option DWord := fun s => some (f s)

/-- Another transaction follows. -/
def more : State → Option DWord := fun _ => none

/-- `zext_64(p)` for the byte in SCR[0]. -/
def old0 (s : State) : DWord := (s.slot 0).setWidth 64

/-- `(p AND NOT mask) OR (val AND mask)`, with flag-protect at offset 0x0F (R52, R53), `p` in SCR[slot]. -/
def mergedAt (o : Nat) (mask val : Byte) (slot : Nat) (s : State) : List Byte :=
  let w := (s.slot slot &&& ~~~mask) ||| (val &&& mask)
  [if o = 0x0F ∧ s.params.flagProtect = true then w ||| (0x03 &&& ~~~mask) else w]

/-- Where `P` holds, `p <- RMW(o, mask, val)` is the whole of `i`, and R is `p` (R52). -/
def RunsRmw (P : State → Prop) (i : Instr) (o : Nat) (mask val : Byte) : Prop :=
  Opens P i ∧ Reads P i 0 o 1 0 more ∧ Writes P i 1 o (mergedAt o mask val 0) (last old0)

/-- Where `P` holds, `i` reads register `o` once, and R is `f` of the byte. -/
def RunsGet (P : State → Prop) (i : Instr) (o : Nat) (f : Byte → DWord) : Prop :=
  Opens P i ∧ Reads P i 0 o 1 0 (last fun s => f (s.slot 0))

/-- Where `P` holds, `i` is RMWN of `n` registers from `base` on with the merge function `f` of the bytes read, and R is
those old bytes, B0 first (R54, R78). -/
def RunsRmwn (P : State → Prop) (i : Instr) (base n : Nat) (f : (Nat → Byte) → List Byte) (r : State → DWord) : Prop :=
  Opens P i ∧ Reads P i 0 base n 0 more ∧ Writes P i 1 base (fun s => f s.slot) (last r)

/-- The mode-relative hour byte: `(p AND NOT hmask) OR (toBCD8(v) AND hmask)`, hmask by bit 6 of `p` (R103). -/
def hourOver (p v : Byte) : Byte :=
  if p.getLsbD 6 then (p &&& ~~~0x1F) ||| (toBCD8 v &&& 0x1F) else (p &&& ~~~0x3F) ||| (toBCD8 v &&& 0x3F)

/-- Old bytes packed, B0 = SCR[0] (R78). -/
def oldBytes3 (s : State) : DWord := 0#40 ++ s.slot 2 ++ s.slot 1 ++ s.slot 0
def oldBytes4 (s : State) : DWord := 0#32 ++ s.slot 3 ++ s.slot 2 ++ s.slot 1 ++ s.slot 0
def oldBytes7 (s : State) : DWord :=
  0#8 ++ s.slot 6 ++ s.slot 5 ++ s.slot 4 ++ s.slot 3 ++ s.slot 2 ++ s.slot 1 ++ s.slot 0

/-- The `{h12, pm, val[5:0]}` byte of the results (R138, R153), from R102. -/
def hourResult (b : Byte) : Byte :=
  if b.getLsbD 6 then 1#1 ++ b.extractLsb' 5 1 ++ (fieldVal b 0x1F).setWidth 6
  else 0#2 ++ (fieldVal b 0x3F).setWidth 6

/-- The `{0, dydt, dv[5:0]}` byte of the results (R153), from R109. -/
def dayResult (b : Byte) : Byte :=
  if b.getLsbD 6 then 1#2 ++ (b &&& 0x0F).setWidth 6 else 0#2 ++ (fieldVal b 0x3F).setWidth 6

/-- GETDT's R, format F64 (R138), of the seven bytes in SCR. -/
def getdtResult (s : State) : DWord :=
  (s.params.yearBase + (fromBCD8 (s.slot 6)).setWidth 16) ++ fieldVal (s.slot 5) 0x1F ++ fieldVal (s.slot 4) 0x3F ++
    (s.slot 3 &&& 0x07) ++ hourResult (s.slot 2) ++ fieldVal (s.slot 1) 0x7F ++ fieldVal (s.slot 0) 0x7F

/-- SETDT's `f(P)` (R139). -/
def setdtBytes (d : FullTime) (P : Nat → Byte) : List Byte :=
  let hour := toBCD8 (d.hour.setWidth 8)
  [(P 0 &&& 0x80) ||| (toBCD8 d.second &&& 0x7F), (P 1 &&& 0x80) ||| (toBCD8 d.minute &&& 0x7F),
   (P 2 &&& 0x80) |||
    (if d.h12 then 0x40 ||| (if d.pm then 0x20 else 0x00) ||| (hour &&& 0x1F) else hour &&& 0x3F),
   (P 3 &&& 0xF8) ||| (toBCD8 d.dow &&& 0x07), (P 4 &&& 0xC0) ||| (toBCD8 d.date &&& 0x3F),
   (P 5 &&& 0xE0) ||| (toBCD8 d.month &&& 0x1F), toBCD8 (BitVec.ofNat 8 (d.year.toNat % 100))]

/-- GETA1's R (R153), of the four bytes in SCR. -/
def geta1Result (s : State) : DWord :=
  let m (i : Nat) : BitVec 1 := (s.slot i).extractLsb' 7 1
  let kind : Byte :=
    if m 0 = 1 ∧ m 1 = 1 ∧ m 2 = 1 ∧ m 3 = 1 then 0
    else if m 0 = 0 ∧ m 1 = 1 ∧ m 2 = 1 ∧ m 3 = 1 then 1
    else if m 0 = 0 ∧ m 1 = 0 ∧ m 2 = 1 ∧ m 3 = 1 then 2
    else if m 0 = 0 ∧ m 1 = 0 ∧ m 2 = 0 ∧ m 3 = 1 then 3
    else if m 0 = 0 ∧ m 1 = 0 ∧ m 2 = 0 ∧ m 3 = 0 then 4 else 0xFF
  0#16 ++ kind ++ (0#4 ++ m 3 ++ m 2 ++ m 1 ++ m 0) ++ dayResult (s.slot 3) ++ hourResult (s.slot 2) ++
    fieldVal (s.slot 1) 0x7F ++ fieldVal (s.slot 0) 0x7F

/-- GETA2's R (R154), of the three bytes in SCR. -/
def geta2Result (s : State) : DWord :=
  let m (i : Nat) : BitVec 1 := (s.slot i).extractLsb' 7 1
  let kind : Byte :=
    if m 0 = 1 ∧ m 1 = 1 ∧ m 2 = 1 then 0
    else if m 0 = 0 ∧ m 1 = 1 ∧ m 2 = 1 then 1
    else if m 0 = 0 ∧ m 1 = 0 ∧ m 2 = 1 then 2
    else if m 0 = 0 ∧ m 1 = 0 ∧ m 2 = 0 then 3 else 0xFF
  0#16 ++ kind ++ (0#4 ++ m 2 ++ m 1 ++ m 0 ++ 0#1) ++ dayResult (s.slot 2) ++ hourResult (s.slot 1) ++
    fieldVal (s.slot 0) 0x7F ++ 0#8

/-- GETTEMP's R (R172), of the two bytes in SCR. -/
def gettempResult (s : State) : DWord := 4 * (s.slot 0).signExtend 64 + ((s.slot 1).extractLsb' 6 2).setWidth 64

/-- One field of the mask generator (R144): supplied, or kept with its mask bit set. -/
def maskField (supplied : Option Byte) (m old : Byte) : Byte :=
  match supplied with
  | some v => toBCD8 v &&& m
  | none => old ||| 0x80

/-- The mask generator for alarm 1 and for alarm 2 (R144). -/
def alarm1Over (sec min hour day : Option Byte) (P : Nat → Byte) : List Byte :=
  [maskField sec 0x7F (P 0), maskField min 0x7F (P 1), maskField hour 0x3F (P 2), maskField day 0x3F (P 3)]
def alarm2Over (min hour day : Option Byte) (P : Nat → Byte) : List Byte :=
  [maskField min 0x7F (P 0), maskField hour 0x3F (P 1), maskField day 0x3F (P 2)]

/-! A transaction moved byte by byte (R55, `P_BURST_ATOMIC` false): the form log entry 9 chooses. -/

/-- The block moves byte `s.burst` of a transaction of `n` bytes. -/
def AtByte (k n : Nat) (s : State) : Prop :=
  s.params.burstAtomic = false ∧ s.phase = .busy ∧ s.k.toNat = k ∧ s.burst < n

/-- What follows byte `moved.burst` of `n`: the next byte, or, after the last one, BUS_FAIL if a byte was lost, and the
end of a transaction that succeeded if none was. -/
def afterByte (n : Nat) (result : State → Option DWord) (lost : Bool) (moved : State) : State :=
  if moved.burst + 1 < n then { moved with burst := moved.burst + 1, burstLost := lost }
  else if lost then ended .busFail moved.k 0 moved
  else
    let t := { moved with burst := 0, burstLost := false }
    after (result t) t

/-- `Reads`, byte by byte: a byte delivered goes to its slot, a byte lost leaves SCR as it was. -/
def ReadsByBytes (P : State → Prop) (i : Instr) (k o n slot : Nat) (result : State → Option DWord) : Prop :=
  ∀ s : State, P s → AtByte k n s →
    (s.nextDraw = .ok →
      exec i s = .next
        (afterByte n result s.burstLost
          { drawn s with scr := fillSlots s.scr (slot + s.burst) [s.reg (o + s.burst)] })) ∧
    (∀ l, s.nextDraw = .fail l → exec i s = .next (afterByte n result true (drawn s)))

/-- `Writes`, byte by byte: a byte is stored by the device write rule, and a byte lost is stored or not, as its draw says. -/
def WritesByBytes (P : State → Prop) (i : Instr) (k o n : Nat) (f : (Nat → Byte) → List Byte)
    (result : State → Option DWord) : Prop :=
  ∀ (s : State) (b : Byte), P s → AtByte k n s → (f s.slot)[s.burst]? = some b →
    let stored := { drawn s with mem := devWriteBytes s.params s.mem (o + s.burst) [b] }
    (s.nextDraw = .ok → exec i s = .next (afterByte n result s.burstLost stored)) ∧
    (∀ l, s.nextDraw = .fail l →
      exec i s = .next (afterByte n result true (if l.head? = some true then stored else drawn s)))

/-- `RunsRmwn`, byte by byte. -/
def RunsRmwnByBytes (P : State → Prop) (i : Instr) (base n : Nat) (f : (Nat → Byte) → List Byte)
    (r : State → DWord) : Prop :=
  ReadsByBytes P i 0 base n 0 more ∧ WritesByBytes P i 1 base n f (last r)

/-- The bits of D a command's format names (R66 to R76, R81). -/
def namedBits : Instr → DWord
  | .setsec _ | .setmin _ | .sethour _ | .setweek _ | .setday _ | .setmonth _ | .seta1s _ | .setout _ | .setage _ =>
    0x00000000000000FF
  | .setyear _ | .seta1ms _ _ => 0x000000000000FFFF
  | .setdate _ _ _ | .setepoch _ | .seta1dhms _ _ _ _ => 0x00000000FFFFFFFF
  | .settime _ _ _ | .seta1hms _ _ _ => 0x0000000000FFFFFF
  | .sethmode _ | .setmer _ => 0x0000000000000001
  | .setdt _ => 0xFFFFFFFFFFFFFFFF
  | .seta2m _ => 0x000000000000FF00
  | .seta2hm _ _ => 0x0000000000FFFF00
  | .seta2dhm _ _ _ => 0x00000000FFFFFF00
  | .nop | .getsec | .getmin | .gethour | .getweek | .getday | .getmonth | .getyear | .gethmode | .getmer
  | .getepoch | .start | .stop | .isrun | .getdt | .geta1 | .geta2 | .en1 | .en2 | .dis1 | .dis2 | .trg1 | .trg2
  | .clr1 | .clr2 | .almpin | .getout | .sqwpin | .getage | .gettemp => 0

/-- The opcodes R83 lists as reserved. -/
def reservedOpcode (op : Byte) : Prop :=
  op = 0x08 ∨ (0x1D ≤ op ∧ op ≤ 0x1F) ∨ op = 0x27 ∨ (0x33 ≤ op ∧ op ≤ 0x37) ∨ 0x3E ≤ op

/-- The default flag configuration: W0C flags, flag-protect, and the oscillator bit not on a flag (R40, R53, R39). -/
def FlagSafe (p : Params) : Prop := p.flagWsem = .w0c ∧ p.flagProtect = true ∧ 2 ≤ p.oscBit.val

/-- Alarm 1's flag after a comparator step that left the registers as in `t`, from STATUS of `s` (R156). -/
def Flag1Rule (s t : State) (d : Bool) : Prop :=
  (t.reg 0x0F).getLsbD 0 =
    if match1 t.reg then ((t.reg 0x0E).getLsbD 0 || (s.reg 0x0F).getLsbD 0 || d) else (s.reg 0x0F).getLsbD 0

/-- Alarm 2's flag, likewise (R156). -/
def Flag2Rule (s t : State) (d : Bool) : Prop :=
  (t.reg 0x0F).getLsbD 1 =
    if match2 t.reg then ((t.reg 0x0E).getLsbD 1 || (s.reg 0x0F).getLsbD 1 || d) else (s.reg 0x0F).getLsbD 1

/-- Bits 7:2 of STATUS are as before. -/
def StatusRestKept (s t : State) : Prop := t.reg 0x0F &&& 0xFC = s.reg 0x0F &&& 0xFC

/-- Everything but the registers and the inputs is as before. -/
def BlockKept (s t : State) : Prop :=
  t.phase = s.phase ∧ t.cmd = s.cmd ∧ t.k = s.k ∧ t.scr = s.scr ∧ t.fld = s.fld ∧ t.rsp = s.rsp ∧ t.burst = s.burst ∧
    t.burstLost = s.burstLost ∧ t.params = s.params ∧ t.busRest = s.busRest

/-- From an IDLE state whose transactions succeed, `i` steps to `t` in `n` steps, finishing OK with R = `r`. -/
def Finishes (i : Instr) (n : Nat) (s t : State) (r : DWord) : Prop :=
  RunsTo i n s t ∧ t.phase = .idle ∧ t.rsp = { valid := true, code := .ok, fidx := 0, r := r }

end Sys2Proof.Claims

open Sys2Proof Sys2Proof.Machine Sys2Proof.Claims

/-! Encoding. -/

/-- The spec's own words for seven commands (95_test_vectors.md), the first two opcodes of R83, and a word with reserved
operand bits set (Q7). -/
def Obligations.SpecWordsDecode : Prop :=
  decode 0x10000000001D0207E8 = .ok (.setdate 29 2 2024) ∧
  decode 0x1C07E8021D04C30F00 = .ok (.setdt ⟨2024, 2, 29, 4, true, true, 3, 15, 0⟩) ∧
  decode 0x23000000001D050F1E = .ok (.seta1dhms 29 5 15 30) ∧
  decode 0x250000000000070000 = .ok (.seta2hm 7 0) ∧
  decode 0x3C00000000000000FD = .ok (.setage 0xFD) ∧
  decode 0x120000000000000001 = .ok (.sethmode true) ∧
  decode 0x01FFFFFFFFFFFFFF1E = .ok (.setsec 30) ∧
  decode 0x080000000000000000 = .error (.reservedOpcode 0x08) ∧
  decode 0x1D0000000000000000 = .error (.reservedOpcode 0x1D)

/-- Decoding the encoding of any instruction gives it back, with every operand at every value. -/
def Obligations.DecodeOfEncode : Prop := ∀ i : Instr, decode (encode i) = .ok i

/-- A word that decodes has the instruction's opcode, and its operand field agrees with the encoder's on the bits the
format names: the other bits are ignored (R81). -/
def Obligations.DecodeReadsNamedBitsOnly : Prop :=
  ∀ (w : CmdWord) (i : Instr), decode w = .ok i →
    opcodeOf w = opcode i ∧ operandOf w &&& namedBits i = operand i ∧
    ∀ w' : CmdWord, opcodeOf w' = opcodeOf w → operandOf w' &&& namedBits i = operandOf w &&& namedBits i →
      decode w' = .ok i

/-- A word is rejected exactly when its opcode is one R83 lists as reserved, and the rejection names the opcode. That 0x1B
and 0x1C decode whatever `P_HAS_BATCH` is, and are refused at issue without it, is the model's choice (log entry 13). -/
def Obligations.ReservedOpcodesAreTheOnesListed : Prop :=
  ∀ w : CmdWord, (reservedOpcode (w.extractLsb' 64 8) → decode w = .error (.reservedOpcode (w.extractLsb' 64 8))) ∧
    (¬ reservedOpcode (w.extractLsb' 64 8) → ∃ i, decode w = .ok i)

/-! The sequencer. -/

/-- A step issues the decoded command of the next input while IDLE, latching CMD, and steps the command in CMD while BUSY
when the next input is no other agent's step. The model's choices here: the list of inputs, and that an empty one lets a
BUSY block go on (log entry 3); that a host word next waits while the block is BUSY (log entry 7); and what `withFetchWord`
places (log entry 5). -/
def Obligations.StepRunsTheDecodedCommand : Prop :=
  (∀ (s : State) (w : CmdWord) (rest : List Input) (i : Instr), s.phase = .idle → s.inputs = .host w :: rest →
    decode w = .ok i → step s = exec i { s with cmd := w, inputs := rest }) ∧
  (∀ (s : State) (i : Instr), s.phase = .busy → decode s.cmd = .ok i →
    (s.inputs = [] ∨ (∃ w rest, s.inputs = .host w :: rest) ∨ ∃ d rest, s.inputs = .bus d :: rest) →
    step s = exec i s) ∧
  (∀ (s : State) (nbits w : Nat) (i : Instr), decodeTableWord nbits w = some i →
    step (s.withFetchWord nbits w) = exec i { s with phase := .idle, cmd := tableWord nbits w })

/-- Issue of any legal command that has a transaction makes the block BUSY at K = 0 with RSP not valid, latches FLD for
SETEPOCH, and does nothing else; NOP finishes at once (R88, R92). -/
def Obligations.IssueOpensEveryLegalCommand : Prop :=
  ∀ (i : Instr) (s : State), s.phase = .idle → issueLegal s.params i = true →
    exec i s = .next
      (match i with
       | .nop => ended .ok 0 0 (opened s)
       | .setepoch e => { opened s with fld := Config.calSplit e }
       | _ => opened s)

/-- NOP: no transaction, RSP = (1, OK, 0, 0). -/
def Obligations.NopFinishesAtIssue : Prop :=
  Encoded 0x00 (fun _ => .nop) ∧
  ∀ s : State, s.phase = .idle →
    exec .nop s = .next
      { s with phase := .idle, k := 0, rsp := { valid := true, code := .ok, fidx := 0, r := 0 }, burst := 0,
               burstLost := false }

/-- A reserved opcode, the two batch opcodes among them without `P_HAS_BATCH`, ends at issue with ILLEGAL_OPCODE, fidx = 0
and R = 0, whatever the operand field holds: no transaction, no register changed. -/
def Obligations.ReservedOpcodeEndsAtIssue : Prop :=
  ∀ (s : State) (w : CmdWord) (rest : List Input), s.phase = .idle → s.inputs = .host w :: rest →
    reservedOpcode (w.extractLsb' 64 8) ∨
      (s.params.hasBatch = false ∧ (w.extractLsb' 64 8 = 0x1B ∨ w.extractLsb' 64 8 = 0x1C)) →
    step s = .next (ended .illegalOpcode 0 0 (opened { s with cmd := w, inputs := rest }))

/-- SETOUT with mode 5 or more ends at issue with ILLEGAL_OPERAND, fidx = 0 and R = 0 (R90). Without `P_HAS_BATCH` the batch
commands end with ILLEGAL_OPCODE (R80, R89); that they decode and are refused in exec is the model's choice (log entry 13).
A step whose RSP is a finish with ILLEGAL_OPERAND is one of such a SETOUT, from every state whose RSP is not valid while
BUSY, as the invariant says. -/
def Obligations.IllegalCommandsEndAtIssue : Prop :=
  (∀ (mode : Byte) (s : State), 5 ≤ mode.toNat → s.phase = .idle →
    exec (.setout mode) s = .next (ended .illegalOperand 0 0 (opened s))) ∧
  (∀ s : State, s.params.hasBatch = false → s.phase = .idle →
    exec .getdt s = .next (ended .illegalOpcode 0 0 (opened s))) ∧
  (∀ (d : FullTime) (s : State), s.params.hasBatch = false → s.phase = .idle →
    exec (.setdt d) s = .next (ended .illegalOpcode 0 0 (opened s))) ∧
  (∀ (i : Instr) (s t : State), (s.phase = .busy → s.rsp.valid = false) → exec i s = .next t →
    t.rsp.valid = true → t.rsp.code = .illegalOperand → ∃ mode : Byte, 5 ≤ mode.toNat ∧ i = .setout mode)

/-- Every legal command can be issued while IDLE, and from the state its issue leaves it finishes OK, with no bus failure,
after at most the number of transactions R79 gives it. -/
def Obligations.EveryLegalCommandFinishes : Prop :=
  ∀ (i : Instr) (s : State), s.phase = .idle → issueLegal s.params i = true → s.params.burstAtomic = true →
    s.DrawsOk (txCount i) →
    ∃ (u t : State) (n : Nat), exec i s = .next u ∧ n ≤ txCount i ∧ RunsTo i n u t ∧
      (i ≠ .nop → u.phase = .busy ∧ u.k = 0 ∧ 1 ≤ n) ∧
      t.phase = .idle ∧ t.rsp.valid = true ∧ t.rsp.code = .ok ∧ t.rsp.fidx = 0

/-- The first failed transaction ends any command: RSP records BUS_FAIL and its index with R = 0, the block is IDLE, and
each register holds its old byte or the one the transaction would have left. -/
def Obligations.FailedTransactionEndsTheCommand : Prop :=
  ∀ (i : Instr) (s : State) (l : List Bool), s.phase = .busy → issueLegal s.params i = true →
    hasTransaction i s = true → s.params.burstAtomic = true → s.nextDraw = .fail l →
    ∃ t u : State, exec i s = .next t ∧ exec i { s with inputs := .bus .ok :: s.inputs } = .next u ∧
      t.phase = .idle ∧ t.rsp = { valid := true, code := .busFail, fidx := s.k, r := 0 } ∧
      t.k = s.k ∧ t.cmd = s.cmd ∧ t.scr = s.scr ∧ t.fld = s.fld ∧ t.params = s.params ∧
      ∀ a, t.reg a = s.reg a ∨ t.reg a = u.reg a

/-- A burst write by the device write rule: each byte at its offset, STATUS's flags by `P_FLAG_WSEM`, the temperature
registers unchanged; a failed one applies exactly the bytes drawn. Registers outside the burst keep their bytes. -/
def Obligations.DeviceWriteRule : Prop :=
  ∀ (p : Params) (m : Memory) (o : Nat) (bs : List Byte) (x : Nat), o + bs.length ≤ 0x13 →
    let written (b : Byte) : Byte :=
      if x = 0x0F then
        (match p.flagWsem with
         | .w0c => (b &&& 0xFC) ||| (m.read x &&& b &&& 0x03)
         | .plain => b)
      else if x = 0x11 ∨ x = 0x12 then m.read x else b
    (∀ b, o ≤ x → bs[x - o]? = some b → (devWriteBytes p m o bs).read x = written b) ∧
    ((x < o ∨ o + bs.length ≤ x) → (devWriteBytes p m o bs).read x = m.read x) ∧
    (∀ l b, o ≤ x → bs[x - o]? = some b →
      (devWriteLanded p m o bs l).read x = if l[x - o]? = some true then written b else m.read x) ∧
    (∀ l, (x < o ∨ o + bs.length ≤ x) → (devWriteLanded p m o bs l).read x = m.read x)

/-- With `P_BURST_ATOMIC` false, each step of a burst moves one byte, for every command that has a burst: a byte before the
last leaves the transaction in flight, and after the last one the command goes on or finishes if every byte was moved, and
ends with BUS_FAIL at the transaction's index if any was lost, the last one included. R55 says only that the transaction is
n single-byte steps: that each takes a draw, and that a lost byte leaves the transaction in flight up to its last byte, are
the model's choice (log entry 9). GETDT's year as in FieldGettersRun (log entry 29). -/
def Obligations.NonAtomicBurstMovesOneByte : Prop :=
  let batch : State → Prop := fun s => s.params.hasBatch = true
  ReadsByBytes always .gettemp 0 0x11 2 0 (last gettempResult) ∧
  ReadsByBytes always .geta1 0 0x07 4 0 (last geta1Result) ∧
  ReadsByBytes always .geta2 0 0x0B 3 0 (last geta2Result) ∧
  ReadsByBytes batch .getdt 0 0x00 7 0 (last getdtResult) ∧
  (∀ d, RunsRmwnByBytes batch (.setdt d) 0x00 7 (setdtBytes d) oldBytes7) ∧
  (∀ s, RunsRmwnByBytes always (.seta1s s) 0x07 4 (alarm1Over (some s) none none none) oldBytes4) ∧
  (∀ m s, RunsRmwnByBytes always (.seta1ms m s) 0x07 4 (alarm1Over (some s) (some m) none none) oldBytes4) ∧
  (∀ h m s, RunsRmwnByBytes always (.seta1hms h m s) 0x07 4 (alarm1Over (some s) (some m) (some h) none) oldBytes4) ∧
  (∀ d h m s,
    RunsRmwnByBytes always (.seta1dhms d h m s) 0x07 4 (alarm1Over (some s) (some m) (some h) (some d)) oldBytes4) ∧
  (∀ m, RunsRmwnByBytes always (.seta2m m) 0x0B 3 (alarm2Over (some m) none none) oldBytes3) ∧
  (∀ h m, RunsRmwnByBytes always (.seta2hm h m) 0x0B 3 (alarm2Over (some m) (some h) none) oldBytes3) ∧
  (∀ d h m, RunsRmwnByBytes always (.seta2dhm d h m) 0x0B 3 (alarm2Over (some m) (some h) (some d)) oldBytes3)

/-! Results, transaction by transaction, from every state at the transaction. -/

/-- The field setters of R112's table. -/
def Obligations.FieldSettersRun : Prop :=
  (Encoded 0x01 (fun d => .setsec (d.extractLsb' 0 8)) ∧ ∀ v, RunsRmw always (.setsec v) 0x00 0x7F (toBCD8 v)) ∧
  (Encoded 0x02 (fun d => .setmin (d.extractLsb' 0 8)) ∧ ∀ v, RunsRmw always (.setmin v) 0x01 0x7F (toBCD8 v)) ∧
  (Encoded 0x04 (fun d => .setweek (d.extractLsb' 0 8)) ∧ ∀ v, RunsRmw always (.setweek v) 0x03 0x07 (toBCD8 v)) ∧
  (Encoded 0x05 (fun d => .setday (d.extractLsb' 0 8)) ∧ ∀ v, RunsRmw always (.setday v) 0x04 0x3F (toBCD8 v)) ∧
  (Encoded 0x06 (fun d => .setmonth (d.extractLsb' 0 8)) ∧ ∀ v, RunsRmw always (.setmonth v) 0x05 0x1F (toBCD8 v)) ∧
  (Encoded 0x07 (fun d => .setyear (d.extractLsb' 0 16)) ∧
    ∀ y : BitVec 16, RunsRmw always (.setyear y) 0x06 0xFF (toBCD8 (BitVec.ofNat 8 (y.toNat % 100))))

/-- SETHOUR: the numeric field by the mode of the byte read; bits 7 and 6, and PM in 12-hour mode, kept. -/
def Obligations.SethourRuns : Prop :=
  Encoded 0x03 (fun d => .sethour (d.extractLsb' 0 8)) ∧
  ∀ v, Opens always (.sethour v) ∧ Reads always (.sethour v) 0 0x02 1 0 more ∧
    Writes always (.sethour v) 1 0x02 (fun s => [hourOver (s.slot 0) v]) (last old0)

/-- The field getters. For a `P_YEAR_BASE` other than R6's 2000 the base's 16-bit width, and the wrap of a year beyond it,
are the model's choice (log entry 29). -/
def Obligations.FieldGettersRun : Prop :=
  (Encoded 0x09 (fun _ => .getsec) ∧ RunsGet always .getsec 0x00 fun p => (fieldVal p 0x7F).setWidth 64) ∧
  (Encoded 0x0A (fun _ => .getmin) ∧ RunsGet always .getmin 0x01 fun p => (fieldVal p 0x7F).setWidth 64) ∧
  (Encoded 0x0B (fun _ => .gethour) ∧
    RunsGet always .gethour 0x02 fun p =>
      (if p.getLsbD 6 then fieldVal p 0x1F else fieldVal p 0x3F).setWidth 64) ∧
  (Encoded 0x0C (fun _ => .getweek) ∧ RunsGet always .getweek 0x03 fun p => (p &&& 0x07).setWidth 64) ∧
  (Encoded 0x0D (fun _ => .getday) ∧ RunsGet always .getday 0x04 fun p => (fieldVal p 0x3F).setWidth 64) ∧
  (Encoded 0x0E (fun _ => .getmonth) ∧ RunsGet always .getmonth 0x05 fun p => (fieldVal p 0x1F).setWidth 64) ∧
  (Encoded 0x0F (fun _ => .getyear) ∧
    ∀ base, RunsGet (fun s => s.params.yearBase = base) .getyear 0x06 fun p =>
      (base + (fromBCD8 p).setWidth 16).setWidth 64)

/-- SETDATE: three RMWs in the order day, month, year; R = the three bytes read. -/
def Obligations.SetdateRuns : Prop :=
  Encoded 0x10 (fun d => .setdate (d.extractLsb' 24 8) (d.extractLsb' 16 8) (d.extractLsb' 0 16)) ∧
  ∀ (day month : Byte) (year : BitVec 16),
    let i := Instr.setdate day month year
    Opens always i ∧
    Reads always i 0 0x04 1 0 more ∧ Writes always i 1 0x04 (mergedAt 0x04 0x3F (toBCD8 day) 0) more ∧
    Reads always i 2 0x05 1 1 more ∧ Writes always i 3 0x05 (mergedAt 0x05 0x1F (toBCD8 month) 1) more ∧
    Reads always i 4 0x06 1 2 more ∧
    Writes always i 5 0x06 (mergedAt 0x06 0xFF (toBCD8 (BitVec.ofNat 8 (year.toNat % 100))) 2) (last oldBytes3)

/-- SETTIME: hours in the mode of the byte read, then minutes, then seconds; R = old SEC, MIN, HOUR. -/
def Obligations.SettimeRuns : Prop :=
  Encoded 0x11 (fun d => .settime (d.extractLsb' 16 8) (d.extractLsb' 8 8) (d.extractLsb' 0 8)) ∧
  ∀ hour minute second : Byte,
    let i := Instr.settime hour minute second
    Opens always i ∧
    Reads always i 0 0x02 1 0 more ∧ Writes always i 1 0x02 (fun s => [hourOver (s.slot 0) hour]) more ∧
    Reads always i 2 0x01 1 1 more ∧ Writes always i 3 0x01 (mergedAt 0x01 0x7F (toBCD8 minute) 1) more ∧
    Reads always i 4 0x00 1 2 more ∧
    Writes always i 5 0x00 (mergedAt 0x00 0x7F (toBCD8 second) 2) (last oldBytes3)

/-- SETHMODE and GETHMODE: to 12-hour sets bit 6; to 24-hour clears bit 6, and bit 5 when leaving 12-hour mode. -/
def Obligations.HourModeCommandsRun : Prop :=
  Encoded 0x12 (fun d => .sethmode (d.getLsbD 0)) ∧
  (∀ f, Opens always (.sethmode f) ∧ Reads always (.sethmode f) 0 0x02 1 0 more ∧
    Writes always (.sethmode f) 1 0x02
      (fun s =>
        let p := s.slot 0
        [if f then p ||| 0x40 else if p.getLsbD 6 then p &&& 0x9F else p &&& 0xBF]) (last old0)) ∧
  Encoded 0x13 (fun _ => .gethmode) ∧
  RunsGet always .gethmode 0x02 fun p => if p.getLsbD 6 then 1 else 0

/-- SETMER and GETMER: the write only in 12-hour mode, of bit 5 alone; GETMER's R[0] is PM in 12-hour mode, R[1] the mode. -/
def Obligations.MeridiemCommandsRun : Prop :=
  Encoded 0x14 (fun d => .setmer (d.getLsbD 0)) ∧
  (∀ f, Opens always (.setmer f) ∧
    Reads always (.setmer f) 0 0x02 1 0 (fun s => if (s.slot 0).getLsbD 6 then none else some (old0 s)) ∧
    Writes (fun s => (s.slot 0).getLsbD 6 = true) (.setmer f) 1 0x02
      (fun s => [if f then s.slot 0 ||| 0x20 else s.slot 0 &&& 0xDF]) (last old0)) ∧
  Encoded 0x15 (fun _ => .getmer) ∧
  RunsGet always .getmer 0x02 fun p => if p.getLsbD 6 then (if p.getLsbD 5 then 3 else 2) else 0

/-- START, STOP and ISRUN on the oscillator bit, wherever `P_OSC_OFF`, `P_OSC_BIT` and `P_OSC_ACTIVE` put it. -/
def Obligations.OscillatorCommandsRun : Prop :=
  Encoded 0x18 (fun _ => .start) ∧ Encoded 0x19 (fun _ => .stop) ∧ Encoded 0x1A (fun _ => .isrun) ∧
  ∀ (r : OscReg) (b : Fin 8) (active : Bool),
    let P : State → Prop := fun s => s.params.oscReg = r ∧ s.params.oscBit = b ∧ s.params.oscActive = active
    let o : Nat := match r with | .control => 0x0E | .status => 0x0F
    let mask : Byte := 1#8 <<< b.val
    RunsRmw P .start o mask (if active then mask else 0) ∧
    RunsRmw P .stop o mask (if active then 0 else mask) ∧
    RunsGet P .isrun o fun p => if p.getLsbD b.val = active then 1 else 0

/-- SETEPOCH: FLD latched at issue, then seven RMWs in ascending order, the canonical hour encoded in the register's own
mode; R = the seven bytes read. -/
def Obligations.SetepochRuns : Prop :=
  Encoded 0x16 (fun d => .setepoch (d.extractLsb' 0 32)) ∧
  ∀ e : BitVec 32,
    let i := Instr.setepoch e
    (∀ s : State, s.phase = .idle → exec i s = .next { opened s with fld := Config.calSplit e }) ∧
    Reads always i 0 0x00 1 0 more ∧
    Writes always i 1 0x00 (fun s => mergedAt 0x00 0x7F (toBCD8 s.fld.second) 0 s) more ∧
    Reads always i 2 0x01 1 1 more ∧
    Writes always i 3 0x01 (fun s => mergedAt 0x01 0x7F (toBCD8 s.fld.minute) 1 s) more ∧
    Reads always i 4 0x02 1 2 more ∧
    Writes always i 5 0x02
      (fun s => [(s.slot 2 &&& 0x80) ||| encCanonHour s.fld.hour ((s.slot 2).getLsbD 6)]) more ∧
    Reads always i 6 0x03 1 3 more ∧
    Writes always i 7 0x03 (fun s => mergedAt 0x03 0x07 (toBCD8 s.fld.dow) 3 s) more ∧
    Reads always i 8 0x04 1 4 more ∧
    Writes always i 9 0x04 (fun s => mergedAt 0x04 0x3F (toBCD8 s.fld.day) 4 s) more ∧
    Reads always i 10 0x05 1 5 more ∧
    Writes always i 11 0x05 (fun s => mergedAt 0x05 0x1F (toBCD8 s.fld.month) 5 s) more ∧
    Reads always i 12 0x06 1 6 more ∧
    Writes always i 13 0x06
      (fun s => mergedAt 0x06 0xFF (toBCD8 (BitVec.ofNat 8 (s.fld.year.toNat % 100))) 6 s) (last oldBytes7)

/-- GETEPOCH: six single reads, DOW not among them, then `P_CAL_JOIN` of the decoded fields with the canonical
hour. The year as in FieldGettersRun (log entry 29). -/
def Obligations.GetepochRuns : Prop :=
  Encoded 0x17 (fun _ => .getepoch) ∧
  Opens always .getepoch ∧
  Reads always .getepoch 0 0x00 1 0 more ∧ Reads always .getepoch 1 0x01 1 1 more ∧
  Reads always .getepoch 2 0x02 1 2 more ∧ Reads always .getepoch 3 0x04 1 3 more ∧
  Reads always .getepoch 4 0x05 1 4 more ∧
  Reads always .getepoch 5 0x06 1 5
    (last fun s =>
      (Config.calJoin (s.params.yearBase + (fromBCD8 (s.slot 5)).setWidth 16) (fieldVal (s.slot 4) 0x1F)
        (fieldVal (s.slot 3) 0x3F) (canonHour (s.slot 2)) (fieldVal (s.slot 1) 0x7F)
        (fieldVal (s.slot 0) 0x7F)).setWidth 64)

/-- GETDT: one burst of seven registers, packed as format F64. The year as in FieldGettersRun (log entry 29). -/
def Obligations.GetdtRuns : Prop :=
  Encoded 0x1B (fun _ => .getdt) ∧
  Opens (fun s => s.params.hasBatch = true) .getdt ∧
  Reads (fun s => s.params.hasBatch = true) .getdt 0 0x00 7 0 (last getdtResult)

/-- SETDT: one burst read and one burst write of seven registers, mode and PM from the operand, reserved bits and CENTURY
from the bytes read; R = those bytes. -/
def Obligations.SetdtRuns : Prop :=
  Encoded 0x1C (fun d => .setdt
    ⟨d.extractLsb' 48 16, d.extractLsb' 40 8, d.extractLsb' 32 8, d.extractLsb' 24 8, d.getLsbD 23, d.getLsbD 22,
     d.extractLsb' 16 6, d.extractLsb' 8 8, d.extractLsb' 0 8⟩) ∧
  ∀ d : FullTime, RunsRmwn (fun s => s.params.hasBatch = true) (.setdt d) 0x00 7 (setdtBytes d) oldBytes7

/-- The four alarm 1 setters: supplied fields with mask 0, the hour in 24-hour form and the day as a date; the others keep
their value bits with mask 1. -/
def Obligations.Alarm1SettersRun : Prop :=
  (Encoded 0x20 (fun d => .seta1s (d.extractLsb' 0 8)) ∧
    ∀ s, RunsRmwn always (.seta1s s) 0x07 4
      (fun P => [toBCD8 s &&& 0x7F, P 1 ||| 0x80, P 2 ||| 0x80, P 3 ||| 0x80]) oldBytes4) ∧
  (Encoded 0x21 (fun d => .seta1ms (d.extractLsb' 8 8) (d.extractLsb' 0 8)) ∧
    ∀ m s, RunsRmwn always (.seta1ms m s) 0x07 4
      (fun P => [toBCD8 s &&& 0x7F, toBCD8 m &&& 0x7F, P 2 ||| 0x80, P 3 ||| 0x80]) oldBytes4) ∧
  (Encoded 0x22 (fun d => .seta1hms (d.extractLsb' 16 8) (d.extractLsb' 8 8) (d.extractLsb' 0 8)) ∧
    ∀ h m s, RunsRmwn always (.seta1hms h m s) 0x07 4
      (fun P => [toBCD8 s &&& 0x7F, toBCD8 m &&& 0x7F, toBCD8 h &&& 0x3F, P 3 ||| 0x80]) oldBytes4) ∧
  (Encoded 0x23 (fun d => .seta1dhms (d.extractLsb' 24 8) (d.extractLsb' 16 8) (d.extractLsb' 8 8) (d.extractLsb' 0 8)) ∧
    ∀ d h m s, RunsRmwn always (.seta1dhms d h m s) 0x07 4
      (fun _ => [toBCD8 s &&& 0x7F, toBCD8 m &&& 0x7F, toBCD8 h &&& 0x3F, toBCD8 d &&& 0x3F]) oldBytes4)

/-- The three alarm 2 setters. -/
def Obligations.Alarm2SettersRun : Prop :=
  (Encoded 0x24 (fun d => .seta2m (d.extractLsb' 8 8)) ∧
    ∀ m, RunsRmwn always (.seta2m m) 0x0B 3 (fun P => [toBCD8 m &&& 0x7F, P 1 ||| 0x80, P 2 ||| 0x80]) oldBytes3) ∧
  (Encoded 0x25 (fun d => .seta2hm (d.extractLsb' 16 8) (d.extractLsb' 8 8)) ∧
    ∀ h m, RunsRmwn always (.seta2hm h m) 0x0B 3
      (fun P => [toBCD8 m &&& 0x7F, toBCD8 h &&& 0x3F, P 2 ||| 0x80]) oldBytes3) ∧
  (Encoded 0x26 (fun d => .seta2dhm (d.extractLsb' 24 8) (d.extractLsb' 16 8) (d.extractLsb' 8 8)) ∧
    ∀ d h m, RunsRmwn always (.seta2dhm d h m) 0x0B 3
      (fun _ => [toBCD8 m &&& 0x7F, toBCD8 h &&& 0x3F, toBCD8 d &&& 0x3F]) oldBytes3)

/-- The alarm getters: one burst, every field decoded, the mask bits and the kind returned beside them. -/
def Obligations.AlarmGettersRun : Prop :=
  Encoded 0x28 (fun _ => .geta1) ∧ Encoded 0x29 (fun _ => .geta2) ∧
  (Opens always .geta1 ∧ Reads always .geta1 0 0x07 4 0 (last geta1Result)) ∧
  (Opens always .geta2 ∧ Reads always .geta2 0 0x0B 3 0 (last geta2Result))

/-- EN1, EN2, DIS1 and DIS2: one enable bit of CONTROL each. -/
def Obligations.AlarmEnableCommandsRun : Prop :=
  (Encoded 0x2A (fun _ => .en1) ∧ RunsRmw always .en1 0x0E 0x01 0x01) ∧
  (Encoded 0x2B (fun _ => .en2) ∧ RunsRmw always .en2 0x0E 0x02 0x02) ∧
  (Encoded 0x2C (fun _ => .dis1) ∧ RunsRmw always .dis1 0x0E 0x01 0x00) ∧
  (Encoded 0x2D (fun _ => .dis2) ∧ RunsRmw always .dis2 0x0E 0x02 0x00)

/-- TRG1 and TRG2: the flag alone; reading does not clear it. -/
def Obligations.TriggerQueriesRun : Prop :=
  (Encoded 0x2E (fun _ => .trg1) ∧ RunsGet always .trg1 0x0F fun p => if p.getLsbD 0 then 1 else 0) ∧
  (Encoded 0x2F (fun _ => .trg2) ∧ RunsGet always .trg2 0x0F fun p => if p.getLsbD 1 then 1 else 0)

/-- CLR1 and CLR2: the byte written is the one R163 and R164 give, under flag-protect. -/
def Obligations.ClearCommandsRun : Prop :=
  (Encoded 0x30 (fun _ => .clr1) ∧ RunsRmw always .clr1 0x0F 0x01 0x00) ∧
  (Encoded 0x31 (fun _ => .clr2) ∧ RunsRmw always .clr2 0x0F 0x02 0x00) ∧
  ∀ s : State, s.params.flagProtect = true →
    mergedAt 0x0F 0x01 0x00 0 s = [(s.slot 0 &&& 0xFE) ||| 0x02] ∧
    mergedAt 0x0F 0x02 0x00 0 s = [(s.slot 0 &&& 0xFD) ||| 0x01]

/-- ALMPIN, SQWPIN and SETOUT on the pin function bits of CONTROL. -/
def Obligations.PinCommandsRun : Prop :=
  (Encoded 0x32 (fun _ => .almpin) ∧ RunsRmw always .almpin 0x0E 0x44 0x04) ∧
  (Encoded 0x3A (fun _ => .sqwpin) ∧ RunsRmw always .sqwpin 0x0E 0x44 0x40) ∧
  Encoded 0x38 (fun d => .setout (d.extractLsb' 0 8)) ∧
  RunsRmw always (.setout 0) 0x0E 0x44 0x04 ∧ RunsRmw always (.setout 1) 0x0E 0x5C 0x40 ∧
  RunsRmw always (.setout 2) 0x0E 0x5C 0x48 ∧ RunsRmw always (.setout 3) 0x0E 0x5C 0x50 ∧
  RunsRmw always (.setout 4) 0x0E 0x5C 0x58

/-- GETOUT: INTCN wins; otherwise 1 + RS, with SQWE in R[8]. -/
def Obligations.GetoutRuns : Prop :=
  Encoded 0x39 (fun _ => .getout) ∧
  RunsGet always .getout 0x0E fun p =>
    (if p.getLsbD 6 then 0x100 else 0) +
      (if p.getLsbD 2 then 0 else 1 + (p.extractLsb' 3 2).setWidth 64)

/-- GETAGE and SETAGE: a sign-extended read, and one whole-byte write with no read and R = 0. -/
def Obligations.AgingCommandsRun : Prop :=
  Encoded 0x3B (fun _ => .getage) ∧ RunsGet always .getage 0x10 (fun p => p.signExtend 64) ∧
  Encoded 0x3C (fun d => .setage (d.extractLsb' 0 8)) ∧
  ∀ v, Opens always (.setage v) ∧ Writes always (.setage v) 0 0x10 (fun _ => [v]) (last fun _ => 0)

/-- GETTEMP: one burst; R = `4 * sext(TEMPM) + TEMPL[7:6]`, sign-extended. -/
def Obligations.GettempRuns : Prop :=
  Encoded 0x3D (fun _ => .gettemp) ∧ Opens always .gettemp ∧
  Reads always .gettemp 0 0x11 2 0 (last gettempResult)

/-! Frames and rules of the whole machine. -/

/-- A sequencer step of any command leaves as they were: every register its rule does not name, CMD, the parameters; FLD,
but for SETEPOCH's issue; and RSP and the registers at every step that is neither a finish nor a write. -/
def Obligations.CommandStepFrame : Prop :=
  ∀ (i : Instr) (s t : State), exec i s = .next t →
    (∀ a, ¬ mayWrite s.params.oscReg.offset i a → t.reg a = s.reg a) ∧
    t.cmd = s.cmd ∧ t.params = s.params ∧ t.busRest = s.busRest ∧
    (t.fld = s.fld ∨ s.phase = .idle ∧ ∃ e, i = .setepoch e ∧ t.fld = Config.calSplit e) ∧
    (s.phase = .idle → t.mem = s.mem ∧ t.scr = s.scr ∧ t.inputs = s.inputs) ∧
    (t.inputs = s.inputs ∨ t.inputs = popBus s.inputs) ∧
    (t.phase = .busy → s.phase = .busy → t.rsp = s.rsp)

/-- With no change to the register between read and write, the byte a single-field setter, SETHMODE, SETMER, START or STOP
leaves differs from the byte read only in the bits its rule names (for SETYEAR, all eight). Flag-protect is allowed only
with W0C flags (R53). -/
def Obligations.UnrelatedBitsPreserved : Prop :=
  ∀ (i : Instr) (o : Nat) (s t : State), s.At 1 → s.nextDraw = .ok → s.slot 0 = s.reg o →
    (s.params.flagProtect = true → s.params.flagWsem = .w0c) → exec i s = .next t →
    let differs := s.reg o ^^^ t.reg o
    ((∃ v, i = .setsec v) → o = 0x00 → differs &&& 0x80 = 0) ∧
    ((∃ v, i = .setmin v) → o = 0x01 → differs &&& 0x80 = 0) ∧
    ((∃ v, i = .sethour v) → o = 0x02 → differs &&& (if (s.reg o).getLsbD 6 then 0xE0 else 0xC0) = 0) ∧
    ((∃ v, i = .setweek v) → o = 0x03 → differs &&& 0xF8 = 0) ∧
    ((∃ v, i = .setday v) → o = 0x04 → differs &&& 0xC0 = 0) ∧
    ((∃ v, i = .setmonth v) → o = 0x05 → differs &&& 0xE0 = 0) ∧
    ((∃ f, i = .sethmode f) → o = 0x02 →
      differs &&& (if (s.reg o).getLsbD 6 && !(t.reg o).getLsbD 6 then 0x9F else 0xBF) = 0) ∧
    ((∃ f, i = .setmer f) → o = 0x02 → differs &&& 0xDF = 0) ∧
    (i = .start ∨ i = .stop → o = s.params.oscReg.offset → differs &&& ~~~(1#8 <<< s.params.oscBit.val) = 0)

/-- After a finish OK of ALMPIN, SQWPIN or a legal SETOUT, exactly one of SQWE and INTCN is 1, as its rule says. -/
def Obligations.ExactlyOnePinFunction : Prop :=
  ∀ (i : Instr) (s t : State), s.At 1 → s.nextDraw = .ok → exec i s = .next t →
    ((i = .almpin ∨ i = .setout 0) → (t.reg 0x0E).getLsbD 2 = true ∧ (t.reg 0x0E).getLsbD 6 = false) ∧
    ((i = .sqwpin ∨ ∃ m : Byte, 1 ≤ m.toNat ∧ m.toNat ≤ 4 ∧ i = .setout m) →
      (t.reg 0x0E).getLsbD 2 = false ∧ (t.reg 0x0E).getLsbD 6 = true)

/-- In the default flag configuration no step of any agent clears an alarm flag but the write of CLR1 (alarm 1) or CLR2
(alarm 2), or the reset that abandons one in flight; and no step sets one but a TICK or a MATCH. -/
def Obligations.OnlyClearCommandsClearFlags : Prop :=
  ∀ s t : State, FlagSafe s.params → step s = .next t →
    (∀ n : Nat, n < 2 → (s.reg 0x0F).getLsbD n = true → (t.reg 0x0F).getLsbD n = false →
      s.phase = .busy ∧ s.k = 1 ∧ decode s.cmd = .ok (if n = 0 then .clr1 else .clr2)) ∧
    (∀ n : Nat, n < 2 → (s.reg 0x0F).getLsbD n = false → (t.reg 0x0F).getLsbD n = true →
      ∃ rest, (∃ new d1 d2, s.inputs = .tick new d1 d2 :: rest) ∨ (∃ d1 d2, s.inputs = .matchStep d1 d2 :: rest))

/-- A flag the comparator set between the read and the write of START, STOP, CLR1 or CLR2 survives the write if it is
outside the mask, in the default configuration. In both configurations without flag-protect (R201) it is lost unless it was
read as 1: with W0C flags the flag becomes its present value AND the value read, with PLAIN flags the value read. CLRx
clears its own flag in each. START and STOP leave STATUS alone where the oscillator bit is in CONTROL. -/
def Obligations.FlagProtectKeepsAFlagSetInTheWindow : Prop :=
  ∀ (i : Instr) (s t : State), s.At 1 → s.nextDraw = .ok →
    (s.params.oscReg = .status → 2 ≤ s.params.oscBit.val) → exec i s = .next t →
    let flag (n : Nat) : Bool := (t.reg 0x0F).getLsbD n
    let now (n : Nat) : Bool := (s.reg 0x0F).getLsbD n
    let read (n : Nat) : Bool := (s.slot 0).getLsbD n
    let runStop := i = .start ∨ i = .stop
    let keeps (n : Nat) := (n = 0 ∧ i = .clr2) ∨ (n = 1 ∧ i = .clr1) ∨ (n < 2 ∧ s.params.oscReg = .status ∧ runStop)
    (s.params.flagWsem = .w0c → s.params.flagProtect = true → ∀ n, keeps n → flag n = now n) ∧
    (s.params.flagWsem = .w0c → s.params.flagProtect = false → ∀ n, keeps n → flag n = (now n && read n)) ∧
    (s.params.flagWsem = .plain → s.params.flagProtect = false → ∀ n, keeps n → flag n = read n) ∧
    (i = .clr1 → flag 0 = false) ∧ (i = .clr2 → flag 1 = false) ∧
    (s.params.oscReg = .control → runStop → t.reg 0x0F = s.reg 0x0F)

/-- The interrupt line, and the function of the shared pin: INT, the square wave, or any function where neither bit is 1. -/
def Obligations.InterruptLineRule : Prop :=
  (∀ s : State, s.intLine = true ↔
    (s.reg 0x0E).getLsbD 2 = true ∧
      (((s.reg 0x0E).getLsbD 0 = true ∧ (s.reg 0x0F).getLsbD 0 = true) ∨
       ((s.reg 0x0E).getLsbD 1 = true ∧ (s.reg 0x0F).getLsbD 1 = true))) ∧
  (∀ c : Byte, (c.getLsbD 2 = true → ∀ f, pinAllows c f = true ↔ f = .int) ∧
    (c.getLsbD 2 = false → c.getLsbD 6 = true → ∀ f, pinAllows c f = true ↔ f = .sqw (c.extractLsb' 3 2)) ∧
    (c.getLsbD 2 = false → c.getLsbD 6 = false → ∀ f, pinAllows c f = true))

/-- Stale flag: the write of EN1 or EN2 with its flag already 1, when INTCN was read as 1, leaves the line asserted. -/
def Obligations.EnablingAStaleFlagInterruptsAtOnce : Prop :=
  ∀ s t : State, s.At 1 → s.nextDraw = .ok → (s.slot 0).getLsbD 2 = true →
    ((s.reg 0x0F).getLsbD 0 = true → exec .en1 s = .next t → t.intLine = true ∧ t.reg 0x0F = s.reg 0x0F) ∧
    ((s.reg 0x0F).getLsbD 1 = true → exec .en2 s = .next t → t.intLine = true ∧ t.reg 0x0F = s.reg 0x0F)

/-! The timekeeper. -/

/-- TICK with `P_TICK_FN = none`: each time register takes the draw outside its KEEP bits; the flags follow the comparator
on the new registers, in the same step; nothing else changes. -/
def Obligations.TickRule : Prop :=
  ∀ (s : State) (n : TimeBytes) (d1 d2 : Bool) (rest : List Input), s.inputs = .tick n d1 d2 :: rest →
    s.params.tickFn = .draw →
    ((s.reg s.params.oscReg.offset).getLsbD s.params.oscBit.val = s.params.oscActive ∨
      s.params.tickWhenStopped = true) →
    ∃ t, step s = .next t ∧ t.inputs = rest ∧ BlockKept s t ∧
      t.reg 0 = (s.reg 0 &&& 0x80) ||| (n[0] &&& 0x7F) ∧ t.reg 1 = (s.reg 1 &&& 0x80) ||| (n[1] &&& 0x7F) ∧
      t.reg 2 = (s.reg 2 &&& 0xC0) ||| (n[2] &&& 0x3F) ∧ t.reg 3 = (s.reg 3 &&& 0xF8) ||| (n[3] &&& 0x07) ∧
      t.reg 4 = (s.reg 4 &&& 0xC0) ||| (n[4] &&& 0x3F) ∧ t.reg 5 = (s.reg 5 &&& 0x60) ||| (n[5] &&& 0x9F) ∧
      t.reg 6 = n[6] ∧
      (∀ a, 6 < a → a ≠ 0x0F → t.reg a = s.reg a) ∧
      StatusRestKept s t ∧ Flag1Rule s t d1 ∧ Flag2Rule s t d2

/-- A supplied `P_TICK_FN` gives the new time in place of the draw, with the same KEEP bits. -/
def Obligations.SuppliedTickRule : Prop :=
  ∀ (s : State) (n : TimeBytes) (d1 d2 : Bool) (rest : List Input), s.inputs = .tick n d1 d2 :: rest →
    s.params.tickFn = .supplied →
    ((s.reg s.params.oscReg.offset).getLsbD s.params.oscBit.val = s.params.oscActive ∨
      s.params.tickWhenStopped = true) →
    ∃ t, step s = .next t ∧
      let N := Config.tickFn #v[s.reg 0, s.reg 1, s.reg 2, s.reg 3, s.reg 4, s.reg 5, s.reg 6]
      t.reg 0 = (s.reg 0 &&& 0x80) ||| (N[0] &&& 0x7F) ∧ t.reg 1 = (s.reg 1 &&& 0x80) ||| (N[1] &&& 0x7F) ∧
      t.reg 2 = (s.reg 2 &&& 0xC0) ||| (N[2] &&& 0x3F) ∧ t.reg 3 = (s.reg 3 &&& 0xF8) ||| (N[3] &&& 0x07) ∧
      t.reg 4 = (s.reg 4 &&& 0xC0) ||| (N[4] &&& 0x3F) ∧ t.reg 5 = (s.reg 5 &&& 0x60) ||| (N[5] &&& 0x9F) ∧
      t.reg 6 = N[6]

/-- No TICK step exists while the oscillator bit reads stopped and `P_TICK_WHEN_STOPPED` is false, and no MATCH step
without `P_MATCH_ANYTIME`. -/
def Obligations.DisabledTimekeeperStepsDoNotExist : Prop :=
  (∀ (s : State) (n : TimeBytes) (d1 d2 : Bool) (rest : List Input), s.inputs = .tick n d1 d2 :: rest →
    s.params.tickWhenStopped = false →
    (s.reg s.params.oscReg.offset).getLsbD s.params.oscBit.val ≠ s.params.oscActive →
    step s = .refused .inputNotEnabled) ∧
  (∀ (s : State) (d1 d2 : Bool) (rest : List Input), s.inputs = .matchStep d1 d2 :: rest →
    s.params.matchAnytime = false → step s = .refused .inputNotEnabled)

/-- MATCH: the comparator on the registers as they are, and nothing but the flags changes. -/
def Obligations.MatchRule : Prop :=
  ∀ (s : State) (d1 d2 : Bool) (rest : List Input), s.inputs = .matchStep d1 d2 :: rest →
    s.params.matchAnytime = true →
    ∃ t, step s = .next t ∧ t.inputs = rest ∧ BlockKept s t ∧ (∀ a, a ≠ 0x0F → t.reg a = s.reg a) ∧
      StatusRestKept s t ∧ Flag1Rule s t d1 ∧ Flag2Rule s t d2

/-- TEMP and VOL: any temperature bytes; any values of the volatile bits, which are CONTROL[7], CONTROL[5] and STATUS[6:2]
in the default configuration, and no other bit. -/
def Obligations.TemperatureAndVolatileRules : Prop :=
  (∀ (s : State) (m l : Byte) (rest : List Input), s.inputs = .temp m l :: rest →
    ∃ t, step s = .next t ∧ t.inputs = rest ∧ BlockKept s t ∧ t.reg 0x11 = m ∧ t.reg 0x12 = l ∧
      ∀ a, a ≠ 0x11 → a ≠ 0x12 → t.reg a = s.reg a) ∧
  (∀ (s : State) (c st : Byte) (rest : List Input), s.inputs = .vol c st :: rest →
    s.params.oscReg = .status → s.params.oscBit = 7 →
    ∃ t, step s = .next t ∧ t.inputs = rest ∧ BlockKept s t ∧
      t.reg 0x0E = (s.reg 0x0E &&& 0x5F) ||| (c &&& 0xA0) ∧
      t.reg 0x0F = (s.reg 0x0F &&& 0x83) ||| (st &&& 0x7C) ∧
      ∀ a, a ≠ 0x0E → a ≠ 0x0F → t.reg a = s.reg a)

/-- Under every mask pattern, the irregular ones of kind 0xFF among them, an alarm matches exactly when every field whose
mask bit is 0 is equal, alarm 2 at second 0 only; and so which fields each kind of either alarm compares. -/
def Obligations.MaskKindsSelectTheComparedFields : Prop :=
  ∀ reg : Nat → Byte,
    let sec := fieldVal (reg 0x07) 0x7F = fieldVal (reg 0x00) 0x7F
    let min := fieldVal (reg 0x08) 0x7F = fieldVal (reg 0x01) 0x7F
    let hour := canonHour (reg 0x09) = canonHour (reg 0x02)
    let day := if (reg 0x0A).getLsbD 6 then reg 0x0A &&& 0x0F = reg 0x03 &&& 0x07
      else fieldVal (reg 0x0A) 0x3F = fieldVal (reg 0x04) 0x3F
    let kindA := kind1 (maskBit (reg 0x07)) (maskBit (reg 0x08)) (maskBit (reg 0x09)) (maskBit (reg 0x0A))
    let zero := fieldVal (reg 0x00) 0x7F = 0
    let min2 := fieldVal (reg 0x0B) 0x7F = fieldVal (reg 0x01) 0x7F
    let hour2 := canonHour (reg 0x0C) = canonHour (reg 0x02)
    let day2 := if (reg 0x0D).getLsbD 6 then reg 0x0D &&& 0x0F = reg 0x03 &&& 0x07
      else fieldVal (reg 0x0D) 0x3F = fieldVal (reg 0x04) 0x3F
    let kindB := kind2 (maskBit (reg 0x0B)) (maskBit (reg 0x0C)) (maskBit (reg 0x0D))
    let masked (a : Nat) := (reg a).getLsbD 7 = true
    (match1 reg = true ↔
      (masked 0x07 ∨ sec) ∧ (masked 0x08 ∨ min) ∧ (masked 0x09 ∨ hour) ∧ (masked 0x0A ∨ day)) ∧
    (match2 reg = true ↔ zero ∧ (masked 0x0B ∨ min2) ∧ (masked 0x0C ∨ hour2) ∧ (masked 0x0D ∨ day2)) ∧
    (kindA = 0 → match1 reg = true) ∧
    (kindA = 1 → (match1 reg = true ↔ sec)) ∧
    (kindA = 2 → (match1 reg = true ↔ sec ∧ min)) ∧
    (kindA = 3 → (match1 reg = true ↔ sec ∧ min ∧ hour)) ∧
    (kindA = 4 → (match1 reg = true ↔ sec ∧ min ∧ hour ∧ day)) ∧
    (kindB = 0 → (match2 reg = true ↔ zero)) ∧
    (kindB = 1 → (match2 reg = true ↔ zero ∧ min2)) ∧
    (kindB = 2 → (match2 reg = true ↔ zero ∧ min2 ∧ hour2)) ∧
    (kindB = 3 → (match2 reg = true ↔ zero ∧ min2 ∧ hour2 ∧ day2))

/-! Reset. -/

/-- A block reset: PHASE, K and RSP at their reset values, CMD, SCR and FLD unspecified (drawn). An IDLE block changes no
register. A BUSY command is abandoned with no finish reported, and each register holds its byte or the one the
transaction in flight would have left. -/
def Obligations.BlockResetRule : Prop :=
  ∀ (s : State) (d : ResetDraw) (rest : List Input), s.inputs = .reset d :: rest →
    (s.phase = .busy → s.params.burstAtomic = true ∧ ∃ i, decode s.cmd = .ok i ∧ issueLegal s.params i = true) →
    ∃ t, step s = .next t ∧ t.phase = .idle ∧ t.k = 0 ∧
      t.rsp = { valid := false, code := .ok, fidx := 0, r := 0 } ∧ t.cmd = d.cmd ∧ t.scr = d.scr ∧ t.fld = d.fld ∧
      t.inputs = rest ∧ t.params = s.params ∧
      (s.phase = .idle → t.mem = s.mem) ∧
      (s.phase = .busy → ∀ i u, decode s.cmd = .ok i →
        exec i { s with inputs := .bus .ok :: rest } = .next u → ∀ a, t.reg a = s.reg a ∨ t.reg a = u.reg a)

/-- The block at launch, where the spec gives the values. -/
def Obligations.BlockStateAtLaunch : Prop :=
  State.reset.phase = .idle ∧ State.reset.k = 0 ∧
    State.reset.rsp = { valid := false, code := .ok, fidx := 0, r := 0 }

/-! Invariants. -/

/-- The invariant holds at launch. -/
def Obligations.InvariantAtLaunch : Prop := Inv State.reset

/-- Every step keeps the invariant: the register file canonical and within the map; fidx 0 but for BUS_FAIL and R 0 but for
OK; nothing in flight while IDLE; and while BUSY a legal command in CMD, K below its transaction count, RSP not valid. -/
def Obligations.InvariantKeptByEveryStep : Prop := ∀ s t : State, Inv s → step s = .next t → Inv t

/-! Laws over whole commands. -/

/-- The codec's laws R100 (a) to (c). For (d) the definitions of R97 to R99 give the first half only: every valid BCD byte
survives decoding and encoding, and so does exactly every other byte whose low nibble is a digit, such as 0xA0 (log entry
16). -/
def Obligations.CodecRoundTrips : Prop :=
  (∀ v : Byte, v.toNat ≤ 99 → fromBCD8 (toBCD8 v) = v) ∧
  (∀ v : Byte, v.toNat ≤ 159 → fromBCD8 (toBCD8 v) = v) ∧
  (∀ v : Byte, 160 ≤ v.toNat → fromBCD8 (toBCD8 v) = v - 160) ∧
  (∀ b : Byte, isBCD b = true → toBCD8 (fromBCD8 b) = b) ∧
  (∀ b : Byte, toBCD8 (fromBCD8 b) = b ↔ (b.extractLsb' 0 4).toNat ≤ 9) ∧
  toBCD8 (fromBCD8 0xA0) = 0xA0 ∧ isBCD 0xA0 = false

/-- The canonical hour conversions agree in both modes, and a canonical hour survives either. -/
def Obligations.CanonicalHourRoundTrips : Prop :=
  ∀ (h : Byte) (m : Bool), h.toNat < 24 → canonHour (encCanonHour h m) = h ∧ (encCanonHour h m).getLsbD 6 = m

/-- Each field setter followed by its getter, with no step of another agent between and no bus failure, returns the value
set, for every value in the field's legal range. -/
def Obligations.FieldsRoundTrip : Prop :=
  ∀ (s : State) (v : Byte) (y : BitVec 16), s.phase = .idle → s.DrawsOk 3 →
    let roundTrip (set get : Instr) (r : DWord) : Prop :=
      ∃ t u, RunsTo set 3 s t ∧ t.phase = .idle ∧ Finishes get 2 t u r
    (v.toNat ≤ 59 → roundTrip (.setsec v) .getsec (v.setWidth 64)) ∧
    (v.toNat ≤ 59 → roundTrip (.setmin v) .getmin (v.setWidth 64)) ∧
    (1 ≤ v.toNat → v.toNat ≤ 7 → roundTrip (.setweek v) .getweek (v.setWidth 64)) ∧
    (1 ≤ v.toNat → v.toNat ≤ 31 → roundTrip (.setday v) .getday (v.setWidth 64)) ∧
    (1 ≤ v.toNat → v.toNat ≤ 12 → roundTrip (.setmonth v) .getmonth (v.setWidth 64)) ∧
    (2000 ≤ y.toNat → y.toNat ≤ 2099 → s.params.yearBase = 2000 →
      roundTrip (.setyear y) .getyear (y.setWidth 64)) ∧
    ((if (s.reg 0x02).getLsbD 6 then 1 ≤ v.toNat ∧ v.toNat ≤ 12 else v.toNat ≤ 23) →
      ∃ t u, RunsTo (.sethour v) 3 s t ∧ Finishes .gethour 2 t u (v.setWidth 64) ∧
        (t.reg 0x02).getLsbD 6 = (s.reg 0x02).getLsbD 6 ∧
        ((s.reg 0x02).getLsbD 6 = true → (t.reg 0x02).getLsbD 5 = (s.reg 0x02).getLsbD 5))

/-- SETDT of a legal date and time followed by GETDT returns the operand word: what is set is read back in one snapshot. -/
def Obligations.BatchRoundTrip : Prop :=
  ∀ (s : State) (d : FullTime), s.phase = .idle → s.DrawsOk 3 → s.params.hasBatch = true →
    s.params.burstAtomic = true → s.params.yearBase = 2000 →
    2000 ≤ d.year.toNat → d.year.toNat ≤ 2099 → 1 ≤ d.month.toNat → d.month.toNat ≤ 12 →
    1 ≤ d.date.toNat → d.date.toNat ≤ 31 → 1 ≤ d.dow.toNat → d.dow.toNat ≤ 7 →
    (if d.h12 then 1 ≤ d.hour.toNat ∧ d.hour.toNat ≤ 12 else d.hour.toNat ≤ 23 ∧ d.pm = false) →
    d.minute.toNat ≤ 59 → d.second.toNat ≤ 59 →
    ∃ t u, RunsTo (.setdt d) 3 s t ∧ Finishes .getdt 2 t u (operand (.setdt d))

/-- SETEPOCH, from its first transaction on with legal fields latched in FLD, followed by GETEPOCH, joins exactly those
fields, in either hour mode. `P_CAL_SPLIT` is open, so the fields are a premise on FLD, not on the operand. -/
def Obligations.EpochRoundTrip : Prop :=
  ∀ (s : State) (e : BitVec 32), s.At 0 → s.DrawsOk 20 → s.params.yearBase = 2000 →
    let f := s.fld
    2000 ≤ f.year.toNat → f.year.toNat ≤ 2099 → 1 ≤ f.month.toNat → f.month.toNat ≤ 12 → 1 ≤ f.day.toNat →
    f.day.toNat ≤ 31 → f.hour.toNat ≤ 23 → f.minute.toNat ≤ 59 → f.second.toNat ≤ 59 →
    ∃ t u, RunsTo (.setepoch e) 14 s t ∧ t.phase = .idle ∧
      Finishes .getepoch 7 t u ((Config.calJoin f.year f.month f.day f.hour f.minute f.second).setWidth 64)

/-- An alarm setter followed by its getter returns the supplied fields, the mask bits and the kind its rule states,
whatever the registers held: seconds only, hour-minute-second, and alarm 2's day-hour-minute. -/
def Obligations.AlarmKindAfterSet : Prop :=
  ∀ (s : State) (day hour minute second : Byte), s.phase = .idle → s.DrawsOk 3 → s.params.burstAtomic = true →
    day.toNat ≤ 31 → hour.toNat ≤ 23 → minute.toNat ≤ 59 → second.toNat ≤ 59 →
    (∃ t u r, RunsTo (.seta1s second) 3 s t ∧ Finishes .geta1 2 t u r ∧ r.extractLsb' 0 8 = second ∧
      r.extractLsb' 32 16 = 0x010E#16) ∧
    (∃ t u r, RunsTo (.seta1ms minute second) 3 s t ∧ Finishes .geta1 2 t u r ∧ r.extractLsb' 0 8 = second ∧
      r.extractLsb' 8 8 = minute ∧ r.extractLsb' 32 16 = 0x020C#16) ∧
    (∃ t u r, RunsTo (.seta1hms hour minute second) 3 s t ∧ Finishes .geta1 2 t u r ∧
      r.extractLsb' 0 24 = hour ++ minute ++ second ∧ r.extractLsb' 32 16 = 0x0308#16) ∧
    (∃ t u, RunsTo (.seta1dhms day hour minute second) 3 s t ∧
      Finishes .geta1 2 t u (0x00000400#32 ++ day ++ hour ++ minute ++ second)) ∧
    (∃ t u r, RunsTo (.seta2m minute) 3 s t ∧ Finishes .geta2 2 t u r ∧ r.extractLsb' 0 16 = minute ++ 0#8 ∧
      r.extractLsb' 32 16 = 0x010C#16) ∧
    (∃ t u r, RunsTo (.seta2hm hour minute) 3 s t ∧ Finishes .geta2 2 t u r ∧
      r.extractLsb' 0 24 = hour ++ minute ++ 0#8 ∧ r.extractLsb' 32 16 = 0x0208#16) ∧
    (∃ t u, RunsTo (.seta2dhm day hour minute) 3 s t ∧
      Finishes .geta2 2 t u (0x00000300#32 ++ day ++ hour ++ minute ++ 0#8))

/-- A mode switch does not renormalize: from 12-hour mode, SETHMODE 24 then GETHOUR reads the same numeric bits as a
24-hour value; bits 4:0 are never touched, in either direction. -/
def Obligations.ModeSwitchDoesNotRenormalize : Prop :=
  ∀ s : State, s.phase = .idle → s.DrawsOk 3 →
    ((s.reg 0x02).getLsbD 6 = true →
      ∃ t u, RunsTo (.sethmode false) 3 s t ∧ Finishes .gethour 2 t u ((fieldVal (s.reg 0x02) 0x1F).setWidth 64)) ∧
    (∀ f, ∃ t, RunsTo (.sethmode f) 3 s t ∧ t.reg 0x02 &&& 0x1F = s.reg 0x02 &&& 0x1F ∧
      ((t.reg 0x02).getLsbD 6 = true ↔ f = true))

/-- Read-modify-write race: a change the timekeeper makes to HOUR or MONTH between the read and the write is undone
outside the field by SETHOUR (PM, in 12-hour mode) and SETMONTH (CENTURY), and the field takes the value set. -/
def Obligations.RaceRestoresTheBitsRead : Prop :=
  ∀ (s : State) (v : Byte), s.At 1 → s.nextDraw = .ok →
    (∃ t, exec (.sethour v) s = .next t ∧ ((s.slot 0).getLsbD 6 = true → t.reg 0x02 &&& 0xE0 = s.slot 0 &&& 0xE0 ∧
      t.reg 0x02 &&& 0x1F = toBCD8 v &&& 0x1F)) ∧
    (∃ t, exec (.setmonth v) s = .next t ∧ t.reg 0x05 &&& 0xE0 = s.slot 0 &&& 0xE0 ∧
      t.reg 0x05 &&& 0x1F = toBCD8 v &&& 0x1F)
end

