-- ==== Sys2Proof/Laws/Memory.lean ====
section
/-! SUPPORT. The register file: read after write, and that every operation on it keeps the canonical form. -/

namespace Sys2Proof.Machine

@[simp] theorem Memory.read_nil (a : Nat) : Memory.read [] a = Memory.unlisted := rfl

theorem Memory.read_cons (c : Host.Cell) (m : Memory) (a : Nat) :
    Memory.read (c :: m) a = if c.1 = a then c.2 else Memory.read m a := rfl

theorem Memory.read_erase (m : Memory) (a x : Nat) :
    (m.erase a).read x = if a = x then Memory.unlisted else m.read x := by
  induction m with
  | nil => simp [Memory.erase]
  | cons c m ih =>
    unfold Memory.erase at ih ⊢
    by_cases h : c.1 = a
    · simp only [List.filter_cons, h, bne_self_eq_false, Bool.false_eq_true, ↓reduceIte, ih, Memory.read_cons]
      split <;> rfl
    · simp only [List.filter_cons, bne_iff_ne, ne_eq, h, not_false_eq_true, ↓reduceIte, Memory.read_cons, ih]
      by_cases hx : c.1 = x
      · simp [hx, show a ≠ x by omega]
      · simp [hx]

theorem Memory.read_place (m : Memory) (a : Nat) (b : Byte) (x : Nat) (h : ∀ c ∈ m, c.1 ≠ a) :
    (m.place a b).read x = if a = x then b else m.read x := by
  induction m with
  | nil => simp [Memory.place, Memory.read_cons]
  | cons c m ih =>
    have ih := ih fun d hd => h d (List.mem_cons_of_mem _ hd)
    have hc := h c List.mem_cons_self
    unfold Memory.place
    split
    · simp [Memory.read_cons]
    · rw [Memory.read_cons, ih, Memory.read_cons]
      by_cases hx : a = x
      · simp [hx, show c.1 ≠ x by omega]
      · simp [hx]

theorem Memory.mem_erase {m : Memory} {a : Nat} {c : Host.Cell} : c ∈ m.erase a ↔ c ∈ m ∧ c.1 ≠ a := by
  simp [Memory.erase]

/-- A read after a write: the byte written at its own offset, and every other register as before. -/
@[simp] theorem Memory.read_write (m : Memory) (a : Nat) (b : Byte) (x : Nat) :
    (m.write a b).read x = if a = x then b else m.read x := by
  unfold Memory.write
  split
  · next h => rw [Memory.read_erase, h]
  · rw [Memory.read_place _ _ _ _ fun c hc => (Memory.mem_erase.mp hc).2, Memory.read_erase]
    split <;> rfl

theorem Memory.mem_place {m : Memory} {a : Nat} {b : Byte} {c : Host.Cell} :
    c ∈ m.place a b ↔ c = (a, b) ∨ c ∈ m := by
  induction m with
  | nil => simp [Memory.place]
  | cons d m ih =>
    unfold Memory.place
    split
    · simp
    · simp only [List.mem_cons, ih]
      constructor
      · rintro (h | h | h) <;> simp [h]
      · rintro (h | h | h) <;> simp [h]

theorem Memory.erase_wf {m : Memory} (h : m.wf) (a : Nat) : (m.erase a).wf :=
  ⟨h.1.filter _, fun c hc => h.2 c (Memory.mem_erase.mp hc).1⟩

theorem Memory.place_sorted {m : Memory} {a : Nat} {b : Byte} (h : m.Pairwise (fun c d => c.1 < d.1))
    (hne : ∀ c ∈ m, c.1 ≠ a) : (m.place a b).Pairwise (fun c d => c.1 < d.1) := by
  induction m with
  | nil => simp [Memory.place]
  | cons c m ih =>
    rw [List.pairwise_cons] at h
    unfold Memory.place
    split
    · next hlt =>
      refine List.pairwise_cons.mpr ⟨?_, List.pairwise_cons.mpr h⟩
      rintro d hd
      rcases List.mem_cons.mp hd with rfl | hd
      · exact hlt
      · exact Nat.lt_trans hlt (h.1 d hd)
    · next hge =>
      refine List.pairwise_cons.mpr ⟨?_, ih h.2 fun d hd => hne d (List.mem_cons_of_mem _ hd)⟩
      rintro d hd
      rcases Memory.mem_place.mp hd with rfl | hd
      · have := hne c List.mem_cons_self
        show c.1 < a
        omega
      · exact h.1 d hd

/-- A write keeps the canonical form. -/
theorem Memory.write_wf {m : Memory} (h : m.wf) (a : Nat) (b : Byte) : (m.write a b).wf := by
  unfold Memory.write
  split
  · exact Memory.erase_wf h a
  · next hb =>
    refine ⟨Memory.place_sorted (Memory.erase_wf h a).1 fun c hc => (Memory.mem_erase.mp hc).2, ?_⟩
    rintro c hc
    rcases Memory.mem_place.mp hc with rfl | hc
    · exact hb
    · exact (Memory.erase_wf h a).2 c hc

/-- A write to one of the 19 registers lists no other offset. -/
theorem Memory.write_inMap {m : Memory} (h : m.inMap) {a : Nat} (ha : a < 0x13) (b : Byte) : (m.write a b).inMap := by
  unfold Memory.write
  split
  · exact fun c hc => h c (Memory.mem_erase.mp hc).1
  · rintro c hc
    rcases Memory.mem_place.mp hc with rfl | hc
    · exact ha
    · exact h c (Memory.mem_erase.mp hc).1

/-- Two canonical register files that read alike everywhere are equal: equal memories are equal data. -/
theorem Memory.ext_of_wf {m m' : Memory} (h : m.wf) (h' : m'.wf) (hr : ∀ a, m.read a = m'.read a) : m = m' := by
  have notlisted : ∀ {n : Memory} {a : Nat}, (∀ c ∈ n, a < c.1) → n.read a = Memory.unlisted := by
    intro n a hn
    induction n with
    | nil => rfl
    | cons c n ih =>
      have := hn c List.mem_cons_self
      rw [Memory.read_cons, if_neg (by omega), ih fun d hd => hn d (List.mem_cons_of_mem _ hd)]
  induction m generalizing m' with
  | nil =>
    cases m' with
    | nil => rfl
    | cons c m' =>
      have := hr c.1
      rw [Memory.read_cons, if_pos rfl] at this
      exact absurd this.symm (h'.2 c List.mem_cons_self)
  | cons c m ih =>
    obtain ⟨hs, hv⟩ := h
    rw [List.pairwise_cons] at hs
    cases m' with
    | nil =>
      have := hr c.1
      rw [Memory.read_cons, if_pos rfl] at this
      exact absurd this (hv c List.mem_cons_self)
    | cons d m' =>
      obtain ⟨hs', hv'⟩ := h'
      rw [List.pairwise_cons] at hs'
      have e1 : c.1 = d.1 := by
        rcases Nat.lt_trichotomy c.1 d.1 with hlt | heq | hgt
        · exfalso
          have := hr c.1
          rw [Memory.read_cons, if_pos rfl, notlisted] at this
          · exact hv c List.mem_cons_self this
          · intro e he
            rcases List.mem_cons.mp he with rfl | he
            · exact hlt
            · exact Nat.lt_trans hlt (hs'.1 e he)
        · exact heq
        · exfalso
          have := hr d.1
          rw [Memory.read_cons (a := d.1) (c := d), if_pos rfl, notlisted] at this
          · exact hv' d List.mem_cons_self this.symm
          · intro e he
            rcases List.mem_cons.mp he with rfl | he
            · exact hgt
            · exact Nat.lt_trans hgt (hs.1 e he)
      have e2 : c.2 = d.2 := by
        have := hr c.1
        rwa [Memory.read_cons, if_pos rfl, Memory.read_cons, if_pos e1.symm] at this
      have e : c = d := Prod.ext e1 e2
      subst e
      refine congrArg _ (ih ⟨hs.2, fun x hx => hv x (List.mem_cons_of_mem _ hx)⟩
        ⟨hs'.2, fun x hx => hv' x (List.mem_cons_of_mem _ hx)⟩ fun a => ?_)
      by_cases ha : c.1 = a
      · subst ha
        rw [notlisted fun x hx => hs.1 x hx, notlisted fun x hx => hs'.1 x hx]
      · have := hr a
        rwa [Memory.read_cons, if_neg ha, Memory.read_cons, if_neg ha] at this

theorem reset_mem_wf : State.reset.mem.wf := by decide

/-! The device write rule and the two primitives. -/

theorem devWriteByte_wf {m : Memory} (h : m.wf) (p : Params) (o : Nat) (b : Byte) : (devWriteByte p m o b).wf := by
  unfold devWriteByte
  split
  · exact Memory.write_wf h ..
  · split
    · exact h
    · exact Memory.write_wf h ..

theorem devWriteByte_inMap {m : Memory} (h : m.inMap) (p : Params) {o : Nat} (ho : o < 0x13) (b : Byte) :
    (devWriteByte p m o b).inMap := by
  unfold devWriteByte
  split
  · exact Memory.write_inMap h ho _
  · split
    · exact h
    · exact Memory.write_inMap h ho _

/-- What one register reads after a bus write of one byte (R49): the write rule at its offset, unchanged elsewhere. -/
theorem read_devWriteByte (p : Params) (m : Memory) (o : Nat) (b : Byte) (x : Nat) :
    (devWriteByte p m o b).read x =
      if x = o then
        (if o = 0x0F then statusAfterWrite p.flagWsem (m.read o) b else if o = 0x11 ∨ o = 0x12 then m.read o else b)
      else m.read x := by
  unfold devWriteByte
  by_cases hx : x = o
  · subst hx
    split
    · simp
    · split <;> simp
  · split
    · simp [Ne.symm hx]
    · split
      · simp
      · simp [Ne.symm hx]

theorem devWriteBytes_keeps {P : Memory → Prop} (p : Params) (step : ∀ {m}, P m → ∀ o b, P (devWriteByte p m o b))
    {m : Memory} (h : P m) (o : Nat) (bs : List Byte) : P (devWriteBytes p m o bs) := by
  induction bs generalizing m o with
  | nil => exact h
  | cons b bs ih => exact ih (step h o b) (o + 1)

theorem devWriteBytes_wf {m : Memory} (h : m.wf) (p : Params) (o : Nat) (bs : List Byte) :
    (devWriteBytes p m o bs).wf :=
  devWriteBytes_keeps (P := Memory.wf) p (fun h o b => devWriteByte_wf h p o b) h o bs

theorem devWriteLanded_wf {m : Memory} (h : m.wf) (p : Params) (o : Nat) (bs : List Byte) (ls : List Bool) :
    (devWriteLanded p m o bs ls).wf := by
  induction bs generalizing m o ls with
  | nil => cases ls <;> exact h
  | cons b bs ih =>
    cases ls with
    | nil => exact h
    | cons l ls =>
      refine ih ?_ (o + 1) ls
      split
      · exact devWriteByte_wf h p o b
      · exact h

theorem devWriteBytes_inMap {m : Memory} (h : m.inMap) (p : Params) (o : Nat) (bs : List Byte)
    (ho : o + bs.length ≤ 0x13) : (devWriteBytes p m o bs).inMap := by
  induction bs generalizing m o with
  | nil => exact h
  | cons b bs ih =>
    simp only [List.length_cons] at ho
    exact ih (devWriteByte_inMap h p (by omega) b) (o + 1) (by omega)

theorem devWriteLanded_inMap {m : Memory} (h : m.inMap) (p : Params) (o : Nat) (bs : List Byte) (ls : List Bool)
    (ho : o + bs.length ≤ 0x13) : (devWriteLanded p m o bs ls).inMap := by
  induction bs generalizing m o ls with
  | nil => cases ls <;> exact h
  | cons b bs ih =>
    simp only [List.length_cons] at ho
    cases ls with
    | nil => exact h
    | cons l ls =>
      refine ih ?_ (o + 1) ls (by omega)
      split
      · exact devWriteByte_inMap h p (by omega) b
      · exact h

/-- A successful burst write leaves every register outside its bytes as it was (R49). -/
theorem read_devWriteBytes_other (p : Params) (m : Memory) (o : Nat) (bs : List Byte) (x : Nat)
    (hx : x < o ∨ o + bs.length ≤ x) : (devWriteBytes p m o bs).read x = m.read x := by
  induction bs generalizing m o with
  | nil => rfl
  | cons b bs ih =>
    simp only [List.length_cons] at hx
    show (devWriteBytes p (devWriteByte p m o b) (o + 1) bs).read x = _
    rw [ih _ _ (by omega), read_devWriteByte, if_neg (by omega)]

/-- A failed burst write leaves every register outside its bytes as it was (R49). -/
theorem read_devWriteLanded_other (p : Params) (m : Memory) (o : Nat) (bs : List Byte) (ls : List Bool) (x : Nat)
    (hx : x < o ∨ o + bs.length ≤ x) : (devWriteLanded p m o bs ls).read x = m.read x := by
  induction bs generalizing m o ls with
  | nil => cases ls <;> rfl
  | cons b bs ih =>
    simp only [List.length_cons] at hx
    cases ls with
    | nil => rfl
    | cons l ls =>
      show (devWriteLanded p (if l then devWriteByte p m o b else m) (o + 1) bs ls).read x = _
      rw [ih _ _ _ (by omega)]
      split
      · rw [read_devWriteByte, if_neg (by omega)]
      · rfl

end Sys2Proof.Machine
end

