-- ==== Sys2Proof/Laws/State.lean ====
section
/-! SUPPORT. One lemma per field per update of State, each true by unfolding. -/

namespace Sys2Proof.Machine

/-! `setReg` -/

@[simp] theorem State.setReg_phase (s : State) (o : Nat) (b : Byte) : (s.setReg o b).phase = s.phase := rfl
@[simp] theorem State.setReg_cmd (s : State) (o : Nat) (b : Byte) : (s.setReg o b).cmd = s.cmd := rfl
@[simp] theorem State.setReg_k (s : State) (o : Nat) (b : Byte) : (s.setReg o b).k = s.k := rfl
@[simp] theorem State.setReg_scr (s : State) (o : Nat) (b : Byte) : (s.setReg o b).scr = s.scr := rfl
@[simp] theorem State.setReg_fld (s : State) (o : Nat) (b : Byte) : (s.setReg o b).fld = s.fld := rfl
@[simp] theorem State.setReg_rsp (s : State) (o : Nat) (b : Byte) : (s.setReg o b).rsp = s.rsp := rfl
@[simp] theorem State.setReg_mem (s : State) (o : Nat) (b : Byte) : (s.setReg o b).mem = s.mem.write o b := rfl
@[simp] theorem State.setReg_burst (s : State) (o : Nat) (b : Byte) : (s.setReg o b).burst = s.burst := rfl
@[simp] theorem State.setReg_burstLost (s : State) (o : Nat) (b : Byte) : (s.setReg o b).burstLost = s.burstLost := rfl
@[simp] theorem State.setReg_params (s : State) (o : Nat) (b : Byte) : (s.setReg o b).params = s.params := rfl
@[simp] theorem State.setReg_busRest (s : State) (o : Nat) (b : Byte) : (s.setReg o b).busRest = s.busRest := rfl
@[simp] theorem State.setReg_inputs (s : State) (o : Nat) (b : Byte) : (s.setReg o b).inputs = s.inputs := rfl

/-! `popDraw` -/

@[simp] theorem State.popDraw_phase (s : State) : s.popDraw.phase = s.phase := rfl
@[simp] theorem State.popDraw_cmd (s : State) : s.popDraw.cmd = s.cmd := rfl
@[simp] theorem State.popDraw_k (s : State) : s.popDraw.k = s.k := rfl
@[simp] theorem State.popDraw_scr (s : State) : s.popDraw.scr = s.scr := rfl
@[simp] theorem State.popDraw_fld (s : State) : s.popDraw.fld = s.fld := rfl
@[simp] theorem State.popDraw_rsp (s : State) : s.popDraw.rsp = s.rsp := rfl
@[simp] theorem State.popDraw_mem (s : State) : s.popDraw.mem = s.mem := rfl
@[simp] theorem State.popDraw_burst (s : State) : s.popDraw.burst = s.burst := rfl
@[simp] theorem State.popDraw_burstLost (s : State) : s.popDraw.burstLost = s.burstLost := rfl
@[simp] theorem State.popDraw_params (s : State) : s.popDraw.params = s.params := rfl
@[simp] theorem State.popDraw_busRest (s : State) : s.popDraw.busRest = s.busRest := rfl
@[simp] theorem State.popDraw_inputs (s : State) : s.popDraw.inputs = popBus s.inputs := rfl

/-! `popInput` -/

@[simp] theorem State.popInput_phase (s : State) : s.popInput.phase = s.phase := rfl
@[simp] theorem State.popInput_cmd (s : State) : s.popInput.cmd = s.cmd := rfl
@[simp] theorem State.popInput_k (s : State) : s.popInput.k = s.k := rfl
@[simp] theorem State.popInput_scr (s : State) : s.popInput.scr = s.scr := rfl
@[simp] theorem State.popInput_fld (s : State) : s.popInput.fld = s.fld := rfl
@[simp] theorem State.popInput_rsp (s : State) : s.popInput.rsp = s.rsp := rfl
@[simp] theorem State.popInput_mem (s : State) : s.popInput.mem = s.mem := rfl
@[simp] theorem State.popInput_burst (s : State) : s.popInput.burst = s.burst := rfl
@[simp] theorem State.popInput_burstLost (s : State) : s.popInput.burstLost = s.burstLost := rfl
@[simp] theorem State.popInput_params (s : State) : s.popInput.params = s.params := rfl
@[simp] theorem State.popInput_busRest (s : State) : s.popInput.busRest = s.busRest := rfl
@[simp] theorem State.popInput_inputs (s : State) : s.popInput.inputs = s.inputs.tail := rfl

/-! `latchCommand` -/

@[simp] theorem State.latchCommand_phase (w : CmdWord) (s : State) : (latchCommand w s).phase = s.phase := rfl
@[simp] theorem State.latchCommand_cmd (w : CmdWord) (s : State) : (latchCommand w s).cmd = w := rfl
@[simp] theorem State.latchCommand_k (w : CmdWord) (s : State) : (latchCommand w s).k = s.k := rfl
@[simp] theorem State.latchCommand_scr (w : CmdWord) (s : State) : (latchCommand w s).scr = s.scr := rfl
@[simp] theorem State.latchCommand_fld (w : CmdWord) (s : State) : (latchCommand w s).fld = s.fld := rfl
@[simp] theorem State.latchCommand_rsp (w : CmdWord) (s : State) : (latchCommand w s).rsp = s.rsp := rfl
@[simp] theorem State.latchCommand_mem (w : CmdWord) (s : State) : (latchCommand w s).mem = s.mem := rfl
@[simp] theorem State.latchCommand_burst (w : CmdWord) (s : State) : (latchCommand w s).burst = s.burst := rfl
@[simp] theorem State.latchCommand_burstLost (w : CmdWord) (s : State) : (latchCommand w s).burstLost = s.burstLost := rfl
@[simp] theorem State.latchCommand_params (w : CmdWord) (s : State) : (latchCommand w s).params = s.params := rfl
@[simp] theorem State.latchCommand_busRest (w : CmdWord) (s : State) : (latchCommand w s).busRest = s.busRest := rfl
@[simp] theorem State.latchCommand_inputs (w : CmdWord) (s : State) : (latchCommand w s).inputs = s.inputs := rfl

/-! `beginCommand` -/

@[simp] theorem State.beginCommand_phase (s : State) : (beginCommand s).phase = .busy := rfl
@[simp] theorem State.beginCommand_cmd (s : State) : (beginCommand s).cmd = s.cmd := rfl
@[simp] theorem State.beginCommand_k (s : State) : (beginCommand s).k = 0 := rfl
@[simp] theorem State.beginCommand_scr (s : State) : (beginCommand s).scr = s.scr := rfl
@[simp] theorem State.beginCommand_fld (s : State) : (beginCommand s).fld = s.fld := rfl
@[simp] theorem State.beginCommand_rsp (s : State) : (beginCommand s).rsp = { s.rsp with valid := false } := rfl
@[simp] theorem State.beginCommand_mem (s : State) : (beginCommand s).mem = s.mem := rfl
@[simp] theorem State.beginCommand_burst (s : State) : (beginCommand s).burst = 0 := rfl
@[simp] theorem State.beginCommand_burstLost (s : State) : (beginCommand s).burstLost = false := rfl
@[simp] theorem State.beginCommand_params (s : State) : (beginCommand s).params = s.params := rfl
@[simp] theorem State.beginCommand_busRest (s : State) : (beginCommand s).busRest = s.busRest := rfl
@[simp] theorem State.beginCommand_inputs (s : State) : (beginCommand s).inputs = s.inputs := rfl

/-! `advanceK` -/

@[simp] theorem State.advanceK_phase (s : State) : (advanceK s).phase = s.phase := rfl
@[simp] theorem State.advanceK_cmd (s : State) : (advanceK s).cmd = s.cmd := rfl
@[simp] theorem State.advanceK_k (s : State) : (advanceK s).k = s.k + 1 := rfl
@[simp] theorem State.advanceK_scr (s : State) : (advanceK s).scr = s.scr := rfl
@[simp] theorem State.advanceK_fld (s : State) : (advanceK s).fld = s.fld := rfl
@[simp] theorem State.advanceK_rsp (s : State) : (advanceK s).rsp = s.rsp := rfl
@[simp] theorem State.advanceK_mem (s : State) : (advanceK s).mem = s.mem := rfl
@[simp] theorem State.advanceK_burst (s : State) : (advanceK s).burst = s.burst := rfl
@[simp] theorem State.advanceK_burstLost (s : State) : (advanceK s).burstLost = s.burstLost := rfl
@[simp] theorem State.advanceK_params (s : State) : (advanceK s).params = s.params := rfl
@[simp] theorem State.advanceK_busRest (s : State) : (advanceK s).busRest = s.busRest := rfl
@[simp] theorem State.advanceK_inputs (s : State) : (advanceK s).inputs = s.inputs := rfl

/-! `finishWith` -/

@[simp] theorem State.finishWith_phase (c : StatusCode) (f : BitVec 4) (r : DWord) (s : State) : (finishWith c f r s).phase = .idle := rfl
@[simp] theorem State.finishWith_cmd (c : StatusCode) (f : BitVec 4) (r : DWord) (s : State) : (finishWith c f r s).cmd = s.cmd := rfl
@[simp] theorem State.finishWith_k (c : StatusCode) (f : BitVec 4) (r : DWord) (s : State) : (finishWith c f r s).k = s.k := rfl
@[simp] theorem State.finishWith_scr (c : StatusCode) (f : BitVec 4) (r : DWord) (s : State) : (finishWith c f r s).scr = s.scr := rfl
@[simp] theorem State.finishWith_fld (c : StatusCode) (f : BitVec 4) (r : DWord) (s : State) : (finishWith c f r s).fld = s.fld := rfl
@[simp] theorem State.finishWith_rsp (c : StatusCode) (f : BitVec 4) (r : DWord) (s : State) : (finishWith c f r s).rsp = { valid := true, code := c, fidx := f, r := r } := rfl
@[simp] theorem State.finishWith_mem (c : StatusCode) (f : BitVec 4) (r : DWord) (s : State) : (finishWith c f r s).mem = s.mem := rfl
@[simp] theorem State.finishWith_burst (c : StatusCode) (f : BitVec 4) (r : DWord) (s : State) : (finishWith c f r s).burst = 0 := rfl
@[simp] theorem State.finishWith_burstLost (c : StatusCode) (f : BitVec 4) (r : DWord) (s : State) : (finishWith c f r s).burstLost = false := rfl
@[simp] theorem State.finishWith_params (c : StatusCode) (f : BitVec 4) (r : DWord) (s : State) : (finishWith c f r s).params = s.params := rfl
@[simp] theorem State.finishWith_busRest (c : StatusCode) (f : BitVec 4) (r : DWord) (s : State) : (finishWith c f r s).busRest = s.busRest := rfl
@[simp] theorem State.finishWith_inputs (c : StatusCode) (f : BitVec 4) (r : DWord) (s : State) : (finishWith c f r s).inputs = s.inputs := rfl

/-! `resetBlock` -/

@[simp] theorem State.resetBlock_phase (d : ResetDraw) (s : State) : (resetBlock d s).phase = .idle := rfl
@[simp] theorem State.resetBlock_cmd (d : ResetDraw) (s : State) : (resetBlock d s).cmd = d.cmd := rfl
@[simp] theorem State.resetBlock_k (d : ResetDraw) (s : State) : (resetBlock d s).k = 0 := rfl
@[simp] theorem State.resetBlock_scr (d : ResetDraw) (s : State) : (resetBlock d s).scr = d.scr := rfl
@[simp] theorem State.resetBlock_fld (d : ResetDraw) (s : State) : (resetBlock d s).fld = d.fld := rfl
@[simp] theorem State.resetBlock_rsp (d : ResetDraw) (s : State) : (resetBlock d s).rsp = { valid := false, code := .ok, fidx := 0, r := 0 } := rfl
@[simp] theorem State.resetBlock_mem (d : ResetDraw) (s : State) : (resetBlock d s).mem = s.mem := rfl
@[simp] theorem State.resetBlock_burst (d : ResetDraw) (s : State) : (resetBlock d s).burst = 0 := rfl
@[simp] theorem State.resetBlock_burstLost (d : ResetDraw) (s : State) : (resetBlock d s).burstLost = false := rfl
@[simp] theorem State.resetBlock_params (d : ResetDraw) (s : State) : (resetBlock d s).params = s.params := rfl
@[simp] theorem State.resetBlock_busRest (d : ResetDraw) (s : State) : (resetBlock d s).busRest = s.busRest := rfl
@[simp] theorem State.resetBlock_inputs (d : ResetDraw) (s : State) : (resetBlock d s).inputs = s.inputs := rfl

/-! Transactions: a read touches the scratch buffer only, a write the register file only. -/

@[simp] theorem State.applyTx_phase (t : Tx) (s : State) : (applyTx t s).phase = s.phase := by cases t <;> rfl
@[simp] theorem State.applyTx_cmd (t : Tx) (s : State) : (applyTx t s).cmd = s.cmd := by cases t <;> rfl
@[simp] theorem State.applyTx_k (t : Tx) (s : State) : (applyTx t s).k = s.k := by cases t <;> rfl
@[simp] theorem State.applyTx_fld (t : Tx) (s : State) : (applyTx t s).fld = s.fld := by cases t <;> rfl
@[simp] theorem State.applyTx_rsp (t : Tx) (s : State) : (applyTx t s).rsp = s.rsp := by cases t <;> rfl
@[simp] theorem State.applyTx_burst (t : Tx) (s : State) : (applyTx t s).burst = s.burst := by cases t <;> rfl
@[simp] theorem State.applyTx_burstLost (t : Tx) (s : State) : (applyTx t s).burstLost = s.burstLost := by cases t <;> rfl
@[simp] theorem State.applyTx_params (t : Tx) (s : State) : (applyTx t s).params = s.params := by cases t <;> rfl
@[simp] theorem State.applyTx_busRest (t : Tx) (s : State) : (applyTx t s).busRest = s.busRest := by cases t <;> rfl
@[simp] theorem State.applyTx_inputs (t : Tx) (s : State) : (applyTx t s).inputs = s.inputs := by cases t <;> rfl

@[simp] theorem State.applyFailedTx_phase (t : Tx) (l : List Bool) (s : State) : (applyFailedTx t l s).phase = s.phase := by cases t <;> rfl
@[simp] theorem State.applyFailedTx_cmd (t : Tx) (l : List Bool) (s : State) : (applyFailedTx t l s).cmd = s.cmd := by cases t <;> rfl
@[simp] theorem State.applyFailedTx_k (t : Tx) (l : List Bool) (s : State) : (applyFailedTx t l s).k = s.k := by cases t <;> rfl
@[simp] theorem State.applyFailedTx_fld (t : Tx) (l : List Bool) (s : State) : (applyFailedTx t l s).fld = s.fld := by cases t <;> rfl
@[simp] theorem State.applyFailedTx_rsp (t : Tx) (l : List Bool) (s : State) : (applyFailedTx t l s).rsp = s.rsp := by cases t <;> rfl
@[simp] theorem State.applyFailedTx_burst (t : Tx) (l : List Bool) (s : State) : (applyFailedTx t l s).burst = s.burst := by cases t <;> rfl
@[simp] theorem State.applyFailedTx_burstLost (t : Tx) (l : List Bool) (s : State) : (applyFailedTx t l s).burstLost = s.burstLost := by cases t <;> rfl
@[simp] theorem State.applyFailedTx_params (t : Tx) (l : List Bool) (s : State) : (applyFailedTx t l s).params = s.params := by cases t <;> rfl
@[simp] theorem State.applyFailedTx_busRest (t : Tx) (l : List Bool) (s : State) : (applyFailedTx t l s).busRest = s.busRest := by cases t <;> rfl
@[simp] theorem State.applyFailedTx_inputs (t : Tx) (l : List Bool) (s : State) : (applyFailedTx t l s).inputs = s.inputs := by cases t <;> rfl

@[simp] theorem State.applyTxByte_phase (t : Tx) (j : Nat) (d : BusDraw) (s : State) : (applyTxByte t j d s).phase = s.phase := by cases t <;> cases d <;> rfl
@[simp] theorem State.applyTxByte_cmd (t : Tx) (j : Nat) (d : BusDraw) (s : State) : (applyTxByte t j d s).cmd = s.cmd := by cases t <;> cases d <;> rfl
@[simp] theorem State.applyTxByte_k (t : Tx) (j : Nat) (d : BusDraw) (s : State) : (applyTxByte t j d s).k = s.k := by cases t <;> cases d <;> rfl
@[simp] theorem State.applyTxByte_fld (t : Tx) (j : Nat) (d : BusDraw) (s : State) : (applyTxByte t j d s).fld = s.fld := by cases t <;> cases d <;> rfl
@[simp] theorem State.applyTxByte_rsp (t : Tx) (j : Nat) (d : BusDraw) (s : State) : (applyTxByte t j d s).rsp = s.rsp := by cases t <;> cases d <;> rfl
@[simp] theorem State.applyTxByte_burst (t : Tx) (j : Nat) (d : BusDraw) (s : State) : (applyTxByte t j d s).burst = s.burst := by cases t <;> cases d <;> rfl
@[simp] theorem State.applyTxByte_burstLost (t : Tx) (j : Nat) (d : BusDraw) (s : State) : (applyTxByte t j d s).burstLost = s.burstLost := by cases t <;> cases d <;> rfl
@[simp] theorem State.applyTxByte_params (t : Tx) (j : Nat) (d : BusDraw) (s : State) : (applyTxByte t j d s).params = s.params := by cases t <;> cases d <;> rfl
@[simp] theorem State.applyTxByte_busRest (t : Tx) (j : Nat) (d : BusDraw) (s : State) : (applyTxByte t j d s).busRest = s.busRest := by cases t <;> cases d <;> rfl
@[simp] theorem State.applyTxByte_inputs (t : Tx) (j : Nat) (d : BusDraw) (s : State) : (applyTxByte t j d s).inputs = s.inputs := by cases t <;> cases d <;> rfl

/-! Reads through the accessors. -/

@[simp] theorem State.reg_setReg (s : State) (o : Nat) (b : Byte) (x : Nat) :
    (s.setReg o b).reg x = if o = x then b else s.reg x := Memory.read_write ..

@[simp] theorem finish_eq (r : DWord) (s : State) : finish r s = finishWith .ok 0 r s := rfl
@[simp] theorem raiseIllegal_eq (c : StatusCode) (s : State) : raiseIllegal c s = finishWith c 0 0 s := rfl
@[simp] theorem raiseBusFail_eq (s : State) : raiseBusFail s = finishWith .busFail s.k 0 s := rfl

theorem State.reg_reset (o : Nat) : State.reset.reg o = 0 := rfl

end Sys2Proof.Machine
end

