-- ==== Sys2Proof/Laws/Ops.lean ====
section
/-! SUPPORT. What each shared operation can do, said once: the lifecycle of a command, and what every command of `exec`
has in common. -/

namespace Sys2Proof.Machine

/-! The lifecycle. -/

theorem runCommand_idle {c : Command} {s : State} (h : s.phase = .idle) : runCommand c s = .next (issue c s) := by
  simp only [runCommand, h]

/-- Everything a sequencer step can do: an issue, a failure of a command that is illegal, a finish where the script is at
its end, or one transaction inside the map. -/
theorem runCommand_cases {c : Command} {s s' : State} (h : runCommand c s = .next s') :
    (s.phase = .idle ∧ s' = issue c s) ∨
    (s.phase = .busy ∧ ∃ code, c.check s = some code ∧ s' = raiseIllegal code s) ∨
    (s.phase = .busy ∧ c.check s = none ∧ (c.script s)[s.k.toNat]? = none ∧ s' = finish (c.result s) s) ∨
    (s.phase = .busy ∧ c.check s = none ∧
      ∃ t, (c.script s)[s.k.toNat]? = some t ∧ t.inMap = true ∧ s' = transact c t s) := by
  unfold runCommand at h
  split at h
  · next hp => exact .inl ⟨hp, (Host.Outcome.next.inj h).symm⟩
  · next hp =>
    split at h
    · next code hc => exact .inr (.inl ⟨hp, code, hc, (Host.Outcome.next.inj h).symm⟩)
    · next hc =>
      split at h
      · next ht => exact .inr (.inr (.inl ⟨hp, hc, ht, (Host.Outcome.next.inj h).symm⟩))
      · next t ht =>
        split at h
        · next hm => exact .inr (.inr (.inr ⟨hp, hc, t, ht, hm, (Host.Outcome.next.inj h).symm⟩))
        · cases h

/-- A BUSY command at a transaction inside the map performs it. -/
theorem runCommand_busy {c : Command} {s : State} {t : Tx} (hp : s.phase = .busy) (hc : c.check s = none)
    (ht : (c.script s)[s.k.toNat]? = some t) (hm : t.inMap = true) : runCommand c s = .next (transact c t s) := by
  simp only [runCommand, hp, hc, ht, hm, if_true]

/-- A sequencer step never faults, and is refused only for a transaction outside the map (R47). -/
theorem runCommand_total {c : Command} {s : State} (h : ∀ t ∈ c.script s, t.inMap = true) :
    ∃ s', runCommand c s = .next s' := by
  unfold runCommand
  split
  · exact ⟨_, rfl⟩
  · split
    · exact ⟨_, rfl⟩
    · split
      · exact ⟨_, rfl⟩
      · next t ht => exact ⟨_, by rw [if_pos (h t (List.mem_of_getElem? ht))]⟩

/-- The issue of a legal command that has a transaction only opens it. -/
theorem issue_opens {c : Command} {s : State} (hc : c.check (beginCommand s) = none)
    (hl : 0 < (c.script (c.latch (beginCommand s))).length) (hk : (c.latch (beginCommand s)).k = 0) :
    issue c s = c.latch (beginCommand s) := by
  simp [issue, hc, finishIfDone, hk, hl]

theorem issue_illegal {c : Command} {s : State} {code : StatusCode} (hc : c.check (beginCommand s) = some code) :
    issue c s = finishWith code 0 0 (beginCommand s) := by
  simp [issue, hc]

/-! A transaction of one byte is one step whatever `P_BURST_ATOMIC` says (R55). -/

theorem applyTxByte_single {t : Tx} (h : t.count = 1) (s : State) : applyTxByte t 0 .ok s = applyTx t s := by
  cases t with
  | read o n i =>
    obtain rfl : n = 1 := h
    rfl
  | write o bs =>
    match bs, h with
    | [b], _ => rfl

theorem applyTxByte_single_failed {t : Tx} (h : t.count = 1) (l : List Bool) (s : State) :
    applyTxByte t 0 (.fail l) s = applyFailedTx t l s := by
  cases t with
  | read o n i => rfl
  | write o bs =>
    match bs, h with
    | [b], _ => rfl

/-- A one-byte transaction that succeeds. -/
theorem transact_ok {c : Command} {t : Tx} {s : State} {n : Nat} (h1 : t.count = 1 ∨ s.params.burstAtomic = true)
    (hs : s.At n) (hd : s.nextDraw = .ok) :
    transact c t s = finishIfDone c (advanceK (applyTx t s.popDraw)) := by
  obtain ⟨-, -, hb, hl⟩ := hs
  unfold transact
  split
  · simp [transactWhole, hd]
  · next ha =>
    have h1 : t.count = 1 := h1.resolve_right ha
    simp only [transactByte, hd, hb, hl, BusDraw.failed, h1, Bool.or_self, Bool.false_eq_true, if_false,
      applyTxByte_single h1, Nat.lt_irrefl, Nat.zero_add]
    congr 2
    have e1 : (applyTx t s.popDraw).burst = 0 := by simp [hb]
    have e2 : (applyTx t s.popDraw).burstLost = false := by simp [hl]
    rw [← e1, ← e2]

/-- A one-byte transaction that fails (R93). -/
theorem transact_fail {c : Command} {t : Tx} {s : State} {n : Nat} {l : List Bool}
    (h1 : t.count = 1 ∨ s.params.burstAtomic = true) (hs : s.At n) (hd : s.nextDraw = .fail l) :
    transact c t s = raiseBusFail (applyFailedTx t l s.popDraw) := by
  obtain ⟨-, -, hb, hl⟩ := hs
  unfold transact
  split
  · simp [transactWhole, hd]
  · next ha =>
    have h1 : t.count = 1 := h1.resolve_right ha
    simp only [transactByte, hd, hb, hl, BusDraw.failed, h1, Bool.or_true, if_true, Nat.zero_add,
      applyTxByte_single_failed h1, Nat.lt_irrefl, if_false]

/-! A byte of a transaction with `P_BURST_ATOMIC` false: one before the last, the last with a byte lost, the last with none
lost. -/

theorem transact_byte_more {c : Command} {t : Tx} {s : State} (ha : s.params.burstAtomic = false)
    (hn : s.burst + 1 < t.count) :
    transact c t s =
      { applyTxByte t s.burst s.nextDraw s.popDraw with
        burst := s.burst + 1, burstLost := s.burstLost || s.nextDraw.failed } := by
  simp [transact, transactByte, ha, hn]

theorem transact_byte_lost {c : Command} {t : Tx} {s : State} (ha : s.params.burstAtomic = false)
    (hn : ¬ s.burst + 1 < t.count) (hl : (s.burstLost || s.nextDraw.failed) = true) :
    transact c t s = raiseBusFail (applyTxByte t s.burst s.nextDraw s.popDraw) := by
  simp only [transact, transactByte, ha, hn, hl, if_true, if_false, Bool.false_eq_true]

theorem transact_byte_done {c : Command} {t : Tx} {s : State} (ha : s.params.burstAtomic = false)
    (hn : ¬ s.burst + 1 < t.count) (hl : (s.burstLost || s.nextDraw.failed) = false) :
    transact c t s =
      finishIfDone c
        (advanceK { applyTxByte t s.burst s.nextDraw s.popDraw with burst := 0, burstLost := false }) := by
  simp only [transact, transactByte, ha, hn, hl, if_false, Bool.false_eq_true]

/-! H12 under each writer of HOUR (R28): SETHMODE, and SETDT by its own rule R139, give it a value; every other writer, the
tick among them, keeps the H12 of the byte it merges into. -/

theorem setHourMode_h12 (f : Bool) (p : Byte) : hourIs12 (setHourMode f p) = f := by
  cases f <;> cases h : hourIs12 p <;> simp_all [setHourMode, hourIs12]

theorem fullTimeHour_h12 (d : FullTime) (p : Byte) : hourIs12 (fullTimeHour d p) = d.h12 := by
  cases h : d.h12 <;> cases hp : d.pm <;> simp [fullTimeHour, hourIs12, h, hp]

theorem setHourRel_h12 (p v : Byte) : hourIs12 (setHourRel p v) = hourIs12 p := by
  cases h : hourIs12 p <;> simp_all [setHourRel, encHourRel, hmask, hourIs12]

theorem setHourCanon_h12 (p h : Byte) : hourIs12 (setHourCanon p h) = hourIs12 p := by
  unfold setHourCanon hourIs12
  cases p.getLsbD 6 <;> simp [encCanonHour]

theorem setMeridiem_h12 (f : Bool) (p : Byte) : hourIs12 (setMeridiem f p) = hourIs12 p := by
  cases f <;> simp [setMeridiem, hourIs12]

theorem tickByte_h12 (t n : Byte) : hourIs12 (tickByte 2 t n) = hourIs12 t := by
  simp [tickByte, tickKeep, hourIs12]

/-! What every command of `exec` has in common. -/

/-- A transaction inside the map that moves one to eight bytes (R47, R48). -/
def TxOk (t : Tx) : Prop := t.inMap = true ∧ 1 ≤ t.count ∧ t.count ≤ 8

/-- The facts about the pseudocode of `i`: latching changes FLD only, the script is no longer than R79's Tx column says
and has an entry at K exactly where `hasTransaction` says, it depends on nothing but SCR, FLD and the parameters, each of
its transactions is inside the map (R47), and issue fails exactly where the command is illegal, with an illegal-command
code. -/
structure CommandFacts (i : Instr) (c : Command) : Prop where
  latch_frame : ∀ s, c.latch s = { s with fld := (c.latch s).fld }
  script_length : ∀ s, (c.script s).length ≤ txCount i
  script_next : ∀ s, s.k.toNat < (c.script s).length ↔ hasTransaction i s = true
  script_local : ∀ s t, t.scr = s.scr → t.fld = s.fld → t.params = s.params → c.script t = c.script s
  script_ok : ∀ s, ∀ t ∈ c.script s, TxOk t
  check_none : ∀ s, c.check s = none ↔ issueLegal s.params i = true
  check_code : ∀ s code, c.check s = some code → code = .illegalOpcode ∨ code = .illegalOperand

/-- What the pseudocode of `i` writes, with the parameters `p`: FLD at issue for SETEPOCH alone, and only registers its rule
names. -/
structure CommandWrites (i : Instr) (p : Params) (c : Command) : Prop where
  latch : ∀ s, c.latch s = s ∨ ∃ e, i = .setepoch e ∧ (c.latch s).fld = Config.calSplit e
  script : ∀ s o bs, Tx.write o bs ∈ c.script s → ∀ x, o ≤ x → x < o + bs.length → mayWrite p.oscReg.offset i x

theorem txOk_read {o n : Nat} (slot : Nat) (ho : o + n ≤ 0x13) (h1 : 1 ≤ n) (h8 : n ≤ 8) : TxOk (.read o n slot) :=
  ⟨by simp [Tx.inMap, Tx.offset, Tx.count, ho], h1, h8⟩

theorem txOk_write {o n : Nat} {bs : List Byte} (hn : bs.length = n) (ho : o + n ≤ 0x13) (h1 : 1 ≤ n) (h8 : n ≤ 8) :
    TxOk (.write o bs) := by
  subst hn
  exact ⟨by simp [Tx.inMap, Tx.offset, Tx.count, ho], h1, h8⟩

theorem txOk_pair {t u : Tx} (ht : TxOk t) (hu : TxOk u) : ∀ x ∈ [t, u], TxOk x := by
  simp [ht, hu]

theorem txOk_append {l m : List Tx} (hl : ∀ t ∈ l, TxOk t) (hm : ∀ t ∈ m, TxOk t) : ∀ t ∈ l ++ m, TxOk t := by
  intro t ht
  rcases List.mem_append.mp ht with h | h
  · exact hl t h
  · exact hm t h

theorem txOk_modify {o slot : Nat} {b : Byte} (ho : o < 0x13) : ∀ t ∈ [Tx.read o 1 slot, Tx.write o [b]], TxOk t :=
  txOk_pair (txOk_read slot ho (by decide) (by decide)) (txOk_write (n := 1) rfl ho (by decide) (by decide))

theorem slot_local {s t : State} (h : t.scr = s.scr) (i : Nat) : t.slot i = s.slot i := by simp [State.slot, h]

theorem slots_local {s t : State} (h : t.scr = s.scr) (n : Nat) : t.slots n = s.slots n := by
  simp [State.slots, slot_local h]

theorem rmw_local {s t : State} (h : t.scr = s.scr) (hp : t.params = s.params) (o : Nat) (mask val : Byte) (slot : Nat) :
    rmw t o mask val slot = rmw s o mask val slot := by
  simp [rmw, slot_local h, hp]

/-- A script whose length is the Tx column in every state. -/
def Fixed (i : Instr) (script : State → List Tx) : Prop :=
  (∀ s, (script s).length = txCount i) ∧ (∀ s, hasTransaction i s = decide (s.k.toNat < txCount i)) ∧
    ∀ s t : State, t.scr = s.scr → t.fld = s.fld → t.params = s.params → script t = script s

theorem Fixed.next {i : Instr} {script : State → List Tx} (h : Fixed i script) (s : State) :
    s.k.toNat < (script s).length ↔ hasTransaction i s = true := by
  rw [h.1, h.2.1, decide_eq_true_iff]

theorem facts_plain {i : Instr} {script : State → List Tx} {result : State → DWord} (hx : Fixed i script)
    (hm : ∀ s, ∀ t ∈ script s, TxOk t) (hi : ∀ p, issueLegal p i = true) : CommandFacts i (.plain script result) :=
  ⟨fun _ => rfl, fun s => Nat.le_of_eq (hx.1 s), hx.next, hx.2.2, hm, fun s => by simp [Command.plain, hi],
    fun _ _ h => by cases h⟩

theorem facts_modify {i : Instr} {o : Nat} {b : State → Byte} {result : State → DWord} (ho : o < 0x13)
    (hx : Fixed i fun s => [.read o 1 0, .write o [b s]]) (hi : ∀ p, issueLegal p i = true) :
    CommandFacts i (.plain (fun s => [.read o 1 0, .write o [b s]]) result) :=
  facts_plain hx (fun _ => txOk_modify ho) hi

theorem facts_read {i : Instr} {o n : Nat} {result : State → DWord} (ho : o + n ≤ 0x13) (h1 : 1 ≤ n) (h8 : n ≤ 8)
    (hl : 1 = txCount i) (hh : ∀ s, hasTransaction i s = decide (s.k.toNat < txCount i))
    (hi : ∀ p, issueLegal p i = true) : CommandFacts i (.plain (fun _ => [.read o n 0]) result) :=
  facts_plain ⟨fun _ => hl, hh, fun _ _ _ _ _ => rfl⟩ (fun _ => by simpa using txOk_read 0 ho h1 h8) hi

theorem facts_alarm {i : Instr} {o n : Nat} {f : List Byte → List Byte} (ho : o + n ≤ 0x13) (h1 : 1 ≤ n) (h8 : n ≤ 8)
    (hf : ∀ s : State, (f (s.slots n)).length = n) (hl : 2 = txCount i)
    (hh : ∀ s, hasTransaction i s = decide (s.k.toNat < txCount i)) (hi : ∀ p, issueLegal p i = true) :
    CommandFacts i (burstModifyCommand o n f) :=
  facts_plain ⟨fun _ => hl, hh, fun s t h _ _ => by simp [rmwn, slots_local h]⟩
    (fun s => txOk_pair (txOk_read 0 ho h1 h8) (txOk_write (hf s) ho h1 h8)) hi

theorem facts_batch {i : Instr} {c : Command} (hf : ∀ s, c.latch s = { s with fld := (c.latch s).fld })
    (hx : Fixed i c.script) (hm : ∀ s, ∀ t ∈ c.script s, TxOk t) (hi : ∀ p, issueLegal p i = p.hasBatch) :
    CommandFacts i c.batchOnly := by
  refine ⟨hf, fun s => Nat.le_of_eq (hx.1 s), hx.next, hx.2.2, hm, fun s => ?_, fun s code h => ?_⟩
  · rw [hi]
    cases hb : s.params.hasBatch <;> simp [Command.batchOnly, hb]
  · cases hb : s.params.hasBatch <;> simp [Command.batchOnly, hb] at h
    exact .inl h.symm

theorem OscReg.offset_lt (r : OscReg) : r.offset < 0x13 := by cases r <;> decide

theorem writes_plain {i : Instr} {p : Params} {c : Command} (hl : ∀ s, c.latch s = s)
    (hs : ∀ s o bs, Tx.write o bs ∈ c.script s → ∀ x, o ≤ x → x < o + bs.length → mayWrite p.oscReg.offset i x) :
    CommandWrites i p c := ⟨fun s => .inl (hl s), hs⟩

theorem writes_read {i : Instr} {p : Params} {o n : Nat} {result : State → DWord} :
    CommandWrites i p (.plain (fun _ => [.read o n 0]) result) :=
  writes_plain (fun _ => rfl) fun _ _ _ h => by simp [Command.plain] at h

/-- One write of the bytes `b s` from `o` on, after a read. -/
theorem writes_one {i : Instr} {p : Params} {c : Command} {t : Tx} {o n : Nat} {b : State → List Byte}
    (hl : ∀ s, c.latch s = s) (hc : ∀ s, c.script s = [t, .write o (b s)]) (ht : ∀ u bs, t ≠ .write u bs)
    (hb : ∀ s, (b s).length = n) (hm : ∀ x, o ≤ x → x < o + n → mayWrite p.oscReg.offset i x) :
    CommandWrites i p c := by
  refine writes_plain hl fun s u bs h x h1 h2 => ?_
  rw [hc, List.mem_cons, List.mem_singleton] at h
  rcases h with h | h
  · exact absurd h.symm (ht u bs)
  · obtain ⟨rfl, rfl⟩ := Tx.write.inj h
    exact hm x h1 (by rw [← hb s]; exact h2)

theorem writes_modify {i : Instr} {p : Params} {o : Nat} {b : State → Byte} {result : State → DWord}
    (hm : mayWrite p.oscReg.offset i o) :
    CommandWrites i p (.plain (fun s => [.read o 1 0, .write o [b s]]) result) :=
  writes_one (b := fun s => [b s]) (n := 1) (fun _ => rfl) (fun _ => rfl) (by simp) (fun _ => rfl)
    fun x h1 h2 => by rwa [show x = o by omega]

theorem writes_alarm {i : Instr} {p : Params} {o n : Nat} {f : List Byte → List Byte}
    (hf : ∀ s : State, (f (s.slots n)).length = n) (hm : ∀ x, o ≤ x → x < o + n → mayWrite p.oscReg.offset i x) :
    CommandWrites i p (burstModifyCommand o n f) :=
  writes_one (b := fun s => f (s.slots n)) (fun _ => rfl) (fun _ => rfl) (by simp) hf hm

/-- Every arm of `exec` is one sequencer step of a command with these facts, the same command wherever the parameters are
the same. -/
theorem exec_command (i : Instr) (p : Params) :
    ∃ c, CommandFacts i c ∧ CommandWrites i p c ∧ ∀ s, s.params = p → exec i s = runCommand c s := by
  have osc := OscReg.offset_lt p.oscReg
  cases i
  case nop =>
    exact ⟨_, facts_plain ⟨fun _ => rfl, fun _ => rfl, fun _ _ _ _ _ => rfl⟩ (by simp)
      fun _ => by simp [issueLegal, Instr.wellFormed], writes_plain (fun _ => rfl) (by simp [Command.plain]),
      fun _ _ => rfl⟩
  case setdate =>
    exact ⟨_, facts_plain ⟨fun _ => rfl, fun _ => rfl, fun s t h _ hp => by simp [slot_local h, hp]⟩
      (fun _ => txOk_append (txOk_append (txOk_modify (by decide)) (txOk_modify (by decide))) (txOk_modify (by decide)))
      fun _ => by simp [issueLegal, Instr.wellFormed],
      writes_plain (fun _ => rfl) fun s o bs h x h1 h2 => by
        simp only [Command.plain, List.mem_append, List.mem_cons, List.not_mem_nil, or_false, reduceCtorEq, false_or,
          Tx.write.injEq] at h
        rcases h with (⟨rfl, rfl⟩ | ⟨rfl, rfl⟩) | ⟨rfl, rfl⟩ <;>
          (simp only [List.length_cons, List.length_nil] at h2; simp only [mayWrite]; omega),
      fun _ _ => rfl⟩
  case settime =>
    exact ⟨_, facts_plain ⟨fun _ => rfl, fun _ => rfl, fun s t h _ hp => by simp [slot_local h, hp]⟩
      (fun _ => txOk_append (txOk_append (txOk_modify (by decide)) (txOk_modify (by decide))) (txOk_modify (by decide)))
      fun _ => by simp [issueLegal, Instr.wellFormed],
      writes_plain (fun _ => rfl) fun s o bs h x h1 h2 => by
        simp only [Command.plain, List.mem_append, List.mem_cons, List.not_mem_nil, or_false, reduceCtorEq, false_or,
          Tx.write.injEq] at h
        rcases h with (⟨rfl, rfl⟩ | ⟨rfl, rfl⟩) | ⟨rfl, rfl⟩ <;>
          (simp only [List.length_cons, List.length_nil] at h2; simp only [mayWrite]; omega),
      fun _ _ => rfl⟩
  case setepoch =>
    refine ⟨_, ⟨fun _ => rfl, fun _ => Nat.le_refl _, fun s => ?_, fun s t h hf hp => ?_,
      fun _ => txOk_append (txOk_append (txOk_append (txOk_append (txOk_append (txOk_append
        (txOk_modify (by decide)) (txOk_modify (by decide))) (txOk_modify (by decide))) (txOk_modify (by decide)))
        (txOk_modify (by decide))) (txOk_modify (by decide))) (txOk_modify (by decide)),
      fun _ => by simp [issueLegal, Instr.wellFormed], fun _ _ h => by cases h⟩,
      ⟨fun s => .inr ⟨_, rfl, rfl⟩, fun s o bs h x h1 h2 => ?_⟩, fun _ _ => rfl⟩
    · exact (decide_eq_true_iff (p := s.k.toNat < 14)).symm
    · simp [rmw_local h hp, slot_local h, hf]
    · simp only [rmw, List.mem_append, List.mem_cons, List.not_mem_nil, or_false, reduceCtorEq, false_or,
        Tx.write.injEq] at h
      rcases h with (((((⟨rfl, rfl⟩ | ⟨rfl, rfl⟩) | ⟨rfl, rfl⟩) | ⟨rfl, rfl⟩) | ⟨rfl, rfl⟩) | ⟨rfl, rfl⟩) | ⟨rfl, rfl⟩ <;>
        (simp only [List.length_cons, List.length_nil] at h2; simp only [mayWrite]; omega)
  case getepoch =>
    refine ⟨_, facts_plain ⟨fun _ => rfl, fun _ => rfl, fun _ _ _ _ _ => rfl⟩ (fun _ t ht => ?_)
      fun _ => by simp [issueLegal, Instr.wellFormed],
      writes_plain (fun _ => rfl) (by simp [Command.plain]), fun _ _ => rfl⟩
    simp only [List.mem_cons, List.not_mem_nil, or_false] at ht
    rcases ht with rfl | rfl | rfl | rfl | rfl | rfl <;> exact txOk_read _ (by decide) (by decide) (by decide)
  case setmer f =>
    refine ⟨_, ⟨fun _ => rfl, fun s => ?_, fun s => ?_, fun s t h _ _ => ?_, fun s t ht => ?_,
      fun _ => by simp [issueLegal, Instr.wellFormed, Command.plain], fun _ _ h => by cases h⟩,
      writes_plain (fun _ => rfl) fun s o bs h x h1 h2 => ?_, fun _ _ => rfl⟩
    · show (_ :: (if _ then _ else _) : List Tx).length ≤ 2
      split <;> simp
    · show s.k.toNat < (_ :: (if _ then _ else _) : List Tx).length ↔ decide (s.k.toNat < if _ then _ else _) = true
      split <;> simp
    · simp [Command.plain, slot_local h]
    · rcases List.mem_cons.mp ht with rfl | ht
      · exact txOk_read _ (by decide) (by decide) (by decide)
      · split at ht
        · obtain rfl := List.mem_singleton.mp ht
          exact txOk_write (n := 1) rfl (by decide) (by decide) (by decide)
        · cases ht
    · rcases List.mem_cons.mp h with h | h
      · cases h
      · split at h
        · obtain ⟨rfl, rfl⟩ := Tx.write.inj (List.mem_singleton.mp h)
          simp only [List.length_cons, List.length_nil] at h2
          simp only [mayWrite]
          omega
        · cases h
  case getdt =>
    exact ⟨(burstReadCommand 0x00 7 (fullTimeResult p.yearBase)).batchOnly, facts_batch (fun _ => rfl)
      ⟨fun _ => rfl, fun _ => rfl, fun _ _ _ _ _ => rfl⟩
      (fun _ t ht => by obtain rfl := List.mem_singleton.mp ht; exact txOk_read 0 (by decide) (by decide) (by decide))
      fun p => by simp [issueLegal, Instr.wellFormed],
      writes_plain (fun _ => rfl) (by simp [Command.batchOnly, burstReadCommand, Command.plain]),
      fun s h => by subst h; rfl⟩
  case setdt d =>
    exact ⟨_, facts_batch (fun _ => rfl)
      ⟨fun _ => rfl, fun _ => rfl,
        fun s t h _ _ => by simp [burstModifyCommand, Command.plain, rmwn, slots_local h]⟩
      (fun _ => txOk_pair (txOk_read 0 (by decide) (by decide) (by decide))
        (txOk_write (n := 7) rfl (by decide) (by decide) (by decide)))
      fun p => by simp [issueLegal, Instr.wellFormed],
      writes_one (b := fun s => fullTimeBytes d (s.slots 7)) (n := 7) (fun _ => rfl) (fun _ => rfl) (by simp)
        (fun _ => rfl) fun x _ h => by simp only [mayWrite]; omega,
      fun _ _ => rfl⟩
  case setout mode =>
    refine ⟨_, ⟨fun _ => rfl, fun s => ?_, fun s => ?_, fun s t h _ hp => ?_, fun s => ?_, fun s => ?_,
      fun s code h => ?_⟩, writes_plain (fun _ => rfl) fun s o bs h x h1 h2 => ?_, fun _ _ => rfl⟩
    · show (if mode = 0 then _ else _ : List Tx).length ≤ 2
      split <;> exact Nat.le_refl _
    · show s.k.toNat < (if mode = 0 then _ else _ : List Tx).length ↔ decide (s.k.toNat < 2) = true
      split <;> simp [rmw]
    · simp only [rmw_local h hp]
    · show ∀ t ∈ (if mode = 0 then _ else _ : List Tx), TxOk t
      split <;> exact txOk_modify (by decide)
    · cases h : legalOutMode mode <;> simp [issueLegal, Instr.wellFormed, h]
    · cases hm : legalOutMode mode <;> simp [hm] at h
      exact .inr h.symm
    · have h : Tx.write o bs ∈ (if mode = 0 then _ else _ : List Tx) := h
      split at h <;>
        (simp only [rmw, List.mem_cons, List.not_mem_nil, or_false, reduceCtorEq, false_or, Tx.write.injEq] at h
         obtain ⟨rfl, rfl⟩ := h
         simp only [List.length_cons, List.length_nil] at h2
         simp only [mayWrite]
         omega)
  case setage =>
    exact ⟨_, facts_plain ⟨fun _ => rfl, fun _ => rfl, fun _ _ _ _ _ => rfl⟩
      (fun _ => by simpa using txOk_write (o := 0x10) (n := 1) rfl (by decide) (by decide) (by decide))
      fun _ => by simp [issueLegal, Instr.wellFormed],
      writes_plain (fun _ => rfl) fun s o bs h x h1 h2 => by
        obtain ⟨rfl, rfl⟩ := Tx.write.inj (List.mem_singleton.mp h)
        simp only [List.length_cons, List.length_nil] at h2
        simp only [mayWrite]
        omega,
      fun _ _ => rfl⟩
  case start =>
    exact ⟨rmwCommand p.oscReg.offset (oscMask p) (oscLevel p true), facts_modify osc
      ⟨fun _ => rfl, fun _ => rfl, fun s t h _ hp => by simp [slot_local h, hp]⟩
      fun _ => by simp [issueLegal, Instr.wellFormed], writes_modify rfl, fun s h => by subst h; rfl⟩
  case stop =>
    exact ⟨rmwCommand p.oscReg.offset (oscMask p) (oscLevel p false), facts_modify osc
      ⟨fun _ => rfl, fun _ => rfl, fun s t h _ hp => by simp [slot_local h, hp]⟩
      fun _ => by simp [issueLegal, Instr.wellFormed], writes_modify rfl, fun s h => by subst h; rfl⟩
  case isrun =>
    exact ⟨readCommand p.oscReg.offset (fun b => if oscRunning p b then 1 else 0), facts_read osc (by decide) (by decide)
      rfl (fun _ => rfl) fun _ => by simp [issueLegal, Instr.wellFormed], writes_read, fun s h => by subst h; rfl⟩
  case getyear =>
    exact ⟨readCommand 0x06 (fun b => (regToYear p.yearBase b).setWidth 64), facts_read (by decide) (by decide) (by decide)
      rfl (fun _ => rfl) fun _ => by simp [issueLegal, Instr.wellFormed], writes_read, fun s h => by subst h; rfl⟩
  all_goals
    first
    | exact ⟨_, facts_read (by decide) (by decide) (by decide) rfl (fun _ => rfl)
        fun _ => by simp [issueLegal, Instr.wellFormed], writes_read, fun _ _ => rfl⟩
    | exact ⟨_, facts_modify (by decide) ⟨fun _ => rfl, fun _ => rfl, fun s t h _ hp => by simp [slot_local h, hp]⟩
        fun _ => by simp [issueLegal, Instr.wellFormed], writes_modify (by simp [mayWrite]), fun _ _ => rfl⟩
    | exact ⟨_, facts_alarm (by decide) (by decide) (by decide) (fun _ => rfl) rfl (fun _ => rfl)
        fun _ => by simp [issueLegal, Instr.wellFormed],
        writes_alarm (fun _ => rfl) fun x h1 h2 => by simp only [mayWrite]; omega, fun _ _ => rfl⟩

end Sys2Proof.Machine
end

