-- ==== Sys2Proof/Laws/PerInstr.lean ====
section
/-! SUPPORT. Facts about every instruction as syntax, one lemma per constructor. -/

namespace Sys2Proof.Laws.EncodeFields

/-- The encoder puts the opcode in `W[71:64]` and the operand field in `W[63:0]` (R64). -/
def Statement (i : Instr) : Prop := opcodeOf (encode i) = opcode i ∧ operandOf (encode i) = operand i

theorem high_part {m n : Nat} (a : BitVec m) (b : BitVec n) : (a ++ b).extractLsb' n m = a := by
  ext j hj
  simp [BitVec.getLsbD_append, BitVec.getLsbD_eq_getElem hj]

theorem low_part {m n : Nat} (a : BitVec m) (b : BitVec n) : (a ++ b).extractLsb' 0 n = b := by
  ext j hj
  simp [BitVec.getLsbD_append, hj]

theorem of_append (i : Instr) : Statement i := ⟨high_part _ _, low_part _ _⟩

theorem nop : Statement .nop := of_append _
theorem setsec (v : Byte) : Statement (.setsec v) := of_append _
theorem setmin (v : Byte) : Statement (.setmin v) := of_append _
theorem sethour (v : Byte) : Statement (.sethour v) := of_append _
theorem setweek (v : Byte) : Statement (.setweek v) := of_append _
theorem setday (v : Byte) : Statement (.setday v) := of_append _
theorem setmonth (v : Byte) : Statement (.setmonth v) := of_append _
theorem setyear (y : BitVec 16) : Statement (.setyear y) := of_append _
theorem getsec : Statement .getsec := of_append _
theorem getmin : Statement .getmin := of_append _
theorem gethour : Statement .gethour := of_append _
theorem getweek : Statement .getweek := of_append _
theorem getday : Statement .getday := of_append _
theorem getmonth : Statement .getmonth := of_append _
theorem getyear : Statement .getyear := of_append _
theorem setdate (day month : Byte) (year : BitVec 16) : Statement (.setdate day month year) := of_append _
theorem settime (hour minute second : Byte) : Statement (.settime hour minute second) := of_append _
theorem sethmode (f : Bool) : Statement (.sethmode f) := of_append _
theorem gethmode : Statement .gethmode := of_append _
theorem setmer (f : Bool) : Statement (.setmer f) := of_append _
theorem getmer : Statement .getmer := of_append _
theorem setepoch (e : BitVec 32) : Statement (.setepoch e) := of_append _
theorem getepoch : Statement .getepoch := of_append _
theorem start : Statement .start := of_append _
theorem stop : Statement .stop := of_append _
theorem isrun : Statement .isrun := of_append _
theorem getdt : Statement .getdt := of_append _
theorem setdt (d : FullTime) : Statement (.setdt d) := of_append _
theorem seta1s (second : Byte) : Statement (.seta1s second) := of_append _
theorem seta1ms (minute second : Byte) : Statement (.seta1ms minute second) := of_append _
theorem seta1hms (hour minute second : Byte) : Statement (.seta1hms hour minute second) := of_append _
theorem seta1dhms (day hour minute second : Byte) : Statement (.seta1dhms day hour minute second) := of_append _
theorem seta2m (minute : Byte) : Statement (.seta2m minute) := of_append _
theorem seta2hm (hour minute : Byte) : Statement (.seta2hm hour minute) := of_append _
theorem seta2dhm (day hour minute : Byte) : Statement (.seta2dhm day hour minute) := of_append _
theorem geta1 : Statement .geta1 := of_append _
theorem geta2 : Statement .geta2 := of_append _
theorem en1 : Statement .en1 := of_append _
theorem en2 : Statement .en2 := of_append _
theorem dis1 : Statement .dis1 := of_append _
theorem dis2 : Statement .dis2 := of_append _
theorem trg1 : Statement .trg1 := of_append _
theorem trg2 : Statement .trg2 := of_append _
theorem clr1 : Statement .clr1 := of_append _
theorem clr2 : Statement .clr2 := of_append _
theorem almpin : Statement .almpin := of_append _
theorem setout (mode : Byte) : Statement (.setout mode) := of_append _
theorem getout : Statement .getout := of_append _
theorem sqwpin : Statement .sqwpin := of_append _
theorem getage : Statement .getage := of_append _
theorem setage (v : Byte) : Statement (.setage v) := of_append _
theorem gettemp : Statement .gettemp := of_append _

end Sys2Proof.Laws.EncodeFields
end

