-- ==== Sys2Proof/Laws/Timekeeper.lean ====
section
/-! SUPPORT. What the timekeeper's steps and the block reset leave: the registers they write, and that they keep the
register file's canonical form and extent. -/

namespace Sys2Proof.Machine

theorem State.setReg_wf {s : State} (h : s.mem.wf) (o : Nat) (b : Byte) : (s.setReg o b).mem.wf := Memory.write_wf h o b

theorem State.setReg_inMap {s : State} (h : s.mem.inMap) {o : Nat} (ho : o < 0x13) (b : Byte) :
    (s.setReg o b).mem.inMap := Memory.write_inMap h ho b

/-- A step that only writes registers of the map. -/
structure RegStep (s t : State) : Prop where
  rest : t = { s with mem := t.mem }
  wf : s.mem.wf → t.mem.wf
  inMap : s.mem.inMap → t.mem.inMap

theorem RegStep.setReg (s : State) {o : Nat} (ho : o < 0x13) (b : Byte) : RegStep s (s.setReg o b) :=
  ⟨rfl, fun h => State.setReg_wf h o b, fun h => State.setReg_inMap h ho b⟩

theorem RegStep.trans {s t u : State} (h : RegStep s t) (g : RegStep t u) : RegStep s u :=
  ⟨by rw [g.rest, h.rest], fun w => g.wf (h.wf w), fun w => g.inMap (h.inMap w)⟩

theorem tickRegs_step (T N : TimeBytes) (s : State) : RegStep s (tickRegs T N s) :=
  ((((((RegStep.setReg s (by decide) _).trans (RegStep.setReg _ (by decide) _)).trans
    (RegStep.setReg _ (by decide) _)).trans (RegStep.setReg _ (by decide) _)).trans
    (RegStep.setReg _ (by decide) _)).trans (RegStep.setReg _ (by decide) _)).trans (RegStep.setReg _ (by decide) _)

theorem compareStep_step (d1 d2 : Bool) (s : State) : RegStep s (compareStep d1 d2 s) := RegStep.setReg s (by decide) _

theorem tickStep_step (n : TimeBytes) (d1 d2 : Bool) (s : State) : RegStep s (tickStep n d1 d2 s) :=
  (tickRegs_step _ _ s).trans (compareStep_step d1 d2 _)

theorem tempStep_step (m l : Byte) (s : State) : RegStep s (tempStep m l s) :=
  (RegStep.setReg s (by decide) _).trans (RegStep.setReg _ (by decide) _)

theorem volStep_step (c st : Byte) (s : State) : RegStep s (volStep c st s) :=
  (RegStep.setReg s (by decide) _).trans (RegStep.setReg _ (by decide) _)

/-- A TICK writes the time registers by `tickByte`, and no other before the comparator's step. -/
theorem reg_tickRegs (T N : TimeBytes) (s : State) (x : Nat) :
    (tickRegs T N s).reg x =
      if 6 = x then tickByte 6 T[6] N[6] else if 5 = x then tickByte 5 T[5] N[5] else
      if 4 = x then tickByte 4 T[4] N[4] else if 3 = x then tickByte 3 T[3] N[3] else
      if 2 = x then tickByte 2 T[2] N[2] else if 1 = x then tickByte 1 T[1] N[1] else
      if 0 = x then tickByte 0 T[0] N[0] else s.reg x := by
  simp only [tickRegs, State.reg_setReg]

/-- The comparator's step writes STATUS, and no other register. -/
theorem reg_compareStep (d1 d2 : Bool) (s : State) (x : Nat) :
    (compareStep d1 d2 s).reg x = if 0x0F = x then statusAfterCompare s.reg d1 d2 else s.reg x := State.reg_setReg ..

theorem reg_tempStep (m l : Byte) (s : State) (x : Nat) :
    (tempStep m l s).reg x = if 0x12 = x then l else if 0x11 = x then m else s.reg x := by
  simp only [tempStep, State.reg_setReg]

theorem reg_volStep (c st : Byte) (s : State) (x : Nat) :
    (volStep c st s).reg x =
      if 0x0F = x then mergeBits (statusVolatile s.params) (s.reg 0x0F) st
      else if 0x0E = x then mergeBits (controlVolatile s.params) (s.reg 0x0E) c else s.reg x := by
  simp only [volStep, State.reg_setReg]

theorem flags_over (b : Byte) (f1 f2 : Bool) :
    ((b &&& 0xFC) ||| (if f1 then 0x01 else 0) ||| (if f2 then 0x02 else 0)) &&& 0xFC = b &&& 0xFC ∧
    statusA1F ((b &&& 0xFC) ||| (if f1 then 0x01 else 0) ||| (if f2 then 0x02 else 0)) = f1 ∧
    statusA2F ((b &&& 0xFC) ||| (if f1 then 0x01 else 0) ||| (if f2 then 0x02 else 0)) = f2 := by
  refine ⟨?_, ?_, ?_⟩
  · ext i hi
    rcases (by omega : i = 0 ∨ i = 1 ∨ i = 2 ∨ i = 3 ∨ i = 4 ∨ i = 5 ∨ i = 6 ∨ i = 7) with
      rfl | rfl | rfl | rfl | rfl | rfl | rfl | rfl <;> cases f1 <;> cases f2 <;> simp
  · cases f1 <;> cases f2 <;> simp [statusA1F]
  · cases f1 <;> cases f2 <;> simp [statusA2F]

/-- A comparator step keeps STATUS[7:2]. -/
theorem statusAfterCompare_rest (reg : Nat → Byte) (d1 d2 : Bool) :
    statusAfterCompare reg d1 d2 &&& 0xFC = reg 0x0F &&& 0xFC := (flags_over _ _ _).1

/-- A comparator step's alarm 1 flag (R156). -/
theorem statusAfterCompare_flag1 (reg : Nat → Byte) (d1 d2 : Bool) :
    statusA1F (statusAfterCompare reg d1 d2) =
      flagAfterCompare (match1 reg) (controlA1IE (reg 0x0E)) (statusA1F (reg 0x0F)) d1 := (flags_over _ _ _).2.1

/-- A comparator step's alarm 2 flag (R156). -/
theorem statusAfterCompare_flag2 (reg : Nat → Byte) (d1 d2 : Bool) :
    statusA2F (statusAfterCompare reg d1 d2) =
      flagAfterCompare (match2 reg) (controlA2IE (reg 0x0E)) (statusA2F (reg 0x0F)) d2 := (flags_over _ _ _).2.2

end Sys2Proof.Machine
end

