-- ==== Sys2Proof/Laws/Transact.lean ====
section
/-! SUPPORT. Everything one sequencer step can do, said once: what a transaction leaves as it was, and the three ways a
transaction ends. -/

namespace Sys2Proof.Machine

/-- `finishIfDone` leaves the state, or finishes it where the script is at its end (R92). -/
theorem finishIfDone_cases (c : Command) (s : State) :
    (s.k.toNat < (c.script s).length ∧ finishIfDone c s = s) ∨
    ((c.script s).length ≤ s.k.toNat ∧ finishIfDone c s = finishWith .ok 0 (c.result s) s) := by
  unfold finishIfDone
  split
  · next h => exact .inl ⟨h, rfl⟩
  · next h => exact .inr ⟨Nat.le_of_not_lt h, rfl⟩

/-- What the moved bytes of `t` can change between `s` and `u`: the draw is taken, SCR by a read, and the registers of its
own bytes by a write; the register file keeps its canonical form and extent. -/
structure TxEffect (t : Tx) (s u : State) : Prop where
  phase : u.phase = s.phase
  cmd : u.cmd = s.cmd
  k : u.k = s.k
  fld : u.fld = s.fld
  rsp : u.rsp = s.rsp
  params : u.params = s.params
  busRest : u.busRest = s.busRest
  inputs : u.inputs = popBus s.inputs
  read_mem : ∀ o n i, t = .read o n i → u.mem = s.mem
  write_scr : ∀ o bs, t = .write o bs → u.scr = s.scr
  reg_other : ∀ x, (x < t.offset ∨ t.offset + t.count ≤ x) → u.reg x = s.reg x
  wf : s.mem.wf → u.mem.wf
  inMap : t.inMap = true → s.mem.inMap → u.mem.inMap

theorem applyTx_effect (t : Tx) (s : State) : TxEffect t s (applyTx t s.popDraw) := by
  cases t with
  | read o n i => exact ⟨rfl, rfl, rfl, rfl, rfl, rfl, rfl, rfl, fun _ _ _ _ => rfl, nofun, fun _ _ => rfl, id, fun _ => id⟩
  | write o bs =>
    exact ⟨rfl, rfl, rfl, rfl, rfl, rfl, rfl, rfl, nofun, fun _ _ _ => rfl,
      fun x hx => read_devWriteBytes_other _ _ _ _ _ hx, fun h => devWriteBytes_wf h _ _ _,
      fun hm h => devWriteBytes_inMap h _ _ _ (of_decide_eq_true hm)⟩

theorem applyFailedTx_effect (t : Tx) (l : List Bool) (s : State) : TxEffect t s (applyFailedTx t l s.popDraw) := by
  cases t with
  | read o n i => exact ⟨rfl, rfl, rfl, rfl, rfl, rfl, rfl, rfl, fun _ _ _ _ => rfl, nofun, fun _ _ => rfl, id, fun _ => id⟩
  | write o bs =>
    exact ⟨rfl, rfl, rfl, rfl, rfl, rfl, rfl, rfl, nofun, fun _ _ _ => rfl,
      fun x hx => read_devWriteLanded_other _ _ _ _ _ _ hx, fun h => devWriteLanded_wf h _ _ _ _,
      fun hm h => devWriteLanded_inMap h _ _ _ _ (of_decide_eq_true hm)⟩

theorem byteList_length {α : Type} (bs : List α) (j : Nat) : j + (bs[j]?).toList.length ≤ max j bs.length := by
  cases h : bs[j]? with
  | none => simp only [Option.toList, List.length_nil]; omega
  | some b =>
    have := (List.getElem?_eq_some_iff.mp h).1
    simp
    omega

theorem byteList_inMap {bs : List Byte} {o j : Nat} (hm : (Tx.write o bs).inMap = true) (hj : j < bs.length) :
    o + j + (bs[j]?).toList.length ≤ 0x13 := by
  have h1 : o + bs.length ≤ 0x13 := of_decide_eq_true hm
  have h2 := byteList_length bs j
  omega

/-- One byte of a transaction, any byte of it. -/
theorem applyTxByte_effect {t : Tx} {j : Nat} (d : BusDraw) (s : State) :
    TxEffect t s (applyTxByte t j d s.popDraw) := by
  cases t with
  | read o n i =>
    cases d <;>
      exact ⟨rfl, rfl, rfl, rfl, rfl, rfl, rfl, rfl, fun _ _ _ _ => rfl, nofun, fun _ _ => rfl, id, fun _ => id⟩
  | write o bs =>
    by_cases hj : j < bs.length
    · have hb := byteList_length bs j
      cases d with
      | ok =>
        exact ⟨rfl, rfl, rfl, rfl, rfl, rfl, rfl, rfl, nofun, fun _ _ _ => rfl,
          fun x hx => read_devWriteBytes_other _ _ _ _ _ (by simp only [Tx.offset, Tx.count] at hx; omega),
          fun h => devWriteBytes_wf h _ _ _, fun hm h => devWriteBytes_inMap h _ _ _ (byteList_inMap hm hj)⟩
      | fail l =>
        exact ⟨rfl, rfl, rfl, rfl, rfl, rfl, rfl, rfl, nofun, fun _ _ _ => rfl,
          fun x hx => read_devWriteLanded_other _ _ _ _ _ _ (by simp only [Tx.offset, Tx.count] at hx; omega),
          fun h => devWriteLanded_wf h _ _ _ _, fun hm h => devWriteLanded_inMap h _ _ _ _ (byteList_inMap hm hj)⟩
    · have hn : bs[j]? = none := List.getElem?_eq_none (by omega)
      have e : applyTxByte (.write o bs) j d s.popDraw = s.popDraw := by
        cases d <;> (simp [applyTxByte, hn, devWriteBytes, devWriteLanded]; rfl)
      rw [e]
      exact ⟨rfl, rfl, rfl, rfl, rfl, rfl, rfl, rfl, nofun, fun _ _ _ => rfl, fun _ _ => rfl, id, fun _ => id⟩

theorem TxEffect.withBurst {t : Tx} {s u : State} (h : TxEffect t s u) (n : Nat) (b : Bool) :
    TxEffect t s { u with burst := n, burstLost := b } :=
  ⟨h.phase, h.cmd, h.k, h.fld, h.rsp, h.params, h.busRest, h.inputs, h.read_mem, h.write_scr, h.reg_other, h.wf, h.inMap⟩

/-- The three ways a transaction's step ends: it succeeded and K advances, it failed and the command ends with BUS_FAIL, or
it is a burst that moves byte by byte with bytes still to move. -/
theorem transact_cases (c : Command) (t : Tx) (s : State) :
    ∃ u, TxEffect t s u ∧
      (transact c t s = finishIfDone c (advanceK u) ∧
        (s.params.burstAtomic = true ∧ u.burst = s.burst ∧ u.burstLost = s.burstLost ∨
          u.burst = 0 ∧ u.burstLost = false) ∨
       transact c t s = finishWith .busFail s.k 0 u ∨
       transact c t s = u ∧ s.burst + 1 < t.count ∧ u.burst = s.burst + 1) := by
  unfold transact
  split
  · next ha =>
    unfold transactWhole
    split
    · exact ⟨_, applyTx_effect t s, .inl ⟨rfl, .inl ⟨ha, by simp, by simp⟩⟩⟩
    · next l _ => exact ⟨_, applyFailedTx_effect t l s, .inr (.inl (by simp))⟩
  · have he := applyTxByte_effect (t := t) (j := s.burst) s.nextDraw s
    unfold transactByte
    simp only
    split
    · next hb => exact ⟨_, he.withBurst _ _, .inr (.inr ⟨rfl, hb, rfl⟩)⟩
    · split
      · exact ⟨_, he, .inr (.inl (by simp))⟩
      · exact ⟨_, he.withBurst 0 false, .inl ⟨rfl, .inr ⟨rfl, rfl⟩⟩⟩

end Sys2Proof.Machine
end

