-- ==== Sys2Proof/Laws/Step.lean ====
section
/-! SUPPORT. Everything one step of a run can do, said once. -/

namespace Sys2Proof.Machine

theorem nextMove_busy {s : State} (hp : s.phase = .busy)
    (hi : s.inputs = [] ∨ (∃ w l, s.inputs = .host w :: l) ∨ ∃ d l, s.inputs = .bus d :: l) : nextMove s = busyMove s := by
  unfold nextMove
  rcases hi with h | ⟨w, l, h⟩ | ⟨d, l, h⟩ <;> rw [h, hp]

/-- The host's issue of a command. -/
structure Issued (s t : State) (w : CmdWord) (i : Instr) : Prop where
  idle : s.phase = .idle
  input : s.inputs = .host w :: s.popInput.inputs
  decodes : decode w = .ok i
  runs : exec i (latchCommand w s.popInput) = .next t

/-- A sequencer step of the command in CMD. -/
structure Sequenced (s t : State) (i : Instr) : Prop where
  busy : s.phase = .busy
  input : s.inputs = [] ∨ (∃ w l, s.inputs = .host w :: l) ∨ ∃ d l, s.inputs = .bus d :: l
  decodes : decode s.cmd = .ok i
  runs : exec i s = .next t

/-- The reset of a BUSY block. -/
structure Abandoned (s t : State) (d : ResetDraw) (i : Instr) (u : State) : Prop where
  busy : s.phase = .busy
  input : s.inputs = .reset d :: s.popInput.inputs
  decodes : decode s.cmd = .ok i
  runs : exec i (inFlight d s.popInput) = .next u
  result : t = { resetBlock d u with inputs := s.popInput.inputs }

/-- The agents' steps that leave a state. -/
theorem step_cases {s t : State} (h : step s = .next t) :
    (∃ w i, Issued s t w i) ∨
    (∃ w op, s.phase = .idle ∧ s.inputs = .host w :: s.popInput.inputs ∧ decode w = .error (.reservedOpcode op) ∧
      t = issueReserved (latchCommand w s.popInput)) ∨
    (∃ i, Sequenced s t i) ∨
    (∃ n d1 d2, s.inputs = .tick n d1 d2 :: s.popInput.inputs ∧ tickEnabled s = true ∧
      t = tickStep n d1 d2 s.popInput) ∨
    (∃ d1 d2, s.inputs = .matchStep d1 d2 :: s.popInput.inputs ∧ s.params.matchAnytime = true ∧
      t = compareStep d1 d2 s.popInput) ∨
    (∃ m l, s.inputs = .temp m l :: s.popInput.inputs ∧ t = tempStep m l s.popInput) ∨
    (∃ c st, s.inputs = .vol c st :: s.popInput.inputs ∧ t = volStep c st s.popInput) ∨
    (∃ d, s.inputs = .reset d :: s.popInput.inputs ∧ (s.phase = .busy → ∃ e, decode s.cmd = .error e) ∧
      t = resetBlock d s.popInput) ∨
    (∃ d i u, Abandoned s t d i u) := by
  unfold step at h
  cases hi : s.inputs with
  | nil =>
    cases hp : s.phase with
    | idle => simp [nextMove, hi, hp] at h
    | busy =>
      rw [nextMove_busy hp (.inl hi)] at h
      cases hd : decode s.cmd with
      | ok i => simp only [busyMove, hd] at h; exact .inr (.inr (.inl ⟨i, hp, .inl hi, hd, h⟩))
      | error e => simp [busyMove, hd] at h
  | cons x l =>
    have hpop : s.popInput.inputs = l := by simp [hi]
    rw [hpop]
    cases x with
    | host w =>
      cases hp : s.phase with
      | idle =>
        have hn : nextMove s = .issue w s.popInput := by simp [nextMove, hi, hp]
        rw [hn] at h
        cases hd : decode w with
        | ok i => simp only [hd] at h; exact .inl ⟨w, i, hp, by rw [hpop, hi], hd, h⟩
        | error e =>
          obtain ⟨op⟩ := e
          simp only [hd] at h
          exact .inr (.inl ⟨w, op, rfl, rfl, hd, (Host.Outcome.next.inj h).symm⟩)
      | busy =>
        rw [nextMove_busy hp (.inr (.inl ⟨w, l, hi⟩))] at h
        cases hd : decode s.cmd with
        | ok i => simp only [busyMove, hd] at h; exact .inr (.inr (.inl ⟨i, hp, .inr (.inl ⟨w, l, hi⟩), hd, h⟩))
        | error e => simp [busyMove, hd] at h
    | bus d =>
      cases hp : s.phase with
      | idle => simp [nextMove, hi, hp] at h
      | busy =>
        rw [nextMove_busy hp (.inr (.inr ⟨d, l, hi⟩))] at h
        cases hd : decode s.cmd with
        | ok i => simp only [busyMove, hd] at h; exact .inr (.inr (.inl ⟨i, hp, .inr (.inr ⟨d, l, hi⟩), hd, h⟩))
        | error e => simp [busyMove, hd] at h
    | tick n d1 d2 =>
      have hn : nextMove s = ifEnabled (tickEnabled s) (tickStep n d1 d2 s.popInput) := by simp [nextMove, hi]
      rw [hn] at h
      cases he : tickEnabled s with
      | false => simp [ifEnabled, he] at h
      | true =>
        simp only [ifEnabled, he, if_true] at h
        exact .inr (.inr (.inr (.inl ⟨n, d1, d2, rfl, rfl, (Host.Outcome.next.inj h).symm⟩)))
    | matchStep d1 d2 =>
      have hn : nextMove s = ifEnabled s.params.matchAnytime (compareStep d1 d2 s.popInput) := by simp [nextMove, hi]
      rw [hn] at h
      cases he : s.params.matchAnytime with
      | false => simp [ifEnabled, he] at h
      | true =>
        simp only [ifEnabled, he, if_true] at h
        exact .inr (.inr (.inr (.inr (.inl ⟨d1, d2, rfl, rfl, (Host.Outcome.next.inj h).symm⟩))))
    | temp m b =>
      have hn : nextMove s = .done (tempStep m b s.popInput) := by simp [nextMove, hi]
      rw [hn] at h
      exact .inr (.inr (.inr (.inr (.inr (.inl ⟨m, b, rfl, (Host.Outcome.next.inj h).symm⟩)))))
    | vol c st =>
      have hn : nextMove s = .done (volStep c st s.popInput) := by simp [nextMove, hi]
      rw [hn] at h
      exact .inr (.inr (.inr (.inr (.inr (.inr (.inl ⟨c, st, rfl, (Host.Outcome.next.inj h).symm⟩))))))
    | reset d =>
      have hn : nextMove s = resetMove d s.popInput := by simp [nextMove, hi]
      rw [hn] at h
      cases hp : s.phase with
      | idle =>
        simp only [resetMove, State.popInput_phase, hp] at h
        exact .inr (.inr (.inr (.inr (.inr (.inr (.inr (.inl
          ⟨d, rfl, by simp, (Host.Outcome.next.inj h).symm⟩)))))))
      | busy =>
        cases hd : decode s.cmd with
        | error e =>
          simp only [resetMove, State.popInput_phase, hp, State.popInput_cmd, hd] at h
          exact .inr (.inr (.inr (.inr (.inr (.inr (.inr (.inl
            ⟨d, rfl, fun _ => ⟨e, rfl⟩, (Host.Outcome.next.inj h).symm⟩)))))))
        | ok i =>
          simp only [resetMove, State.popInput_phase, hp, State.popInput_cmd, hd] at h
          cases hu : exec i (inFlight d s.popInput) with
          | next u =>
            simp only [hu, abandonWith] at h
            exact .inr (.inr (.inr (.inr (.inr (.inr (.inr (.inr
              ⟨d, i, u, hp, by rw [hpop, hi], hd, hu, (Host.Outcome.next.inj h).symm⟩)))))))
          | fault f => simp [hu, abandonWith] at h
          | refused r => simp [hu, abandonWith] at h

end Sys2Proof.Machine
end

