-- ==== Sys2Proof/Machine/Assembler.lean ====
section
/-! DEFINITION. The assembler of 30_encoding.md R85 and R86: one line of text to the instructions it stands for. It is no
part of a step; `encode` then gives each instruction its word. -/

namespace Sys2Proof.Machine

/-- An operand as it is written: a number, or a name such as PM. -/
inductive AsmOperand where
  | num (v : Int)
  | name (s : List Char)
deriving DecidableEq, Repr

/-! Words of a line. -/

/-- The line up to its comment, which starts with `;`. -/
def dropComment : List Char → List Char
  | [] => []
  | c :: cs => if c = ';' then [] else c :: dropComment cs

/-- Spaces, tabs and commas stand between words. -/
def isSeparator (c : Char) : Bool := c = ' ' || c = '\t' || c = ','

/-- The words of a line; `w` is the word being read, last character first. -/
def splitWords (w : List Char) : List Char → List (List Char)
  | [] => if w.isEmpty then [] else [w.reverse]
  | c :: cs =>
    if isSeparator c then (if w.isEmpty then splitWords [] cs else w.reverse :: splitWords [] cs)
    else splitWords (c :: w) cs

/-! Numbers: decimal, or hexadecimal with `0x`. -/

def digitOf (base : Nat) (c : Char) : Option Nat :=
  let n := c.toNat
  let d :=
    if 0x30 ≤ n ∧ n ≤ 0x39 then n - 0x30
    else if 0x41 ≤ n ∧ n ≤ 0x46 then n - 0x41 + 10
    else if 0x61 ≤ n ∧ n ≤ 0x66 then n - 0x61 + 10
    else 16
  if d < base then some d else none

def digitsOf (base : Nat) : Nat → List Char → Option Nat
  | v, [] => some v
  | v, c :: cs =>
    match digitOf base c with
    | some d => digitsOf base (base * v + d) cs
    | none => none

def naturalOf : List Char → Option Nat
  | '0' :: 'x' :: c :: cs => digitsOf 16 0 (c :: cs)
  | c :: cs => digitsOf 10 0 (c :: cs)
  | [] => none

/-- A written operand. Only SETAGE's may be negative (R85). -/
def operandOfWord (w : List Char) : AsmOperand :=
  match w with
  | '-' :: cs => match naturalOf cs with | some n => .num (-(n : Int)) | none => .name w
  | cs => match naturalOf cs with | some n => .num n | none => .name w

/-! Operand values. A number that does not fit its field's width is no operand. -/

def asUnsigned (w : Nat) : AsmOperand → Option (BitVec w)
  | .num v => if 0 ≤ v ∧ v < 2 ^ w then some (BitVec.ofInt w v) else none
  | .name _ => none

def asByte : AsmOperand → Option Byte := asUnsigned 8
def asYear : AsmOperand → Option (BitVec 16) := asUnsigned 16

/-- SETAGE's operand, -128..127. -/
def asSigned : AsmOperand → Option Byte
  | .num v => if -128 ≤ v ∧ v ≤ 127 then some (BitVec.ofInt 8 v) else none
  | .name _ => none

/-- `SETHMODE 12` or `SETHMODE 24`: 1 = 12-hour (R73). -/
def asMode : AsmOperand → Option Bool
  | .num v => if v = 12 then some true else if v = 24 then some false else none
  | .name _ => none

/-- One of two names, the first of them 1. -/
def asChoice (one zero : List Char) : AsmOperand → Option Bool
  | .name s => if s = one then some true else if s = zero then some false else none
  | .num _ => none

def asMeridiem : AsmOperand → Option Bool := asChoice ['P', 'M'] ['A', 'M']
def asForm : AsmOperand → Option Bool := asChoice ['H', '1', '2'] ['H', '2', '4']

/-- SETOUT's modes by name (R74, R85). -/
def asOutMode : AsmOperand → Option Byte
  | .name ['I', 'N', 'T'] => some 0
  | .name ['S', 'Q', 'W', '0'] => some 1
  | .name ['S', 'Q', 'W', '1'] => some 2
  | .name ['S', 'Q', 'W', '2'] => some 3
  | .name ['S', 'Q', 'W', '3'] => some 4
  | _ => none

/-! How a mnemonic takes its operands, in the order of R85's table. -/

def noOperand (i : Instr) : List AsmOperand → Option Instr
  | [] => some i
  | _ => none

def oneOperand {α : Type} (read : AsmOperand → Option α) (f : α → Instr) : List AsmOperand → Option Instr
  | [a] => (read a).map f
  | _ => none

def twoBytes (f : Byte → Byte → Instr) : List AsmOperand → Option Instr
  | [a, b] => (asByte a).bind fun x => (asByte b).map (f x)
  | _ => none

def threeBytes (f : Byte → Byte → Byte → Instr) : List AsmOperand → Option Instr
  | [a, b, c] => (asByte a).bind fun x => (asByte b).bind fun y => (asByte c).map (f x y)
  | _ => none

def fourBytes (f : Byte → Byte → Byte → Byte → Instr) : List AsmOperand → Option Instr
  | [a, b, c, d] => (asByte a).bind fun x => threeBytes (f x) [b, c, d]
  | _ => none

/-- `SETDATE d, mo, y`. -/
def dateOperands : List AsmOperand → Option Instr
  | [d, m, y] => (asByte d).bind fun d => (asByte m).bind fun m => (asYear y).map (Instr.setdate d m)
  | _ => none

/-- `SETDT y, mo, d, w, h, m, s, H12|H24, AM|PM`. In H24 mode only AM is written (R85). -/
def fullTimeOperands : List AsmOperand → Option Instr
  | [y, mo, d, w, h, m, s, form, mer] =>
    (asYear y).bind fun y => (asByte mo).bind fun mo => (asByte d).bind fun d => (asByte w).bind fun w =>
    (asUnsigned 6 h).bind fun h => (asByte m).bind fun m => (asByte s).bind fun s => (asForm form).bind fun h12 =>
    (asMeridiem mer).bind fun pm =>
      if h12 || !pm then
        some (.setdt { year := y, month := mo, date := d, dow := w, h12 := h12, pm := pm, hour := h, minute := m, second := s })
      else none
  | _ => none

/-- The instruction a mnemonic and its operands stand for (R85). -/
def assembleCommand (mnemonic : String) (ops : List AsmOperand) : Option Instr :=
  match mnemonic with
  | "NOP" => noOperand .nop ops
  | "SETSEC" => oneOperand asByte .setsec ops
  | "SETMIN" => oneOperand asByte .setmin ops
  | "SETHOUR" => oneOperand asByte .sethour ops
  | "SETWEEK" => oneOperand asByte .setweek ops
  | "SETDAY" => oneOperand asByte .setday ops
  | "SETMONTH" => oneOperand asByte .setmonth ops
  | "SETYEAR" => oneOperand asYear .setyear ops
  | "GETSEC" => noOperand .getsec ops
  | "GETMIN" => noOperand .getmin ops
  | "GETHOUR" => noOperand .gethour ops
  | "GETWEEK" => noOperand .getweek ops
  | "GETDAY" => noOperand .getday ops
  | "GETMONTH" => noOperand .getmonth ops
  | "GETYEAR" => noOperand .getyear ops
  | "SETDATE" => dateOperands ops
  | "SETTIME" => threeBytes .settime ops
  | "SETHMODE" => oneOperand asMode .sethmode ops
  | "GETHMODE" => noOperand .gethmode ops
  | "SETMER" => oneOperand asMeridiem .setmer ops
  | "GETMER" => noOperand .getmer ops
  | "SETEPOCH" => oneOperand (asUnsigned 32) .setepoch ops
  | "GETEPOCH" => noOperand .getepoch ops
  | "START" => noOperand .start ops
  | "STOP" => noOperand .stop ops
  | "ISRUN" => noOperand .isrun ops
  | "GETDT" => noOperand .getdt ops
  | "SETDT" => fullTimeOperands ops
  | "SETA1S" => oneOperand asByte .seta1s ops
  | "SETA1MS" => twoBytes .seta1ms ops
  | "SETA1HMS" => threeBytes .seta1hms ops
  | "SETA1DHMS" => fourBytes .seta1dhms ops
  | "SETA2M" => oneOperand asByte .seta2m ops
  | "SETA2HM" => twoBytes .seta2hm ops
  | "SETA2DHM" => threeBytes .seta2dhm ops
  | "GETA1" => noOperand .geta1 ops
  | "GETA2" => noOperand .geta2 ops
  | "EN1" => noOperand .en1 ops
  | "EN2" => noOperand .en2 ops
  | "DIS1" => noOperand .dis1 ops
  | "DIS2" => noOperand .dis2 ops
  | "TRG1" => noOperand .trg1 ops
  | "TRG2" => noOperand .trg2 ops
  | "CLR1" => noOperand .clr1 ops
  | "CLR2" => noOperand .clr2 ops
  | "ALMPIN" => noOperand .almpin ops
  | "SETOUT" => oneOperand asOutMode .setout ops
  | "GETOUT" => noOperand .getout ops
  | "SQWPIN" => noOperand .sqwpin ops
  | "GETAGE" => noOperand .getage ops
  | "SETAGE" => oneOperand asSigned .setage ops
  | "GETTEMP" => noOperand .gettemp ops
  | _ => none

/-- Alarm 1 or alarm 2, by the one operand of R86's alarm names. -/
def byAlarm (one two : Instr) : List AsmOperand → Option Instr
  | [.num v] => if v = 1 then some one else if v = 2 then some two else none
  | _ => none

/-- The commands a pseudo-instruction expands to, in order (R86); every other mnemonic is one command (R85). -/
def assembleWords (mnemonic : String) (ops : List AsmOperand) : Option (List Instr) :=
  let one (i : Option Instr) : Option (List Instr) := i.map ([·])
  match mnemonic with
  | "SETALARM1" =>
    match ops.length with
    | 1 => one (oneOperand asByte .seta1s ops)
    | 2 => one (twoBytes .seta1ms ops)
    | 3 => one (threeBytes .seta1hms ops)
    | _ => one (fourBytes .seta1dhms ops)
  | "SETALARM2" =>
    match ops.length with
    | 1 => one (oneOperand asByte .seta2m ops)
    | 2 => one (twoBytes .seta2hm ops)
    | _ => one (threeBytes .seta2dhm ops)
  | "ENABLEALARM" => one (byAlarm .en1 .en2 ops)
  | "DISABLEALARM" => one (byAlarm .dis1 .dis2 ops)
  | "ISALARMTRIGGERED" => one (byAlarm .trg1 .trg2 ops)
  | "CLEARALARM" => one (byAlarm .clr1 .clr2 ops)
  | "SETTIME12" =>
    match ops with
    | [h, m, s, mer] =>
      (asMeridiem mer).bind fun pm => (threeBytes .settime [h, m, s]).map fun i => [.sethmode true, .setmer pm, i]
    | _ => none
  | "ENABLEALARMPIN" => one (noOperand .almpin ops)
  | "ENABLESQWEPIN" => one (noOperand .sqwpin ops)
  | "GETINTPINMODE" => one (noOperand .getout ops)
  | "GETTEMPERATURE" => one (noOperand .gettemp ops)
  | "GETAGINGOFFSET" => one (noOperand .getage ops)
  | "SETAGINGOFFSET" => one (oneOperand asSigned .setage ops)
  | "STARTCLOCK" => one (noOperand .start ops)
  | "STOPCLOCK" => one (noOperand .stop ops)
  | "ISRUNNING" => one (noOperand .isrun ops)
  | m => one (assembleCommand m ops)

/-- One line: a mnemonic and its operands, or nothing but a comment (R85). -/
def assembleLine (line : List Char) : Option (List Instr) :=
  match splitWords [] (dropComment line) with
  | [] => some []
  | m :: ops => assembleWords (String.ofList m) (ops.map operandOfWord)

end Sys2Proof.Machine
end

