-- ==== Sys2Proof/Tests/Slice0.lean ====
section
/-! SUPPORT. Tests. Every expected value is transcribed from the spec: from 95_test_vectors.md (the vector's id stands in
the test's docstring) or from the encoding tables of 30_encoding.md. After the tests, one witness for each statement that
has hypotheses. -/

namespace Sys2Proof.Tests

open Sys2Proof.Machine Sys2Proof.Claims

/-! Helpers. -/

/-- A register file that holds these bytes from `o` on, and 0x00 elsewhere. -/
def file (o : Nat) (bs : List Byte) : Memory :=
  match bs with
  | [] => []
  | b :: t => (file (o + 1) t).write o b

/-- BUSY at transaction `k`. -/
def busy (k : BitVec 4) : State := { State.reset with phase := .busy, k := k }

/-- The registers from `o` on and the scratch bytes both hold `bs`: the read of an RMW is done. -/
def afterRead (o : Nat) (bs : List Byte) : State :=
  { busy 1 with mem := file o bs, scr := fillSlots (Vector.replicate 8 0) 0 bs }

/-- What a step leaves: `n` registers from `o` on, and RSP's code and R. -/
def left (o n : Nat) : Host.Outcome State Fault Refusal → Option (List Byte × StatusCode × DWord)
  | .next t => some (readBytes t.mem o n, t.rsp.code, t.rsp.r)
  | _ => none

/-- The write of a setter over the one byte `old`: the byte after, the code and R. -/
def wrote (i : Instr) (o : Nat) (old : Byte) : Option (List Byte × StatusCode × DWord) :=
  left o 1 (exec i (afterRead o [old]))

/-- The write of a burst setter. -/
def wroteBurst (i : Instr) (o : Nat) (old : List Byte) : Option (List Byte × StatusCode × DWord) :=
  left o old.length (exec i (afterRead o old))

/-- The read of a getter: the code and R. -/
def got (i : Instr) (o : Nat) (bs : List Byte) : Option (StatusCode × DWord) :=
  match exec i { busy 0 with mem := file o bs } with
  | .next t => some (t.rsp.code, t.rsp.r)
  | _ => none

/-- RSP after issue. -/
def answered (p : Params) (w : CmdWord) : Option (Phase × Response) :=
  match step { State.reset with params := p, inputs := [.host w] } with
  | .next t => some (t.phase, t.rsp)
  | _ => none

/-- A timekeeper's step on the bytes `bs` of SEC to DATE, or to YEAR, and the registers it leaves from `o` on. -/
def ticked (m : Memory) (p : Params) (input : Input) (o n : Nat) : Option (List Byte) :=
  match step { State.reset with mem := m, params := p, inputs := [input] } with
  | .next t => some (readBytes t.mem o n)
  | _ => none

/-! Well-formedness: the one check there is. -/

theorem test_setout_five_ill_formed : (Instr.setout 5).wellFormed = false := by decide
theorem test_setout_255_ill_formed : (Instr.setout 255).wellFormed = false := by decide
theorem test_setout_four_well_formed : (Instr.setout 4).wellFormed = true := by decide
theorem test_setsec_255_well_formed : (Instr.setsec 255).wellFormed = true := by decide

/-! Decoding, one word for each constructor: the opcode of R79's map, the operand by the format's bits. -/

/-- Formats N, B8 and Y16. -/
theorem test_decode_field_setters :
    decode 0x000000000000000000 = .ok .nop ∧ decode 0x01000000000000001E = .ok (.setsec 30) ∧
    decode 0x02000000000000003B = .ok (.setmin 59) ∧ decode 0x030000000000000003 = .ok (.sethour 3) ∧
    decode 0x040000000000000007 = .ok (.setweek 7) ∧ decode 0x05000000000000001D = .ok (.setday 29) ∧
    decode 0x06000000000000000C = .ok (.setmonth 12) ∧ decode 0x0700000000000007E8 = .ok (.setyear 2024) := by
  exact ⟨rfl, rfl, rfl, rfl, rfl, rfl, rfl, rfl⟩

theorem test_decode_field_getters :
    decode 0x090000000000000000 = .ok .getsec ∧ decode 0x0A0000000000000000 = .ok .getmin ∧
    decode 0x0B0000000000000000 = .ok .gethour ∧ decode 0x0C0000000000000000 = .ok .getweek ∧
    decode 0x0D0000000000000000 = .ok .getday ∧ decode 0x0E0000000000000000 = .ok .getmonth ∧
    decode 0x0F0000000000000000 = .ok .getyear := by
  exact ⟨rfl, rfl, rfl, rfl, rfl, rfl, rfl⟩

/-- Formats DT, T3 and M1 (V27, V28, T-MODE, V30, V36). -/
theorem test_decode_compositions_and_modes :
    decode 0x10000000001D0207E8 = .ok (.setdate 29 2 2024) ∧ decode 0x110000000000030000 = .ok (.settime 3 0 0) ∧
    decode 0x120000000000000001 = .ok (.sethmode true) ∧ decode 0x120000000000000000 = .ok (.sethmode false) ∧
    decode 0x130000000000000000 = .ok .gethmode ∧ decode 0x140000000000000001 = .ok (.setmer true) ∧
    decode 0x150000000000000000 = .ok .getmer := by
  exact ⟨rfl, rfl, rfl, rfl, rfl, rfl, rfl⟩

/-- Formats E32, N and F64 (V49). -/
theorem test_decode_epoch_oscillator_batch :
    decode 0x160000000012345678 = .ok (.setepoch 0x12345678) ∧ decode 0x170000000000000000 = .ok .getepoch ∧
    decode 0x180000000000000000 = .ok .start ∧ decode 0x190000000000000000 = .ok .stop ∧
    decode 0x1A0000000000000000 = .ok .isrun ∧ decode 0x1B0000000000000000 = .ok .getdt ∧
    decode 0x1C07E8021D04C30F00 = .ok (.setdt ⟨2024, 2, 29, 4, true, true, 3, 15, 0⟩) := by
  exact ⟨rfl, rfl, rfl, rfl, rfl, rfl, rfl⟩

/-- Format A4 (A1, A5, A7, A9, A13, A15, A17). -/
theorem test_decode_alarm_setters :
    decode 0x20000000000000001E = .ok (.seta1s 30) ∧ decode 0x210000000000000F1E = .ok (.seta1ms 15 30) ∧
    decode 0x220000000000050F1E = .ok (.seta1hms 5 15 30) ∧
    decode 0x23000000001D050F1E = .ok (.seta1dhms 29 5 15 30) ∧ decode 0x240000000000002D00 = .ok (.seta2m 45) ∧
    decode 0x250000000000070000 = .ok (.seta2hm 7 0) ∧ decode 0x260000000001000000 = .ok (.seta2dhm 1 0 0) := by
  exact ⟨rfl, rfl, rfl, rfl, rfl, rfl, rfl⟩

theorem test_decode_alarm_control :
    decode 0x280000000000000000 = .ok .geta1 ∧ decode 0x290000000000000000 = .ok .geta2 ∧
    decode 0x2A0000000000000000 = .ok .en1 ∧ decode 0x2B0000000000000000 = .ok .en2 ∧
    decode 0x2C0000000000000000 = .ok .dis1 ∧ decode 0x2D0000000000000000 = .ok .dis2 ∧
    decode 0x2E0000000000000000 = .ok .trg1 ∧ decode 0x2F0000000000000000 = .ok .trg2 ∧
    decode 0x300000000000000000 = .ok .clr1 ∧ decode 0x310000000000000000 = .ok .clr2 ∧
    decode 0x320000000000000000 = .ok .almpin := by
  exact ⟨rfl, rfl, rfl, rfl, rfl, rfl, rfl, rfl, rfl, rfl, rfl⟩

/-- Formats O8 and S8 (X2, X10), and N. -/
theorem test_decode_auxiliary :
    decode 0x380000000000000002 = .ok (.setout 2) ∧ decode 0x390000000000000000 = .ok .getout ∧
    decode 0x3A0000000000000000 = .ok .sqwpin ∧ decode 0x3B0000000000000000 = .ok .getage ∧
    decode 0x3C00000000000000FE = .ok (.setage 0xFE) ∧ decode 0x3D0000000000000000 = .ok .gettemp := by
  exact ⟨rfl, rfl, rfl, rfl, rfl, rfl⟩

/-- Q7: reserved operand bits are ignored. -/
theorem test_decode_ignores_reserved_bits : decode 0x01FFFFFFFFFFFFFF1E = .ok (.setsec 30) := rfl

/-- The ends of each range R83 reserves. -/
theorem test_decode_reserved :
    ∀ op ∈ [0x08#8, 0x1D, 0x1F, 0x27, 0x33, 0x37, 0x3E, 0xFF], decode (op ++ 0#64) = .error (.reservedOpcode op) := by
  simp only [List.forall_mem_cons]
  exact ⟨rfl, rfl, rfl, rfl, rfl, rfl, rfl, rfl, by simp⟩

/-- The table's bytes, numbered as a 72-bit word, through the host's entry (V27). -/
theorem test_decodeTableWord : decodeTableWord 72 0x10000000001D0207E8 = some (.setdate 29 2 2024) := by decide

/-! The assembler (R85, R86), on the lines and words of 95_test_vectors.md. -/

/-- The words a line assembles to. -/
def assembled (line : String) : Option (List CmdWord) := (assembleLine line.toList).map (·.map encode)

/-- V27, V49, X3, X10, P1 step 1, and a line with a comment. -/
theorem test_assembler :
    assembled "SETDATE 29, 2, 2024" = some [0x10000000001D0207E8] ∧
    assembled "SETDT 2024, 2, 29, 4, 3, 15, 0, H12, PM" = some [0x1C07E8021D04C30F00] ∧
    assembled "SETOUT SQW3" = some [0x380000000000000004] ∧ assembled "SETAGE -2" = some [0x3C00000000000000FE] ∧
    assembled "SETHMODE 12" = some [0x120000000000000001] ∧
    assembled "SETSEC 0x1E ; thirty" = some [0x01000000000000001E] ∧ assembled "; nothing" = some [] := by decide

/-- The pseudo-instructions of R86, and two lines that are none. -/
theorem test_pseudo_instructions :
    assembleLine "SETALARM1 5, 15, 30".toList = some [.seta1hms 5 15 30] ∧
    assembleLine "SETALARM2 7, 0".toList = some [.seta2hm 7 0] ∧ assembleLine "CLEARALARM 2".toList = some [.clr2] ∧
    assembleLine "SETTIME12 3, 0, 0, PM".toList = some [.sethmode true, .setmer true, .settime 3 0 0] ∧
    assembleLine "SETSEC 256".toList = none ∧ assembleLine "SETDT 2024, 2, 29, 4, 15, 15, 0, H24, PM".toList = none := by
  decide

/-! The codec (section 2.1). -/

theorem test_toBCD8 :
    toBCD8 0 = 0x00 ∧ toBCD8 9 = 0x09 ∧ toBCD8 59 = 0x59 ∧ toBCD8 99 = 0x99 ∧ toBCD8 100 = 0xA0 ∧ toBCD8 159 = 0xF9 ∧
    toBCD8 160 = 0x00 ∧ toBCD8 200 = 0x40 ∧ toBCD8 255 = 0x95 := by decide

theorem test_fromBCD8 :
    fromBCD8 0x59 = 59 ∧ fromBCD8 0x0A = 10 ∧ fromBCD8 0x7F = 85 ∧ fromBCD8 0xA0 = 100 ∧ fromBCD8 0xFF = 165 := by decide

theorem test_pack : pack 0x80 0x7F 85 = 0x85 ∧ fieldVal 0x85 0x7F = 5 := by decide

/-- `decHour` as the triple (h12, pm, val). -/
theorem test_decHour :
    [0x63, 0x23, 0x03, 0x52, 0x3F, 0x7F].map (fun b => (hourIs12 b, hourIsPm b, decHourVal b)) =
      [(true, true, 3), (false, false, 23), (false, false, 3), (true, false, 12), (false, false, 45), (true, true, 25)] := by
  decide

theorem test_encHourRel : encHourRel 23 true = 0x03 ∧ encHourRel 23 false = 0x23 ∧ encHourRel 3 true = 0x03 := by decide

theorem test_canonHour :
    [0x52, 0x72, 0x63, 0x71, 0x51, 0x23, 0x12, 0x55].map canonHour = [0, 12, 15, 23, 11, 23, 12, 3] := by decide

theorem test_encCanonHour :
    [0, 12, 15, 23, 24].map (encCanonHour · true) = [0x52, 0x72, 0x63, 0x71, 0x52] ∧
    [23, 24].map (encCanonHour · false) = [0x23, 0x24] := by decide

theorem test_year :
    [2024, 1999, 65535].map yearToReg = [0x24, 0x99, 0x35] ∧
    [0x24, 0x99, 0xFF].map (regToYear 2000) = [2024, 2099, 2165] := by decide

theorem test_dow : [7, 8, 9, 13].map encDow = [7, 0, 1, 3] ∧ decDow 0xFF = 7 := by decide

theorem test_tempQ :
    tempQ 0x18 0x80 = 98 ∧ tempQ 0xFF 0xC0 = -1 ∧ tempQ 0xE7 0x40 = -99 ∧ tempQ 0x80 0x00 = -512 ∧
    tempQ 0x7F 0xC0 = 511 ∧ tempQ 0x19 0x3F = 100 := by decide

theorem test_agingVal :
    agingVal 0xFD = 0xFFFFFFFFFFFFFFFD ∧ agingVal 0x7F = 0x7F ∧ agingVal 0x80 = 0xFFFFFFFFFFFFFF80 := by decide

theorem test_decAlarmDay :
    [0x15, 0x43, 0x7F].map (fun b => (alarmDayIsDow b, decAlarmDayVal b)) = [(false, 15), (true, 3), (true, 15)] := by
  decide

/-! The sequencer (section 2.2): issue, illegal commands, failures. -/

/-- Q1 to Q6: NOP, reserved opcodes, SETOUT 5 and 255, GETDT without `P_HAS_BATCH`. -/
theorem test_answers_at_issue :
    answered .default 0 = some (.idle, ⟨true, .ok, 0, 0⟩) ∧
    answered .default 0x080000000000000000 = some (.idle, ⟨true, .illegalOpcode, 0, 0⟩) ∧
    answered .default 0xFFFFFFFFFFFFFFFFFF = some (.idle, ⟨true, .illegalOpcode, 0, 0⟩) ∧
    answered .default 0x380000000000000005 = some (.idle, ⟨true, .illegalOperand, 0, 0⟩) ∧
    answered .default 0x3800000000000000FF = some (.idle, ⟨true, .illegalOperand, 0, 0⟩) ∧
    answered { Params.default with hasBatch := false } 0x1B0000000000000000 =
      some (.idle, ⟨true, .illegalOpcode, 0, 0⟩) := by decide

/-- Q8: SETSEC 30 fails at K = 0. -/
theorem test_setsec_fails_at_read :
    left 0x00 1 (exec (.setsec 30) { busy 0 with mem := file 0 [0x80], inputs := [.bus (.fail [])] }) =
      some ([0x80], .busFail, 0) := by decide

/-- Q9: SETSEC 30 fails at K = 1; the byte may be applied or not. -/
theorem test_setsec_fails_at_write :
    left 0x00 1 (exec (.setsec 30) { afterRead 0 [0x80] with inputs := [.bus (.fail [true])] }) =
      some ([0xB0], .busFail, 0) ∧
    left 0x00 1 (exec (.setsec 30) { afterRead 0 [0x80] with inputs := [.bus (.fail [false])] }) =
      some ([0x80], .busFail, 0) := by decide

/-! The time and mode commands (section 2.3). -/

/-- V1, V3. -/
theorem test_setsec : wrote (.setsec 30) 0 0x80 = some ([0xB0], .ok, 0x80) ∧
    wrote (.setsec 255) 0 0x00 = some ([0x15], .ok, 0x00) := by decide
/-- V4, V5. -/
theorem test_setmin : wrote (.setmin 59) 1 0x12 = some ([0x59], .ok, 0x12) ∧
    wrote (.setmin 60) 1 0x00 = some ([0x60], .ok, 0x00) := by decide
/-- V6 to V9. -/
theorem test_sethour : wrote (.sethour 3) 2 0x72 = some ([0x63], .ok, 0x72) ∧
    wrote (.sethour 23) 2 0x40 = some ([0x43], .ok, 0x40) ∧ wrote (.sethour 0) 2 0x65 = some ([0x60], .ok, 0x65) ∧
    wrote (.sethour 12) 2 0x85 = some ([0x92], .ok, 0x85) := by decide
/-- V12. -/
theorem test_setweek : wrote (.setweek 9) 3 0xF8 = some ([0xF9], .ok, 0xF8) := by decide
/-- V14. -/
theorem test_setday : wrote (.setday 45) 4 0xC1 = some ([0xC5], .ok, 0xC1) := by decide
/-- V15, V16. -/
theorem test_setmonth : wrote (.setmonth 12) 5 0x81 = some ([0x92], .ok, 0x81) ∧
    wrote (.setmonth 20) 5 0x81 = some ([0x80], .ok, 0x81) := by decide
/-- V18. -/
theorem test_setyear : wrote (.setyear 1999) 6 0x24 = some ([0x99], .ok, 0x24) := by decide

/-- V19 to V26. -/
theorem test_field_getters : got .getsec 0 [0x7F] = some (.ok, 85) ∧ got .getmin 1 [0xD9] = some (.ok, 59) ∧
    got .gethour 2 [0x52] = some (.ok, 12) ∧ got .gethour 2 [0x3F] = some (.ok, 45) ∧
    got .getweek 3 [0xFF] = some (.ok, 7) ∧ got .getday 4 [0xF1] = some (.ok, 31) ∧
    got .getmonth 5 [0x92] = some (.ok, 12) ∧ got .getyear 6 [0x24] = some (.ok, 0x7E8) := by decide

/-- V27: the last write, with the three old bytes 01 81 23 read. -/
theorem test_setdate :
    left 4 3 (exec (.setdate 29 2 2024)
      { busy 5 with mem := file 4 [0x29, 0x82, 0x23], scr := #v[0x01, 0x81, 0x23, 0, 0, 0, 0, 0] }) =
      some ([0x29, 0x82, 0x24], .ok, 0x238101) := by decide
/-- V29: the last write, with the old HOUR 23, MIN 59 and SEC 58 read in that order. -/
theorem test_settime :
    left 0 3 (exec (.settime 14 5 9)
      { busy 5 with mem := file 0 [0x58, 0x05, 0x14], scr := #v[0x23, 0x59, 0x58, 0, 0, 0, 0, 0] }) =
      some ([0x09, 0x05, 0x14], .ok, 0x585923) := by decide

/-- T-MODE, V31 to V34. -/
theorem test_sethmode : wrote (.sethmode false) 2 0x63 = some ([0x03], .ok, 0x63) ∧
    wrote (.sethmode true) 2 0x15 = some ([0x55], .ok, 0x15) ∧
    wrote (.sethmode false) 2 0x21 = some ([0x21], .ok, 0x21) ∧
    wrote (.sethmode true) 2 0xA3 = some ([0xE3], .ok, 0xA3) := by decide
/-- V36, V37. -/
theorem test_setmer : wrote (.setmer true) 2 0x43 = some ([0x63], .ok, 0x43) ∧
    wrote (.setmer false) 2 0x63 = some ([0x43], .ok, 0x63) := by decide
/-- V38: in 24-hour mode the read is the whole command. -/
theorem test_setmer_skips_its_write : got (.setmer true) 2 [0x03] = some (.ok, 0x03) := by decide
/-- V35, V39. -/
theorem test_mode_getters : got .gethmode 2 [0x63] = some (.ok, 1) ∧ got .getmer 2 [0x63] = some (.ok, 3) ∧
    got .getmer 2 [0x43] = some (.ok, 2) ∧ got .getmer 2 [0x23] = some (.ok, 0) := by decide

/-- V40 and V42, and V41: A1F set by the comparator after the read of 0x00 survives START. -/
theorem test_start_stop : wrote .start 0x0F 0x03 = some ([0x83], .ok, 0x03) ∧
    wrote .stop 0x0F 0x81 = some ([0x01], .ok, 0x81) ∧
    left 0x0F 1 (exec .start { busy 1 with mem := file 0x0F [0x01] }) = some ([0x81], .ok, 0x00) := by decide
/-- V43. -/
theorem test_isrun : got .isrun 0x0F [0x83] = some (.ok, 1) ∧ got .isrun 0x0F [0x03] = some (.ok, 0) := by decide

/-- V44: the last write of SETEPOCH, and its hour write, with FLD latched. -/
theorem test_setepoch :
    let s : State := { busy 13 with fld := ⟨2024, 2, 29, 15, 30, 0, 4⟩, scr := #v[0, 0, 0x40, 0, 0, 0, 0, 0] }
    left 6 1 (exec (.setepoch 0) s) = some ([0x24], .ok, 0x400000) ∧
    left 2 1 (exec (.setepoch 0) { s with k := 5, mem := file 2 [0x40] }) = some ([0x63], .ok, 0) := by
  decide
/-- V46: GETEPOCH's last read, of YEAR. -/
theorem test_getepoch :
    got .getepoch 0 [0x00] = some (.ok, 0) ∧
    exec .getepoch { busy 5 with mem := file 6 [0x24], scr := #v[0x00, 0x30, 0x63, 0x29, 0x02, 0, 0, 0] } =
      .next (ended .ok 0 ((Config.calJoin 2024 2 29 15 30 0).setWidth 64)
        { busy 6 with mem := file 6 [0x24], scr := #v[0x00, 0x30, 0x63, 0x29, 0x02, 0x24, 0, 0] }) :=
  ⟨by decide, rfl⟩

/-- V47, V48. -/
theorem test_getdt : got .getdt 0 [0x00, 0x00, 0x00, 0x01, 0x29, 0x82, 0x24] = some (.ok, 0x07E8021D01000000) ∧
    got .getdt 0 [0x30, 0x15, 0x63, 0x04, 0x29, 0x02, 0x24] = some (.ok, 0x07E8021D04C30F1E) := by decide
/-- V50. -/
theorem test_setdt :
    wroteBurst (.setdt ⟨2024, 2, 29, 4, false, false, 15, 15, 0⟩) 0 [0x80, 0x80, 0xE3, 0xF8, 0xC0, 0xE0, 0x00] =
      some ([0x80, 0x95, 0x95, 0xFC, 0xE9, 0xE2, 0x24], .ok, 0x0000E0C0F8E38080) := by decide

/-! The alarm commands (section 2.4). -/

/-- A2. -/
theorem test_seta1s : wroteBurst (.seta1s 0) 7 [0x12, 0x34, 0xC5, 0x47] =
    some ([0x00, 0xB4, 0xC5, 0xC7], .ok, 0x47C53412) := by decide
/-- A5. -/
theorem test_seta1ms : wroteBurst (.seta1ms 15 30) 7 [0, 0, 0, 0] = some ([0x30, 0x15, 0x80, 0x80], .ok, 0) := by decide
/-- A8, and S4 step 3. -/
theorem test_seta1hms :
    wroteBurst (.seta1hms 45 0 0) 7 [0, 0, 0, 0] = some ([0x00, 0x00, 0x05, 0x80], .ok, 0) ∧
    wroteBurst (.seta1hms 5 15 30) 7 [0x30, 0x80, 0x80, 0x80] = some ([0x30, 0x15, 0x05, 0x80], .ok, 0x80808030) := by
  decide
/-- A9. -/
theorem test_seta1dhms : wroteBurst (.seta1dhms 29 5 15 30) 7 [0xFF, 0xFF, 0xFF, 0xFF] =
    some ([0x30, 0x15, 0x05, 0x29], .ok, 0xFFFFFFFF) := by decide
/-- A13, A15, A17. -/
theorem test_alarm2_setters : wroteBurst (.seta2m 45) 0x0B [0, 0, 0] = some ([0x45, 0x80, 0x80], .ok, 0) ∧
    wroteBurst (.seta2hm 7 0) 0x0B [0, 0, 0] = some ([0x00, 0x07, 0x80], .ok, 0) ∧
    wroteBurst (.seta2dhm 1 0 0) 0x0B [0, 0, 0] = some ([0x00, 0x00, 0x01], .ok, 0) := by decide
/-- A3, A10, A11. -/
theorem test_geta1 : got .geta1 7 [0x00, 0xB4, 0xC5, 0xC7] = some (.ok, 0x0000010E47852200) ∧
    got .geta1 7 [0x30, 0x15, 0x05, 0x29] = some (.ok, 0x000004001D050F1E) ∧
    got .geta1 7 [0x30, 0x15, 0x80, 0x05] = some (.ok, 0x0000FF0405000F1E) := by decide
/-- A14, A16, A18. -/
theorem test_geta2 : got .geta2 0x0B [0x45, 0x80, 0x80] = some (.ok, 0x0000010C00002D00) ∧
    got .geta2 0x0B [0x00, 0x07, 0x80] = some (.ok, 0x0000020800070000) ∧
    got .geta2 0x0B [0x00, 0x00, 0x01] = some (.ok, 0x0000030001000000) := by decide

/-- E1 to E4. -/
theorem test_enables : wrote .en1 0x0E 0x1C = some ([0x1D], .ok, 0x1C) ∧ wrote .en2 0x0E 0x1D = some ([0x1F], .ok, 0x1D) ∧
    wrote .dis1 0x0E 0x1F = some ([0x1E], .ok, 0x1F) ∧ wrote .dis2 0x0E 0x1F = some ([0x1D], .ok, 0x1F) := by decide
/-- E5, E6. -/
theorem test_triggers : got .trg1 0x0F [0x81] = some (.ok, 1) ∧ got .trg1 0x0F [0x82] = some (.ok, 0) ∧
    got .trg2 0x0F [0x82] = some (.ok, 1) ∧ got .trg2 0x0F [0x81] = some (.ok, 0) := by decide
/-- E7, E8. -/
theorem test_clears : wrote .clr1 0x0F 0x83 = some ([0x82], .ok, 0x83) ∧ wrote .clr2 0x0F 0x83 = some ([0x81], .ok, 0x83) := by
  decide
/-- E9 and E10: A2F set after the read of 0x81. -/
theorem test_clr1_race :
    let s : State := { busy 1 with mem := file 0x0F [0x83], scr := #v[0x81, 0, 0, 0, 0, 0, 0, 0] }
    left 0x0F 1 (exec .clr1 s) = some ([0x82], .ok, 0x81) ∧
    left 0x0F 1 (exec .clr1 { s with params := { s.params with flagWsem := .plain, flagProtect := false } }) =
      some ([0x80], .ok, 0x81) := by decide
/-- E11, E12. -/
theorem test_almpin : wrote .almpin 0x0E 0x41 = some ([0x05], .ok, 0x41) ∧
    wrote .almpin 0x0E 0x5C = some ([0x1C], .ok, 0x5C) := by decide

/-- The table of the interrupt line. -/
theorem test_interrupt_line :
    [(0x05, 0x81), (0x41, 0x81), (0x06, 0x81), (0x06, 0x83), (0x04, 0x83)].map (fun p => intAsserted p.1 p.2) =
      [true, false, false, true, false] := by decide

/-- M2, M3, M8, M9, M10: alarm 1 against the time. -/
theorem test_match1 :
    let m (a t : List Byte) : Bool := match1 (file 0 (t ++ [0, 0] ++ a)).read
    m [0x30, 0x15, 0x05, 0x80] [0x30, 0x15, 0x45, 1, 1] = true ∧
    m [0x30, 0x15, 0x05, 0x80] [0x30, 0x15, 0x65, 1, 1] = false ∧
    m [0x30, 0x15, 0x05, 0x43] [0x30, 0x15, 0x05, 0x03, 9] = true ∧
    m [0x30, 0x15, 0x05, 0x43] [0x30, 0x15, 0x05, 0x04, 3] = false ∧
    m [0x30, 0x15, 0x05, 0x29] [0x30, 0x15, 0x05, 0x01, 0xE9] = true := by decide
/-- M12, M13, M14. -/
theorem test_match2 :
    let m (a t : List Byte) : Bool := match2 (file 0 (t ++ [0, 0, 0, 0, 0, 0] ++ a)).read
    m [0x00, 0x07, 0x80] [0x00, 0x00, 0x07, 1, 1] = true ∧ m [0x00, 0x07, 0x80] [0x01, 0x00, 0x07, 1, 1] = false ∧
    m [0x80, 0x80, 0x80] [0x00, 0x33, 0x11, 1, 1] = true := by decide

/-! The auxiliary commands (section 2.5). -/

/-- X1 to X4. -/
theorem test_setout : wrote (.setout 0) 0x0E 0x48 = some ([0x0C], .ok, 0x48) ∧
    wrote (.setout 2) 0x0E 0x1C = some ([0x48], .ok, 0x1C) ∧ wrote (.setout 4) 0x0E 0x07 = some ([0x5B], .ok, 0x07) ∧
    wrote (.setout 1) 0x0E 0xBF = some ([0xE3], .ok, 0xBF) := by decide
/-- X6. -/
theorem test_getout : [0x48, 0x1C, 0x18, 0x5C, 0x5B].map (fun c => got .getout 0x0E [c]) =
    [some (.ok, 0x102), some (.ok, 0x000), some (.ok, 0x004), some (.ok, 0x100), some (.ok, 0x104)] := by decide
/-- X7, X8. -/
theorem test_sqwpin : wrote .sqwpin 0x0E 0x05 = some ([0x41], .ok, 0x05) ∧
    wrote .sqwpin 0x0E 0x1C = some ([0x58], .ok, 0x1C) := by decide
/-- X9. -/
theorem test_getage : got .getage 0x10 [0xFE] = some (.ok, 0xFFFFFFFFFFFFFFFE) ∧
    got .getage 0x10 [0x00] = some (.ok, 0) := by decide
/-- X11. -/
theorem test_setage : left 0x10 1 (exec (.setage 0x7F) { busy 0 with mem := file 0x10 [0x80] }) = some ([0x7F], .ok, 0) := by
  decide
/-- X12, X14, X17. -/
theorem test_gettemp : got .gettemp 0x11 [0x18, 0x80] = some (.ok, 0x62) ∧
    got .gettemp 0x11 [0xE7, 0x40] = some (.ok, 0xFFFFFFFFFFFFFF9D) ∧
    got .gettemp 0x11 [0x19, 0x3F] = some (.ok, 0x64) := by decide

/-! The timekeeper (section 2.6), and the reset. -/

/-- The start of K1 and K2, with the oscillator running. -/
def k1Start : Memory := (file 0 [0x85, 0x00, 0x52, 0xF9, 0xC1, 0xE1, 0x24]).write 0x0F 0x80

/-- K1, K2. -/
theorem test_tick_keeps :
    ticked k1Start .default (.tick (Vector.replicate 7 0xFF) false false) 0 7 =
      some [0xFF, 0x7F, 0x7F, 0xFF, 0xFF, 0xFF, 0xFF] ∧
    ticked k1Start .default (.tick (Vector.replicate 7 0x00) false false) 0 7 =
      some [0x80, 0x00, 0x40, 0xF8, 0xC0, 0x60, 0x00] := by decide

/-- K3, K7. -/
theorem test_no_such_step :
    step { State.reset with mem := file 0x0F [0x01], inputs := [.tick (Vector.replicate 7 0) false false] } =
      .refused .inputNotEnabled ∧
    step { State.reset with params := { Params.default with matchAnytime := false }, inputs := [.matchStep true true] } =
      .refused .inputNotEnabled := ⟨rfl, rfl⟩

/-- K4, K5. -/
theorem test_vol_temp :
    ticked (file 0x0E [0x1D, 0x81]) .default (.vol 0xFF 0xFF) 0x0E 2 = some [0xBD, 0xFD] ∧
    ticked (file 0x11 [0x18, 0x80]) .default (.temp 0xE7 0x40) 0x11 2 = some [0xE7, 0x40] := by decide

/-- K6, and F2: the flag of a disabled alarm is a draw. -/
theorem test_match_step :
    ticked (file 7 [0x80, 0x80, 0x80, 0x80, 1, 0, 0, 0x01]) .default (.matchStep false false) 0x0F 1 = some [0x01] ∧
    ticked (file 7 [0x80, 0x80, 0x80, 0x80, 1, 0, 0, 0x00]) .default (.matchStep true false) 0x0F 1 = some [0x01] ∧
    ticked (file 7 [0x80, 0x80, 0x80, 0x80, 1, 0, 0, 0x00]) .default (.matchStep false false) 0x0F 1 = some [0x00] := by
  decide

/-- K8 to K11. -/
theorem test_ds3231_tick :
    let t (v : TimeBytes) : List Byte := (ds3231Tick v).toList
    t #v[0x59, 0x59, 0x51, 0x02, 0x10, 0x03, 0x24] = [0x00, 0x00, 0x72, 0x02, 0x10, 0x03, 0x24] ∧
    t #v[0x59, 0x59, 0x71, 0x02, 0x10, 0x03, 0x24] = [0x00, 0x00, 0x52, 0x03, 0x11, 0x03, 0x24] ∧
    t #v[0x59, 0x59, 0x23, 0x04, 0x28, 0x02, 0x24] = [0x00, 0x00, 0x00, 0x05, 0x29, 0x02, 0x24] ∧
    t #v[0x59, 0x59, 0x23, 0x07, 0x31, 0x12, 0x99] = [0x00, 0x00, 0x00, 0x01, 0x01, 0x81, 0x00] := by decide

theorem test_reset_memory_canonical : State.reset.mem.wf ∧ State.reset.mem.inMap := by decide

/-- R191, on a BUSY block: IDLE, K = 0, RSP clear, and the byte of SETSEC's write in flight applied, as the draw says. -/
theorem test_reset_while_busy :
    (match step { afterRead 0 [0x80] with
        cmd := 0x01000000000000001E
        inputs := [.reset ⟨0, Vector.replicate 8 0, ⟨0, 0, 0, 0, 0, 0, 0⟩, [true]⟩] } with
      | .next t => some (t.phase, t.k, t.rsp, t.reg 0)
      | _ => none) = some (.idle, 0, ⟨false, .ok, 0, 0⟩, 0xB0) := by decide

/-! Witnesses: for each statement with hypotheses, a concrete state and operands that meet them all, at the ends of the
ranges its clauses name. -/

/-- The premises of `Reads` and `Writes`, in the state `s` and in one whose transaction fails. -/
def Meets (P : State → Prop) (k n : Nat) (s : State) : Prop :=
  (P s ∧ s.At k ∧ OneStep n s ∧ s.nextDraw = .ok) ∧
  ∃ l, let f : State := { s with busRest := .fail l }
    P f ∧ f.At k ∧ OneStep n f ∧ f.nextDraw = .fail l

/-- A state meets them at every transaction, single byte or burst, when its command is not restricted. -/
theorem meets_always (k : BitVec 4) (n : Nat) : Meets always k.toNat n (busy k) :=
  ⟨⟨trivial, ⟨rfl, rfl, rfl, rfl⟩, .inr rfl, rfl⟩, [], trivial, ⟨rfl, rfl, rfl, rfl⟩, .inr rfl, rfl⟩

/-- One byte is one step with non-atomic bursts as well. -/
theorem meets_nonatomic (k : BitVec 4) :
    Meets (fun s => s.params.burstAtomic = false) k.toNat 1
      { busy k with params := { Params.default with burstAtomic := false } } :=
  ⟨⟨rfl, ⟨rfl, rfl, rfl, rfl⟩, .inl rfl, rfl⟩, [], rfl, ⟨rfl, rfl, rfl, rfl⟩, .inl rfl, rfl⟩

/-- The premises of `Opens`. -/
theorem idle_always : always State.reset ∧ State.reset.phase = .idle := ⟨trivial, rfl⟩

/-- A word with ignored bits set, and the same command with them clear. -/
theorem witness_DecodeReadsNamedBitsOnly :
    let w : CmdWord := 0x01FFFFFFFFFFFFFF1E
    let w' : CmdWord := 0x01000000000000001E
    decode w = .ok (.setsec 30) ∧ opcodeOf w' = opcodeOf w ∧
      operandOf w' &&& namedBits (.setsec 30) = operandOf w &&& namedBits (.setsec 30) := ⟨rfl, by decide, by decide⟩

/-- The ends of each reserved range, and their neighbours that are commands. -/
theorem witness_ReservedOpcodesAreTheOnesListed :
    (∀ op ∈ [0x08#8, 0x1D, 0x1F, 0x27, 0x33, 0x37, 0x3E, 0xFF], reservedOpcode op) ∧
    ∀ op ∈ [0x00#8, 0x07, 0x09, 0x1C, 0x20, 0x26, 0x28, 0x32, 0x38, 0x3D], ¬ reservedOpcode op := by
  unfold reservedOpcode; decide

/-- The three clauses, and each of the three inputs a BUSY block goes on with. -/
theorem witness_StepRunsTheDecodedCommand :
    (let s : State := { State.reset with inputs := [.host 0x090000000000000000] }
     s.phase = .idle ∧ s.inputs = .host 0x090000000000000000 :: [] ∧ decode 0x090000000000000000 = .ok .getsec) ∧
    (let s : State := { busy 0 with cmd := 0x090000000000000000 }
     s.phase = .busy ∧ decode s.cmd = .ok .getsec ∧ s.inputs = []) ∧
    (let s : State := { busy 0 with cmd := 0x090000000000000000, inputs := [.host 0] }
     s.phase = .busy ∧ decode s.cmd = .ok .getsec ∧ s.inputs = .host 0 :: []) ∧
    (let s : State := { busy 0 with cmd := 0x090000000000000000, inputs := [.bus .ok] }
     s.phase = .busy ∧ decode s.cmd = .ok .getsec ∧ s.inputs = .bus .ok :: []) ∧
    decodeTableWord 72 0x090000000000000000 = some .getsec :=
  ⟨⟨rfl, rfl, rfl⟩, ⟨rfl, rfl, rfl⟩, ⟨rfl, rfl, rfl⟩, ⟨rfl, rfl, rfl⟩, by decide⟩

/-- One legal command of each case of the answer, SETOUT's last legal mode, and a configuration without batch. -/
theorem witness_IssueOpensEveryLegalCommand :
    State.reset.phase = .idle ∧ issueLegal State.reset.params .nop = true ∧
      issueLegal State.reset.params (.setepoch 0) = true ∧ issueLegal State.reset.params (.setout 4) = true ∧
      issueLegal State.reset.params .getdt = true ∧
      issueLegal { Params.default with hasBatch := false } .getsec = true := by decide

theorem witness_NopFinishesAtIssue :
    (0 : CmdWord).extractLsb' 64 8 = 0x00 ∧ State.reset.phase = .idle := by decide

/-- Each end of each reserved range, presented to an IDLE block. -/
theorem witness_ReservedOpcodeEndsAtIssue :
    (∀ op ∈ [0x08#8, 0x1D, 0x1F, 0x27, 0x33, 0x37, 0x3E, 0xFF],
      let s : State := { State.reset with inputs := [.host (op ++ 0#64)] }
      s.phase = .idle ∧ s.inputs = .host (op ++ 0#64) :: [] ∧ reservedOpcode ((op ++ 0#64 : CmdWord).extractLsb' 64 8)) ∧
    ∀ op ∈ [0x1B#8, 0x1C],
      let s : State := { State.reset with
        params := { Params.default with hasBatch := false }, inputs := [.host (op ++ 0#64)] }
      s.phase = .idle ∧ s.inputs = .host (op ++ 0#64) :: [] ∧ s.params.hasBatch = false := by
  unfold reservedOpcode; decide

/-- Modes 5 and 255; no batch; and a command that does end with ILLEGAL_OPERAND. -/
theorem witness_IllegalCommandsEndAtIssue :
    (5 ≤ (5 : Byte).toNat ∧ 5 ≤ (255 : Byte).toNat ∧ State.reset.phase = .idle) ∧
    (let s : State := { State.reset with params := { Params.default with hasBatch := false } }
     s.params.hasBatch = false ∧ s.phase = .idle) ∧
    ∃ t, (State.reset.phase = .busy → State.reset.rsp.valid = false) ∧ exec (.setout 5) State.reset = .next t ∧
      t.rsp.valid = true ∧ t.rsp.code = .illegalOperand :=
  ⟨by decide, ⟨rfl, rfl⟩, _, fun _ => rfl, rfl, rfl, rfl⟩

/-- The longest script, and the one with a data dependent length. -/
theorem witness_EveryLegalCommandFinishes :
    State.reset.phase = .idle ∧ State.reset.params.burstAtomic = true ∧
      issueLegal State.reset.params (.setepoch 0) = true ∧ State.reset.DrawsOk (txCount (.setepoch 0)) ∧
      issueLegal State.reset.params (.setmer true) = true ∧ State.reset.DrawsOk (txCount (.setmer true)) := by
  simp [State.DrawsOk, drawsOk, txCount, headDraw, popBus, State.reset, issueLegal, Instr.wellFormed, Params.default]

/-- A failing write with its byte applied. -/
theorem witness_FailedTransactionEndsTheCommand :
    let s : State := { afterRead 0 [0x80] with inputs := [.bus (.fail [true])] }
    s.phase = .busy ∧ issueLegal s.params (.setsec 30) = true ∧ hasTransaction (.setsec 30) s = true ∧
      s.params.burstAtomic = true ∧ s.nextDraw = .fail [true] := by decide

/-- Bursts up to the last register and over STATUS, with an offset inside, before, and after the burst. -/
theorem witness_DeviceWriteRule :
    (0x11 + [1#8, 2#8].length ≤ 0x13 ∧ 0x11 ≤ 0x12 ∧ [1#8, 2#8][0x12 - 0x11]? = some 2#8 ∧ 0x10 < 0x11) ∧
    (0x0E + [1#8, 2#8].length ≤ 0x13 ∧ 0x0E ≤ 0x0F ∧ [1#8, 2#8][0x0F - 0x0E]? = some 2#8 ∧
      0x0E + [1#8, 2#8].length ≤ 0x10) := by decide

/-- BUSY at byte `j` of transaction `k`, with byte-wise bursts; its draw succeeds, or fails with `l`. -/
def byteWise (k : BitVec 4) (j : Nat) : State :=
  { busy k with params := { Params.default with burstAtomic := false }, burst := j }

/-- The first and the last byte of each length of burst, read and written, none lost or one lost before, and the byte at hand
moved or lost. -/
theorem witness_NonAtomicBurstMovesOneByte :
    (AtByte 0 2 (byteWise 0 0) ∧ AtByte 0 2 (byteWise 0 1) ∧ AtByte 0 3 (byteWise 0 2) ∧ AtByte 0 4 (byteWise 0 3) ∧
      AtByte 0 7 (byteWise 0 6) ∧ AtByte 1 3 (byteWise 1 2) ∧ AtByte 1 4 (byteWise 1 3) ∧ AtByte 1 7 (byteWise 1 6) ∧
      AtByte 0 2 { byteWise 0 1 with burstLost := true }) ∧
    (byteWise 0 1).params.hasBatch = true ∧ (byteWise 0 1).nextDraw = .ok ∧
    ({ byteWise 0 1 with busRest := .fail [true] } : State).nextDraw = .fail [true] ∧
    (alarm1Over (some 30) none none none (byteWise 1 3).slot)[(byteWise 1 3).burst]? = some 0x80 ∧
    (alarm2Over (some 45) none none (byteWise 1 2).slot)[(byteWise 1 2).burst]? = some 0x80 ∧
    (setdtBytes ⟨2024, 2, 29, 4, true, true, 3, 15, 0⟩ (byteWise 1 6).slot)[(byteWise 1 6).burst]? = some 0x24 := by
  unfold AtByte; decide

theorem witness_FieldSettersRun :
    (0x01000000000000001E : CmdWord).extractLsb' 64 8 = 0x01 ∧ (always State.reset ∧ State.reset.phase = .idle) ∧
      Meets always 0 1 (busy 0) ∧ Meets always 1 1 (busy 1) := ⟨by decide, idle_always, meets_always 0 1, meets_always 1 1⟩

theorem witness_SethourRuns :
    (0x030000000000000003 : CmdWord).extractLsb' 64 8 = 0x03 ∧ (always State.reset ∧ State.reset.phase = .idle) ∧
      Meets always 0 1 (busy 0) ∧ Meets always 1 1 (busy 1) := ⟨by decide, idle_always, meets_always 0 1, meets_always 1 1⟩

theorem witness_FieldGettersRun :
    (0x090000000000000000 : CmdWord).extractLsb' 64 8 = 0x09 ∧ (always State.reset ∧ State.reset.phase = .idle) ∧
      Meets always 0 1 (busy 0) ∧ Meets (fun s => s.params.yearBase = 2000) 0 1 (busy 0) :=
  ⟨by decide, idle_always, meets_always 0 1,
    ⟨rfl, ⟨rfl, rfl, rfl, rfl⟩, .inr rfl, rfl⟩, [], rfl, ⟨rfl, rfl, rfl, rfl⟩, .inr rfl, rfl⟩

/-- The first transaction, a middle one and the last. -/
theorem witness_SetdateRuns :
    (0x10000000001D0207E8 : CmdWord).extractLsb' 64 8 = 0x10 ∧ Meets always 0 1 (busy 0) ∧ Meets always 3 1 (busy 3) ∧
      Meets always 5 1 (busy 5) := ⟨by decide, meets_always 0 1, meets_always 3 1, meets_always 5 1⟩

theorem witness_SettimeRuns :
    (0x110000000000030000 : CmdWord).extractLsb' 64 8 = 0x11 ∧ Meets always 0 1 (busy 0) ∧ Meets always 1 1 (busy 1) ∧
      Meets always 5 1 (busy 5) := ⟨by decide, meets_always 0 1, meets_always 1 1, meets_always 5 1⟩

theorem witness_HourModeCommandsRun :
    (0x120000000000000001 : CmdWord).extractLsb' 64 8 = 0x12 ∧ (0x130000000000000000 : CmdWord).extractLsb' 64 8 = 0x13 ∧
      Meets always 0 1 (busy 0) ∧ Meets always 1 1 (busy 1) :=
  ⟨by decide, by decide, meets_always 0 1, meets_always 1 1⟩

/-- The write's premise, 12-hour mode in the byte read. -/
theorem witness_MeridiemCommandsRun :
    (0x140000000000000001 : CmdWord).extractLsb' 64 8 = 0x14 ∧ Meets always 0 1 (busy 0) ∧
      Meets (fun s => (s.slot 0).getLsbD 6 = true) 1 1 (afterRead 2 [0x43]) :=
  ⟨by decide, meets_always 0 1, ⟨by decide, ⟨rfl, rfl, rfl, rfl⟩, .inr rfl, rfl⟩, [], by decide, ⟨rfl, rfl, rfl, rfl⟩,
    .inr rfl, rfl⟩

/-- The default place of the oscillator bit, and the other one I10 names, active low in CONTROL[7]. -/
theorem witness_OscillatorCommandsRun :
    let P (r : OscReg) (b : Fin 8) (a : Bool) (s : State) : Prop :=
      s.params.oscReg = r ∧ s.params.oscBit = b ∧ s.params.oscActive = a
    let q : Params := { Params.default with oscReg := .control, oscActive := false }
    Meets (P .status 7 true) 0 1 (busy 0) ∧ Meets (P .status 7 true) 1 1 (busy 1) ∧
      Meets (P .control 7 false) 1 1 { busy 1 with params := q } :=
  ⟨⟨⟨⟨rfl, rfl, rfl⟩, ⟨rfl, rfl, rfl, rfl⟩, .inr rfl, rfl⟩, [], ⟨rfl, rfl, rfl⟩, ⟨rfl, rfl, rfl, rfl⟩, .inr rfl, rfl⟩,
    ⟨⟨⟨rfl, rfl, rfl⟩, ⟨rfl, rfl, rfl, rfl⟩, .inr rfl, rfl⟩, [], ⟨rfl, rfl, rfl⟩, ⟨rfl, rfl, rfl, rfl⟩, .inr rfl, rfl⟩,
    ⟨⟨rfl, rfl, rfl⟩, ⟨rfl, rfl, rfl, rfl⟩, .inr rfl, rfl⟩, [], ⟨rfl, rfl, rfl⟩, ⟨rfl, rfl, rfl, rfl⟩, .inr rfl, rfl⟩

/-- The first transaction, the hour's write, and the last. -/
theorem witness_SetepochRuns :
    (0x160000000012345678 : CmdWord).extractLsb' 64 8 = 0x16 ∧ State.reset.phase = .idle ∧ Meets always 0 1 (busy 0) ∧
      Meets always 5 1 (busy 5) ∧ Meets always 13 1 (busy 13) :=
  ⟨by decide, rfl, meets_always 0 1, meets_always 5 1, meets_always 13 1⟩

theorem witness_GetepochRuns :
    (0x170000000000000000 : CmdWord).extractLsb' 64 8 = 0x17 ∧ (always State.reset ∧ State.reset.phase = .idle) ∧
      Meets always 0 1 (busy 0) ∧ Meets always 5 1 (busy 5) := ⟨by decide, idle_always, meets_always 0 1, meets_always 5 1⟩

theorem meets_batch (k : BitVec 4) : Meets (fun s => s.params.hasBatch = true) k.toNat 7 (busy k) :=
  ⟨⟨rfl, ⟨rfl, rfl, rfl, rfl⟩, .inr rfl, rfl⟩, [], rfl, ⟨rfl, rfl, rfl, rfl⟩, .inr rfl, rfl⟩

theorem witness_GetdtRuns :
    (0x1B0000000000000000 : CmdWord).extractLsb' 64 8 = 0x1B ∧
      (State.reset.params.hasBatch = true ∧ State.reset.phase = .idle) ∧
      Meets (fun s => s.params.hasBatch = true) 0 7 (busy 0) := ⟨by decide, ⟨rfl, rfl⟩, meets_batch 0⟩

theorem witness_SetdtRuns :
    (0x1C07E8021D04C30F00 : CmdWord).extractLsb' 64 8 = 0x1C ∧
      (State.reset.params.hasBatch = true ∧ State.reset.phase = .idle) ∧
      Meets (fun s => s.params.hasBatch = true) 0 7 (busy 0) ∧
      Meets (fun s => s.params.hasBatch = true) 1 7 (busy 1) := ⟨by decide, ⟨rfl, rfl⟩, meets_batch 0, meets_batch 1⟩

theorem witness_Alarm1SettersRun :
    (0x23000000001D050F1E : CmdWord).extractLsb' 64 8 = 0x23 ∧ Meets always 0 4 (busy 0) ∧ Meets always 1 4 (busy 1) :=
  ⟨by decide, meets_always 0 4, meets_always 1 4⟩

theorem witness_Alarm2SettersRun :
    (0x260000000001000000 : CmdWord).extractLsb' 64 8 = 0x26 ∧ Meets always 0 3 (busy 0) ∧ Meets always 1 3 (busy 1) :=
  ⟨by decide, meets_always 0 3, meets_always 1 3⟩

theorem witness_AlarmGettersRun :
    (0x280000000000000000 : CmdWord).extractLsb' 64 8 = 0x28 ∧ Meets always 0 4 (busy 0) ∧ Meets always 0 3 (busy 0) :=
  ⟨by decide, meets_always 0 4, meets_always 0 3⟩

theorem witness_AlarmEnableCommandsRun :
    (0x2A0000000000000000 : CmdWord).extractLsb' 64 8 = 0x2A ∧ Meets always 0 1 (busy 0) ∧ Meets always 1 1 (busy 1) :=
  ⟨by decide, meets_always 0 1, meets_always 1 1⟩

theorem witness_TriggerQueriesRun :
    (0x2E0000000000000000 : CmdWord).extractLsb' 64 8 = 0x2E ∧ Meets always 0 1 (busy 0) :=
  ⟨by decide, meets_always 0 1⟩

theorem witness_ClearCommandsRun :
    (0x300000000000000000 : CmdWord).extractLsb' 64 8 = 0x30 ∧ Meets always 0 1 (busy 0) ∧ Meets always 1 1 (busy 1) ∧
      (busy 1).params.flagProtect = true := ⟨by decide, meets_always 0 1, meets_always 1 1, rfl⟩

theorem witness_PinCommandsRun :
    (0x320000000000000000 : CmdWord).extractLsb' 64 8 = 0x32 ∧ Meets always 0 1 (busy 0) ∧ Meets always 1 1 (busy 1) :=
  ⟨by decide, meets_always 0 1, meets_always 1 1⟩

theorem witness_GetoutRuns :
    (0x390000000000000000 : CmdWord).extractLsb' 64 8 = 0x39 ∧ Meets always 0 1 (busy 0) := ⟨by decide, meets_always 0 1⟩

theorem witness_AgingCommandsRun :
    (0x3B0000000000000000 : CmdWord).extractLsb' 64 8 = 0x3B ∧ (0x3C00000000000000FE : CmdWord).extractLsb' 64 8 = 0x3C ∧
      Meets always 0 1 (busy 0) := ⟨by decide, by decide, meets_always 0 1⟩

theorem witness_GettempRuns :
    (0x3D0000000000000000 : CmdWord).extractLsb' 64 8 = 0x3D ∧ Meets always 0 2 (busy 0) := ⟨by decide, meets_always 0 2⟩

/-- A write that finishes, with a register it may not write; an issue that changes FLD; and a step that stays BUSY. -/
theorem witness_CommandStepFrame :
    (∃ t, exec (.setsec 30) (afterRead 0 [0x80]) = .next t ∧ ¬ mayWrite 0x0F (.setsec 30) 1) ∧
    (∃ t, exec (.setepoch 5) State.reset = .next t ∧ State.reset.phase = .idle) ∧
    ∃ t, exec (.setsec 30) (busy 0) = .next t ∧ t.phase = .busy ∧ (busy 0).phase = .busy := by
  refine ⟨⟨_, rfl, ?_⟩, ⟨_, rfl, rfl⟩, _, rfl, rfl, rfl⟩
  simp [mayWrite]

/-- SETSEC on SEC, SETHOUR and SETHMODE on HOUR in 12-hour mode, and STOP on STATUS. -/
theorem witness_UnrelatedBitsPreserved :
    (let s := afterRead 0 [0x80]
     s.At 1 ∧ s.nextDraw = .ok ∧ s.slot 0 = s.reg 0 ∧ (s.params.flagProtect = true → s.params.flagWsem = .w0c) ∧ ∃ t, exec (.setsec 59) s = .next t) ∧
    (let s := afterRead 2 [0x72]
     s.At 1 ∧ s.nextDraw = .ok ∧ s.slot 0 = s.reg 2 ∧ (s.params.flagProtect = true → s.params.flagWsem = .w0c) ∧ (s.reg 2).getLsbD 6 = true ∧
       (∃ t, exec (.sethour 12) s = .next t) ∧ ∃ t, exec (.sethmode false) s = .next t) ∧
    (let s := afterRead 0x0F [0x81]
     s.At 1 ∧ s.nextDraw = .ok ∧ s.slot 0 = s.reg 0x0F ∧ (s.params.flagProtect = true → s.params.flagWsem = .w0c) ∧ s.params.oscReg.offset = 0x0F ∧
       ∃ t, exec .stop s = .next t) :=
  ⟨⟨⟨rfl, rfl, rfl, rfl⟩, rfl, by decide, fun _ => rfl, _, rfl⟩,
    ⟨⟨rfl, rfl, rfl, rfl⟩, rfl, by decide, fun _ => rfl, by decide, ⟨_, rfl⟩, _, rfl⟩,
    ⟨⟨rfl, rfl, rfl, rfl⟩, rfl, by decide, fun _ => rfl, rfl, _, rfl⟩⟩

theorem witness_ExactlyOnePinFunction :
    let s := afterRead 0x0E [0x5C]
    s.At 1 ∧ s.nextDraw = .ok ∧ (∃ t, exec .almpin s = .next t) ∧ (∃ t, exec (.setout 0) s = .next t) ∧
      (∃ t, exec (.setout 1) s = .next t) ∧ (∃ t, exec (.setout 4) s = .next t) ∧ ∃ t, exec .sqwpin s = .next t :=
  ⟨⟨rfl, rfl, rfl, rfl⟩, rfl, ⟨_, rfl⟩, ⟨_, rfl⟩, ⟨_, rfl⟩, ⟨_, rfl⟩, _, rfl⟩

/-- CLR1 clearing A1F, and a MATCH setting it, both in the default flag configuration. -/
theorem witness_OnlyClearCommandsClearFlags :
    (let s : State := { afterRead 0x0F [0x83] with cmd := 0x300000000000000000 }
     FlagSafe s.params ∧ (s.reg 0x0F).getLsbD 0 = true ∧ ∃ t, step s = .next t ∧ (t.reg 0x0F).getLsbD 0 = false) ∧
    (let s : State := { State.reset with
       mem := file 7 [0x80, 0x80, 0x80, 0x80, 0, 0, 0, 0x01], inputs := [.matchStep false false] }
     FlagSafe s.params ∧ (s.reg 0x0F).getLsbD 0 = false ∧ ∃ t, step s = .next t ∧ (t.reg 0x0F).getLsbD 0 = true) :=
  ⟨⟨⟨rfl, rfl, by decide⟩, by decide, _, rfl, by decide⟩, ⟨rfl, rfl, by decide⟩, by decide, _, rfl, by decide⟩

/-- The three configurations with A2F set after the read of 0x81, and the oscillator bit in CONTROL. -/
theorem witness_FlagProtectKeepsAFlagSetInTheWindow :
    let s : State := { busy 1 with mem := file 0x0F [0x83], scr := #v[0x81, 0, 0, 0, 0, 0, 0, 0] }
    let w : State := { s with params := { Params.default with flagProtect := false } }
    let p : State := { s with params := { Params.default with flagWsem := .plain, flagProtect := false } }
    let c : State := { s with params := { Params.default with oscReg := .control, oscActive := false } }
    (s.At 1 ∧ s.nextDraw = .ok ∧ s.params.oscReg = .status ∧ 2 ≤ s.params.oscBit.val ∧ s.params.flagWsem = .w0c ∧
      s.params.flagProtect = true ∧ (∃ t, exec .clr1 s = .next t) ∧ ∃ t, exec .start s = .next t) ∧
    (w.At 1 ∧ w.nextDraw = .ok ∧ 2 ≤ w.params.oscBit.val ∧ w.params.flagWsem = .w0c ∧ w.params.flagProtect = false ∧
      ∃ t, exec .clr2 w = .next t) ∧
    (p.At 1 ∧ p.nextDraw = .ok ∧ 2 ≤ p.params.oscBit.val ∧ p.params.flagWsem = .plain ∧ p.params.flagProtect = false ∧
      ∃ t, exec .stop p = .next t) ∧
    (c.At 1 ∧ c.nextDraw = .ok ∧ c.params.oscReg = .control ∧ (∃ t, exec .clr1 c = .next t) ∧
      ∃ t, exec .start c = .next t) :=
  ⟨⟨⟨rfl, rfl, rfl, rfl⟩, rfl, rfl, by decide, rfl, rfl, ⟨_, rfl⟩, _, rfl⟩,
    ⟨⟨rfl, rfl, rfl, rfl⟩, rfl, by decide, rfl, rfl, _, rfl⟩, ⟨⟨rfl, rfl, rfl, rfl⟩, rfl, by decide, rfl, rfl, _, rfl⟩,
    ⟨rfl, rfl, rfl, rfl⟩, rfl, rfl, ⟨_, rfl⟩, _, rfl⟩

/-- The three cases of the pin. -/
theorem witness_InterruptLineRule :
    (0x05 : Byte).getLsbD 2 = true ∧
    ((0x5B : Byte).getLsbD 2 = false ∧ (0x5B : Byte).getLsbD 6 = true) ∧
    ((0x18 : Byte).getLsbD 2 = false ∧ (0x18 : Byte).getLsbD 6 = false) := by decide

/-- H4: a stale A1F, then EN1; and the same with A2F and EN2. -/
theorem witness_EnablingAStaleFlagInterruptsAtOnce :
    let s : State := { busy 1 with mem := file 0x0E [0x1C, 0x83], scr := #v[0x1C, 0, 0, 0, 0, 0, 0, 0] }
    s.At 1 ∧ s.nextDraw = .ok ∧ (s.slot 0).getLsbD 2 = true ∧ (s.reg 0x0F).getLsbD 0 = true ∧
      (s.reg 0x0F).getLsbD 1 = true ∧ (∃ t, exec .en1 s = .next t) ∧ ∃ t, exec .en2 s = .next t :=
  ⟨⟨rfl, rfl, rfl, rfl⟩, rfl, by decide, by decide, by decide, ⟨_, rfl⟩, _, rfl⟩

/-- Enabled by the oscillator bit, and by `P_TICK_WHEN_STOPPED`. -/
theorem witness_TickRule :
    let n : TimeBytes := Vector.replicate 7 0xFF
    let run (p : Params) (m : Memory) : State := { State.reset with params := p, mem := m, inputs := [.tick n true false] }
    let s := run .default k1Start
    let u := run { Params.default with tickWhenStopped := true } []
    (s.inputs = .tick n true false :: [] ∧ s.params.tickFn = .draw ∧
      (s.reg s.params.oscReg.offset).getLsbD s.params.oscBit.val = s.params.oscActive) ∧
    (u.inputs = .tick n true false :: [] ∧ u.params.tickFn = .draw ∧ u.params.tickWhenStopped = true) := by decide

theorem witness_SuppliedTickRule :
    let n : TimeBytes := Vector.replicate 7 0
    let run (p : Params) (m : Memory) : State := { State.reset with params := p, mem := m, inputs := [.tick n true false] }
    let s := run { Params.default with tickFn := .supplied } k1Start
    let u := run { Params.default with tickFn := .supplied, tickWhenStopped := true } []
    (s.inputs = .tick n true false :: [] ∧ s.params.tickFn = .supplied ∧
      (s.reg s.params.oscReg.offset).getLsbD s.params.oscBit.val = s.params.oscActive) ∧
    (u.inputs = .tick n true false :: [] ∧ u.params.tickFn = .supplied ∧ u.params.tickWhenStopped = true) := by decide

/-- K3 and K7. -/
theorem witness_DisabledTimekeeperStepsDoNotExist :
    (let s : State := { State.reset with mem := file 0x0F [0x01], inputs := [.tick (Vector.replicate 7 0) false false] }
     s.params.tickWhenStopped = false ∧
       (s.reg s.params.oscReg.offset).getLsbD s.params.oscBit.val ≠ s.params.oscActive) ∧
    (let s : State := { State.reset with
       params := { Params.default with matchAnytime := false }, inputs := [.matchStep true true] }
     s.params.matchAnytime = false ∧ s.inputs = .matchStep true true :: []) := by decide

theorem witness_MatchRule :
    let s : State := { State.reset with inputs := [.matchStep true false] }
    s.inputs = .matchStep true false :: [] ∧ s.params.matchAnytime = true := by decide

theorem witness_TemperatureAndVolatileRules :
    (let s : State := { State.reset with inputs := [.temp 0xE7 0x40] }
     s.inputs = .temp 0xE7 0x40 :: []) ∧
    (let s : State := { State.reset with inputs := [.vol 0xFF 0xFF] }
     s.inputs = .vol 0xFF 0xFF :: [] ∧ s.params.oscReg = .status ∧ s.params.oscBit = 7) := by decide

/-- One register file for each kind of each alarm, and one with an irregular mask (A11). -/
theorem witness_MaskKindsSelectTheComparedFields :
    let a (bs : List Byte) : Byte :=
      let r := (file 7 bs).read
      kind1 (maskBit (r 0x07)) (maskBit (r 0x08)) (maskBit (r 0x09)) (maskBit (r 0x0A))
    let b (bs : List Byte) : Byte :=
      let r := (file 0x0B bs).read
      kind2 (maskBit (r 0x0B)) (maskBit (r 0x0C)) (maskBit (r 0x0D))
    (a [0x80, 0x80, 0x80, 0x80] = 0 ∧ a [0x30, 0x80, 0x80, 0x80] = 1 ∧ a [0x30, 0x15, 0x80, 0x80] = 2 ∧
      a [0x30, 0x15, 0x05, 0x80] = 3 ∧ a [0x30, 0x15, 0x05, 0x29] = 4 ∧ a [0x30, 0x15, 0x80, 0x05] = 0xFF) ∧
    (b [0x80, 0x80, 0x80] = 0 ∧ b [0x45, 0x80, 0x80] = 1 ∧ b [0x00, 0x07, 0x80] = 2 ∧ b [0x00, 0x00, 0x01] = 3) := by
  decide

/-- An IDLE block, and a BUSY one with a write in flight. -/
theorem witness_BlockResetRule :
    let d : ResetDraw := ⟨1, Vector.replicate 8 1, ⟨1, 1, 1, 1, 1, 1, 1⟩, [true]⟩
    (let s : State := { State.reset with inputs := [.reset d] }
     s.inputs = .reset d :: [] ∧ s.phase = .idle) ∧
    (let s : State := { afterRead 0 [0x80] with cmd := 0x01000000000000001E, inputs := [.reset d] }
     s.inputs = .reset d :: [] ∧ s.phase = .busy ∧ s.params.burstAtomic = true ∧ decode s.cmd = .ok (.setsec 30) ∧
       issueLegal s.params (.setsec 30) = true ∧ ∃ u, exec (.setsec 30) { s with inputs := [.bus .ok] } = .next u) :=
  ⟨⟨rfl, rfl⟩, rfl, rfl, rfl, rfl, by decide, _, rfl⟩

/-- From an IDLE state, and from a BUSY one. -/
theorem witness_InvariantKeptByEveryStep :
    (let s : State := { State.reset with inputs := [.host 0x01000000000000001E] }
     Inv s ∧ ∃ t, step s = .next t) ∧
    (let s : State := { afterRead 0 [0x80] with cmd := 0x01000000000000001E }
     Inv s ∧ ∃ t, step s = .next t) := by
  refine ⟨⟨⟨by decide, by decide, ⟨fun _ => rfl, fun _ => rfl⟩, fun _ => ⟨rfl, rfl⟩, fun h => (nomatch h)⟩, _, rfl⟩,
    ⟨by decide, by decide, ⟨fun _ => rfl, fun _ => rfl⟩, fun h => (nomatch h), fun _ => ⟨rfl, by decide, rfl, by decide⟩⟩,
    _, rfl⟩

/-- The ends of the three ranges of the laws, and a BCD byte. -/
theorem witness_CodecRoundTrips :
    (0 : Byte).toNat ≤ 99 ∧ (99 : Byte).toNat ≤ 99 ∧ (159 : Byte).toNat ≤ 159 ∧ 160 ≤ (160 : Byte).toNat ∧
      160 ≤ (255 : Byte).toNat ∧ isBCD 0x99 = true := by decide

theorem witness_CanonicalHourRoundTrips : (0 : Byte).toNat < 24 ∧ (23 : Byte).toNat < 24 := by decide

/-- The ends of every field's range, in both hour modes. -/
theorem witness_FieldsRoundTrip :
    (State.reset.phase = .idle ∧ State.reset.DrawsOk 3 ∧ State.reset.params.yearBase = 2000) ∧
    ((0 : Byte).toNat ≤ 59 ∧ (59 : Byte).toNat ≤ 59 ∧ 1 ≤ (1 : Byte).toNat ∧ (7 : Byte).toNat ≤ 7 ∧
      (31 : Byte).toNat ≤ 31 ∧ (12 : Byte).toNat ≤ 12 ∧ 2000 ≤ (2000 : BitVec 16).toNat ∧
      (2099 : BitVec 16).toNat ≤ 2099) ∧
    (State.reset.reg 2).getLsbD 6 = false ∧ (23 : Byte).toNat ≤ 23 ∧
      (({ State.reset with mem := file 2 [0x40] } : State).reg 2).getLsbD 6 = true := by
  refine ⟨⟨rfl, ?_, rfl⟩, by decide⟩
  simp [State.DrawsOk, drawsOk, headDraw, popBus, State.reset]

/-- Both ends of every field, in 12-hour and in 24-hour form. -/
theorem witness_BatchRoundTrip :
    (State.reset.phase = .idle ∧ State.reset.DrawsOk 3 ∧ State.reset.params.hasBatch = true ∧
      State.reset.params.burstAtomic = true ∧ State.reset.params.yearBase = 2000) ∧
    ∀ d ∈ [(⟨2000, 1, 1, 1, true, true, 1, 0, 0⟩ : FullTime), ⟨2099, 12, 31, 7, true, false, 12, 59, 59⟩,
      ⟨2000, 1, 1, 1, false, false, 0, 0, 0⟩, ⟨2099, 12, 31, 7, false, false, 23, 59, 59⟩],
      2000 ≤ d.year.toNat ∧ d.year.toNat ≤ 2099 ∧ 1 ≤ d.month.toNat ∧ d.month.toNat ≤ 12 ∧ 1 ≤ d.date.toNat ∧
      d.date.toNat ≤ 31 ∧ 1 ≤ d.dow.toNat ∧ d.dow.toNat ≤ 7 ∧
      (if d.h12 then 1 ≤ d.hour.toNat ∧ d.hour.toNat ≤ 12 else d.hour.toNat ≤ 23 ∧ d.pm = false) ∧
      d.minute.toNat ≤ 59 ∧ d.second.toNat ≤ 59 := by
  refine ⟨⟨rfl, ?_, rfl, rfl, rfl⟩, by decide⟩
  simp [State.DrawsOk, drawsOk, headDraw, popBus, State.reset]

/-- The fields latched at the ends of their ranges. -/
theorem witness_EpochRoundTrip :
    ∀ f ∈ [(⟨2000, 1, 1, 0, 0, 0, 1⟩ : EpochFields), ⟨2099, 12, 31, 23, 59, 59, 7⟩],
      let s : State := { busy 0 with fld := f }
      s.At 0 ∧ s.DrawsOk 20 ∧ s.params.yearBase = 2000 ∧ 2000 ≤ f.year.toNat ∧ f.year.toNat ≤ 2099 ∧
      1 ≤ f.month.toNat ∧ f.month.toNat ≤ 12 ∧ 1 ≤ f.day.toNat ∧ f.day.toNat ≤ 31 ∧ f.hour.toNat ≤ 23 ∧
      f.minute.toNat ≤ 59 ∧ f.second.toNat ≤ 59 := by
  simp [State.At, State.DrawsOk, drawsOk, headDraw, popBus, State.reset, busy, Params.default]

/-- The ends of every field's range. -/
theorem witness_AlarmKindAfterSet :
    State.reset.phase = .idle ∧ State.reset.DrawsOk 3 ∧ State.reset.params.burstAtomic = true ∧
      (0 : Byte).toNat ≤ 31 ∧ (31 : Byte).toNat ≤ 31 ∧ (0 : Byte).toNat ≤ 23 ∧ (23 : Byte).toNat ≤ 23 ∧
      (59 : Byte).toNat ≤ 59 := by
  simp [State.DrawsOk, drawsOk, headDraw, popBus, State.reset, Params.default]

/-- 12-hour mode at the start, the clause that asks for it. -/
theorem witness_ModeSwitchDoesNotRenormalize :
    let s : State := { State.reset with mem := file 2 [0x63] }
    s.phase = .idle ∧ s.DrawsOk 3 ∧ (s.reg 2).getLsbD 6 = true := by
  refine ⟨rfl, ?_, by decide⟩
  simp [State.DrawsOk, drawsOk, headDraw, popBus, State.reset]

/-- H3: 0x51 read, 0x72 in the register by now. -/
theorem witness_RaceRestoresTheBitsRead :
    let s : State := { busy 1 with mem := file 2 [0x72], scr := #v[0x51, 0, 0, 0, 0, 0, 0, 0] }
    s.At 1 ∧ s.nextDraw = .ok ∧ (s.slot 0).getLsbD 6 = true := ⟨⟨rfl, rfl, rfl, rfl⟩, rfl, by decide⟩

end Sys2Proof.Tests
end

namespace Sys2Proof.Claims

open Sys2Proof.Machine

/-! What an instruction's step is, read off its pseudocode: the shapes `Encoded`, `Opens`, `Reads` and `Writes` from the
command's script. -/

theorem encoded_of_decodeFields {op : Byte} {f : DWord → Instr} (h : ∀ d, decodeFields op d = .ok (f d)) :
    Encoded op f := by
  rintro w rfl
  exact h (operandOf w)

/-- A command that latches nothing and has a transaction is only opened by its issue (R88). -/
theorem opens_of_command {P : State → Prop} {i : Instr} {c : Command} (hx : ∀ s, P s → exec i s = runCommand c s)
    (hc : ∀ s, P s → c.check (beginCommand s) = none) (hl : ∀ s, c.latch s = s)
    (hs : ∀ s, 0 < (c.script s).length) : Opens P i := by
  intro s hP hp
  rw [hx s hP, runCommand_idle hp, issue_opens (hc s hP) (hs _) (by rw [hl]; rfl), hl]
  rfl

/-- What follows a successful transaction `k` of `c` is what `result` says: K advances, and the command goes on or
finishes (R91, R92). -/
def FollowedBy (c : Command) (k : Nat) (result : State → Option DWord) : Prop :=
  ∀ t : State, t.k.toNat = k → finishIfDone c (advanceK t) = after (result t) t

/-- K counts up without wrapping below its last value (R18). -/
theorem advanceK_toNat {t : State} {k : Nat} (ht : t.k.toNat = k) (hk : k < 15) : (advanceK t).k.toNat = k + 1 := by
  simp only [State.advanceK_k]
  bv_omega

theorem followedBy_more {c : Command} {k : Nat} (hk : k < 15) (hs : ∀ t, k + 1 < (c.script t).length) :
    FollowedBy c k more := by
  intro t ht
  rw [finishIfDone, if_pos (by rw [advanceK_toNat ht hk]; exact hs _)]
  rfl

theorem followedBy_last {c : Command} {k : Nat} {f : State → DWord} (hk : k < 15)
    (hs : ∀ t, (c.script t).length ≤ k + 1) (hf : ∀ t, c.result (advanceK t) = f t) : FollowedBy c k (last f) := by
  intro t ht
  rw [finishIfDone, if_neg (by rw [advanceK_toNat ht hk]; exact Nat.not_lt.mpr (hs _)), hf]
  rfl

section
variable {P : State → Prop} {i : Instr} {c : Command} {k o : Nat} {result : State → Option DWord}

/-- The successor of a transaction that succeeds, and of one that fails (R91, R93). -/
theorem exec_transaction {s : State} {t : Tx} (hx : exec i s = runCommand c s) (hc : c.check s = none)
    (ht : (c.script s)[k]? = some t) (hm : t.inMap = true) (hs : s.At k) (h1 : OneStep t.count s) :
    (s.nextDraw = .ok → exec i s = .next (finishIfDone c (advanceK (applyTx t s.popDraw)))) ∧
    ∀ l, s.nextDraw = .fail l → exec i s = .next (raiseBusFail (applyFailedTx t l s.popDraw)) := by
  have ⟨hp, hk, _⟩ := hs
  have hb : exec i s = .next (transact c t s) := by
    rw [hx, runCommand_busy hp hc (by rwa [hk]) hm]
  exact ⟨fun hd => by rw [hb, transact_ok h1 hs hd], fun l hd => by rw [hb, transact_fail h1 hs hd]⟩

/-- Entry `k` of the script is a read: the transaction is `Reads`. -/
theorem reads_of_script {n slot : Nat} (hx : ∀ s, P s → exec i s = runCommand c s) (hc : ∀ s, P s → c.check s = none)
    (ht : ∀ s, (c.script s)[k]? = some (.read o n slot)) (hm : o + n ≤ 0x13) (hr : FollowedBy c k result) :
    Reads P i k o n slot result := by
  intro s hP hs h1
  have ⟨_, hk, _⟩ := hs
  obtain ⟨hok, hfail⟩ := exec_transaction (hx s hP) (hc s hP) (ht s) (decide_eq_true hm) hs h1
  exact ⟨fun hd => (hok hd).trans (congrArg _ (hr _ hk)), hfail⟩

/-- Entry `k` of the script is a write: the transaction is `Writes`. -/
theorem writes_of_script {bytes : State → List Byte} (hx : ∀ s, P s → exec i s = runCommand c s)
    (hc : ∀ s, P s → c.check s = none) (ht : ∀ s, (c.script s)[k]? = some (.write o (bytes s)))
    (hm : ∀ s, o + (bytes s).length ≤ 0x13) (hr : FollowedBy c k result) : Writes P i k o bytes result := by
  intro s hP hs h1
  have ⟨_, hk, _⟩ := hs
  obtain ⟨hok, hfail⟩ := exec_transaction (hx s hP) (hc s hP) (ht s) (decide_eq_true (hm s)) hs h1
  exact ⟨fun hd => (hok hd).trans (congrArg _ (hr _ hk)), hfail⟩

end

/-! The codec on what the two commands write and read back (R98, R99, R101, R105). -/

theorem fromBCD8_toBCD8 : ∀ v : Byte, v.toNat ≤ 99 → fromBCD8 (toBCD8 v) = v := by decide

theorem toBCD8_and_0x7F : ∀ v : Byte, v.toNat ≤ 79 → toBCD8 v &&& 0x7F = toBCD8 v := by decide

theorem toBCD8_and_0x3F : ∀ v : Byte, v.toNat ≤ 39 → toBCD8 v &&& 0x3F = toBCD8 v := by decide

theorem toBCD8_and_0x1F : ∀ v : Byte, v.toNat ≤ 19 → toBCD8 v &&& 0x1F = toBCD8 v := by decide

theorem canonHour_encCanonHour :
    ∀ (h : Byte) (h12 : Bool), h.toNat ≤ 23 → canonHour (encCanonHour h h12) = h := by decide

/-- The field of a merged byte is the field written (R101). -/
theorem merge_and (old val mask : Byte) : ((old &&& ~~~mask) ||| (val &&& mask)) &&& mask = val &&& mask := by
  ext i hi
  simp only [BitVec.getElem_and, BitVec.getElem_or, BitVec.getElem_not]
  cases old[i] <;> cases val[i] <;> cases mask[i] <;> rfl

/-- Outside STATUS an RMW writes the merged byte (R52). -/
theorem rmwByte_of_ne {o : Nat} (ho : o ≠ 0x0F) (p : Params) (mask val old : Byte) :
    rmwByte p o mask val old = (old &&& ~~~mask) ||| (val &&& mask) := by
  simp [rmwByte, flagProtected, ho]

/-- A field that an RMW writes outside STATUS reads back as written. -/
theorem fieldVal_rmwByte {o : Nat} (ho : o ≠ 0x0F) {v mask : Byte} (hv : v.toNat ≤ 99)
    (hm : toBCD8 v &&& mask = toBCD8 v) (p : Params) (old : Byte) :
    fieldVal (rmwByte p o mask (toBCD8 v) old) mask = v := by
  rw [rmwByte_of_ne ho, fieldVal, merge_and, hm, fromBCD8_toBCD8 v hv]

/-- Bit 7 of an hours register is no part of its hour (R28). -/
theorem canonHour_or_bit7 (p b : Byte) : canonHour ((p &&& 0x80) ||| b) = canonHour b := by
  have h12 : hourIs12 ((p &&& 0x80) ||| b) = hourIs12 b := by simp [hourIs12]
  have hpm : hourIsPm ((p &&& 0x80) ||| b) = hourIsPm b := by
    rw [hourIsPm, hourIsPm, h12]
    simp
  have hval : decHourVal ((p &&& 0x80) ||| b) = decHourVal b := by
    rw [decHourVal, decHourVal, h12, fieldVal, fieldVal, BitVec.and_or_distrib_right]
    cases hourIs12 b <;> simp [hmask, BitVec.and_assoc]
  simp only [canonHour, h12, hpm, hval]

/-- The canonical hour reads back in either mode (R105). -/
theorem canonHour_setHourCanon (p : Byte) {h : Byte} (hh : h.toNat ≤ 23) : canonHour (setHourCanon p h) = h := by
  rw [setHourCanon, canonHour_or_bit7, canonHour_encCanonHour h _ hh]

/-- A year of the century from 2000 reads back (R104). -/
theorem regToYear_yearToReg {y : BitVec 16} (h1 : 2000 ≤ y.toNat) (h2 : y.toNat ≤ 2099) :
    regToYear 2000 (yearToReg y) = y := by
  have hv : (BitVec.ofNat 8 (y.toNat % 100)).toNat = y.toNat % 100 := by
    rw [BitVec.toNat_ofNat]
    omega
  rw [regToYear, yearToReg, fromBCD8_toBCD8 _ (by omega)]
  apply BitVec.eq_of_toNat_eq
  rw [BitVec.toNat_add, BitVec.toNat_setWidth, hv, show (2000 : BitVec 16).toNat = 2000 from rfl]
  omega

/-- YEAR is written whole. -/
theorem rmwByte_year (p : Params) (val old : Byte) : rmwByte p 0x06 0xFF val old = val := by
  rw [rmwByte_of_ne (by decide), show (0xFF : Byte) = BitVec.allOnes 8 from rfl, BitVec.not_allOnes, BitVec.and_zero,
    BitVec.zero_or, BitVec.and_allOnes]

/-! Running a command: what the runs of several transactions follow of a state. -/

/-- FLD, the parameters, the registers and the scratch bytes of a state. -/
structure View where
  fld : EpochFields
  params : Params
  reg : Nat → Byte
  slot : Nat → Byte

def viewOf (s : State) : View := { fld := s.fld, params := s.params, reg := s.reg, slot := s.slot }

def View.setSlot (v : View) (j : Nat) (b : Byte) : View := { v with slot := fun x => if x = j then b else v.slot x }

def View.setReg (v : View) (o : Nat) (b : Byte) : View := { v with reg := fun x => if x = o then b else v.reg x }

@[simp] theorem View.setSlot_fld (v : View) (j : Nat) (b : Byte) : (v.setSlot j b).fld = v.fld := rfl
@[simp] theorem View.setSlot_params (v : View) (j : Nat) (b : Byte) : (v.setSlot j b).params = v.params := rfl
@[simp] theorem View.setSlot_reg (v : View) (j : Nat) (b : Byte) : (v.setSlot j b).reg = v.reg := rfl
@[simp] theorem View.setSlot_slot (v : View) (j : Nat) (b : Byte) (x : Nat) :
    (v.setSlot j b).slot x = if x = j then b else v.slot x := rfl
@[simp] theorem View.setReg_fld (v : View) (o : Nat) (b : Byte) : (v.setReg o b).fld = v.fld := rfl
@[simp] theorem View.setReg_params (v : View) (o : Nat) (b : Byte) : (v.setReg o b).params = v.params := rfl
@[simp] theorem View.setReg_reg (v : View) (o : Nat) (b : Byte) (x : Nat) :
    (v.setReg o b).reg x = if x = o then b else v.reg x := rfl
@[simp] theorem View.setReg_slot (v : View) (o : Nat) (b : Byte) : (v.setReg o b).slot = v.slot := rfl

/-- A byte delivered into a scratch slot changes that slot alone (R19). -/
theorem slot_fillSlots_single (s : State) {j : Nat} (hj : j < 8) (b : Byte) (x : Nat) :
    State.slot { s with scr := fillSlots s.scr j [b] } x = if x = j then b else s.slot x := by
  by_cases hx : x = j
  · subst hx
    simp [State.slot, fillSlots, hj]
  · simp [State.slot, fillSlots, hx, Vector.getElem?_setIfInBounds_ne (Ne.symm hx)]

/-- A byte stored in a register with no write rule of its own changes that register alone (R49). -/
theorem read_devWriteBytes_single (p : Params) (m : Memory) {o : Nat} (ho : o < 0x0F) (b : Byte) (x : Nat) :
    (devWriteBytes p m o [b]).read x = if x = o then b else m.read x := by
  show (devWriteByte p m o b).read x = _
  simp only [read_devWriteByte, if_neg (show ¬ o = 0x0F by omega),
    if_neg (show ¬ (o = 0x11 ∨ o = 0x12) by omega)]

/-- `s` is at transaction `k`, the next `m` transactions succeed, and `v` is what a run follows of it. -/
structure Stage (k m : Nat) (v : View) (s : State) : Prop where
  at_tx : s.At k
  draws : s.DrawsOk m
  view : viewOf s = v

/-- K advanced, the next transaction begins (R91). -/
theorem Stage.advance {k m : Nat} {v : View} {s : State} (h : Stage k m v s) (hk : k < 15) :
    Stage (k + 1) m v (after none s) := by
  obtain ⟨⟨hp, hkk, hb, hl⟩, hd, hv⟩ := h
  exact ⟨⟨hp, advanceK_toNat hkk hk, hb, hl⟩, hd, hv⟩

/-- A one-byte read that succeeds, up to what follows it. -/
theorem Reads.runs {P : State → Prop} {i : Instr} {k o j m : Nat} {result : State → Option DWord} {v : View}
    {s : State} (h : Reads P i k o 1 j result) (hP : P s) (hj : j < 8) (hs : Stage k (m + 1) v s) :
    ∃ u, exec i s = .next (after (result u) u) ∧ Stage k m (v.setSlot j (v.reg o)) u := by
  obtain ⟨hat, ⟨hok, hd⟩, rfl⟩ := hs
  refine ⟨_, (h s hP hat (.inl rfl)).1 hok, hat, hd, ?_⟩
  simp only [viewOf, View.setSlot]
  congr 1
  exact funext (slot_fillSlots_single s hj _)

/-- A one-byte write that succeeds, up to what follows it. -/
theorem Writes.runs {P : State → Prop} {i : Instr} {k o m : Nat} {b : State → Byte} {result : State → Option DWord}
    {v : View} {s : State} (h : Writes P i k o (fun s => [b s]) result) (hP : P s) (ho : o < 0x0F)
    (hs : Stage k (m + 1) v s) :
    ∃ u, exec i s = .next (after (result u) u) ∧ Stage k m (v.setReg o (b s)) u := by
  obtain ⟨hat, ⟨hok, hd⟩, rfl⟩ := hs
  refine ⟨_, (h s hP hat (.inl rfl)).1 hok, hat, hd, ?_⟩
  simp only [viewOf, View.setReg]
  congr 1
  exact funext (read_devWriteBytes_single _ _ ho _)

/-- A one-byte read that another transaction follows. -/
theorem Reads.next {P : State → Prop} {i : Instr} {k o j m : Nat} {v : View} {s : State} (h : Reads P i k o 1 j more)
    (hP : P s) (hj : j < 8) (hk : k < 15) (hs : Stage k (m + 1) v s) :
    ∃ t, exec i s = .next t ∧ Stage (k + 1) m (v.setSlot j (v.reg o)) t := by
  obtain ⟨u, hu, hs⟩ := h.runs hP hj hs
  exact ⟨_, hu, hs.advance hk⟩

theorem runsTo_append {i : Instr} {n m : Nat} {s t u : State} (h : RunsTo i n s t) (g : RunsTo i m t u) :
    RunsTo i (n + m) s u := by
  induction n generalizing s with
  | zero =>
    obtain rfl : s = t := h
    rwa [Nat.zero_add]
  | succ n ih =>
    obtain ⟨s', hx, h⟩ := h
    rw [Nat.succ_add]
    exact ⟨s', hx, ih h⟩

/-! GETEPOCH (R137). -/

/-- The pseudocode of GETEPOCH, under a name (R137). -/
def getepochCommand : Command :=
  .plain
    (fun _ => [.read 0x00 1 0, .read 0x01 1 1, .read 0x02 1 2, .read 0x04 1 3, .read 0x05 1 4, .read 0x06 1 5])
    (fun s => (Config.calJoin (regToYear s.params.yearBase (s.slot 5)) (fieldVal (s.slot 4) 0x1F)
      (fieldVal (s.slot 3) 0x3F) (canonHour (s.slot 2)) (fieldVal (s.slot 1) 0x7F)
      (fieldVal (s.slot 0) 0x7F)).setWidth 64)

theorem exec_getepoch (s : State) : exec .getepoch s = runCommand getepochCommand s := rfl

theorem getepoch_reads {k o : Nat} {result : State → Option DWord}
    (ht : ∀ s, (getepochCommand.script s)[k]? = some (.read o 1 k)) (ho : o + 1 ≤ 0x13)
    (hr : FollowedBy getepochCommand k result) : Reads always .getepoch k o 1 k result :=
  reads_of_script (fun s _ => exec_getepoch s) (fun _ _ => rfl) ht ho hr

/-- Another read follows each of the first five. -/
theorem getepoch_more {k : Nat} (hk : k < 5) : FollowedBy getepochCommand k more :=
  followedBy_more (by omega) fun _ => show k + 1 < 6 by omega

/-- Settles O23: each of the six reads is one entry of GETEPOCH's script, and the sixth is the last. -/
theorem getepochRuns : Obligations.GetepochRuns :=
  ⟨encoded_of_decodeFields fun _ => rfl,
    opens_of_command (fun s _ => exec_getepoch s) (fun _ _ => rfl) (fun _ => rfl) fun _ => Nat.succ_pos _,
    getepoch_reads (fun _ => rfl) (by decide) (getepoch_more (by decide)),
    getepoch_reads (fun _ => rfl) (by decide) (getepoch_more (by decide)),
    getepoch_reads (fun _ => rfl) (by decide) (getepoch_more (by decide)),
    getepoch_reads (fun _ => rfl) (by decide) (getepoch_more (by decide)),
    getepoch_reads (fun _ => rfl) (by decide) (getepoch_more (by decide)),
    getepoch_reads (fun _ => rfl) (by decide)
      (followedBy_last (by decide) (fun _ => Nat.le_refl _) fun _ => rfl)⟩

/-- GETEPOCH from an IDLE state whose six reads succeed joins the fields its registers hold. -/
theorem getepoch_finishes {s : State} (hp : s.phase = .idle) (hd : s.DrawsOk 6) :
    ∃ t, Finishes .getepoch 7 s t
      ((Config.calJoin (regToYear s.params.yearBase (s.reg 6)) (fieldVal (s.reg 5) 0x1F) (fieldVal (s.reg 4) 0x3F)
        (canonHour (s.reg 2)) (fieldVal (s.reg 1) 0x7F) (fieldVal (s.reg 0) 0x7F)).setWidth 64) := by
  obtain ⟨-, opens, read0, read1, read2, read3, read4, read5⟩ := getepochRuns
  have h0 : Stage 0 6 (viewOf s) (opened s) := ⟨⟨rfl, rfl, rfl, rfl⟩, hd, rfl⟩
  obtain ⟨s1, x0, h1⟩ := read0.next trivial (by decide) (by decide) h0
  obtain ⟨s2, x1, h2⟩ := read1.next trivial (by decide) (by decide) h1
  obtain ⟨s3, x2, h3⟩ := read2.next trivial (by decide) (by decide) h2
  obtain ⟨s4, x3, h4⟩ := read3.next trivial (by decide) (by decide) h3
  obtain ⟨s5, x4, h5⟩ := read4.next trivial (by decide) (by decide) h4
  obtain ⟨u, x5, h6⟩ := read5.runs trivial (by decide) h5
  have hslot : u.slot = _ := congrArg View.slot h6.view
  have hparams : u.params = s.params := congrArg View.params h6.view
  refine ⟨_, ⟨_, opens s trivial hp, _, x0, _, x1, _, x2, _, x3, _, x4, _, x5, rfl⟩, rfl, ?_⟩
  simp [last, after, ended, hslot, hparams, viewOf, regToYear]

/-! SETEPOCH (R136): register `o` of the seven time registers is read by transaction `2 * o` and written by the next. -/

/-- The byte SETEPOCH writes to register `o` over the byte `p` it read. -/
def epochByte (pr : Params) (f : EpochFields) (o : Nat) (p : Byte) : Byte :=
  match o with
  | 0 => rmwByte pr 0x00 0x7F (toBCD8 f.second) p
  | 1 => rmwByte pr 0x01 0x7F (toBCD8 f.minute) p
  | 2 => setHourCanon p f.hour
  | 3 => rmwByte pr 0x03 0x07 (toBCD8 f.dow) p
  | 4 => rmwByte pr 0x04 0x3F (toBCD8 f.day) p
  | 5 => rmwByte pr 0x05 0x1F (toBCD8 f.month) p
  | _ => rmwByte pr 0x06 0xFF (yearToReg f.year) p

/-- The pseudocode of SETEPOCH, by register (R136). -/
def setepochCommand (e : BitVec 32) : Command where
  check _ := none
  latch s := { s with fld := Config.calSplit e }
  script s := (List.range 7).flatMap fun o => [.read o 1 o, .write o [epochByte s.params s.fld o (s.slot o)]]
  result s := packBytes (s.slots 7)

theorem exec_setepoch (e : BitVec 32) (s : State) : exec (.setepoch e) s = runCommand (setepochCommand e) s := rfl

/-- Register `o`'s two entries of the script. -/
theorem setepoch_entries (e : BitVec 32) (s : State) {o : Nat} (ho : o < 7) :
    ((setepochCommand e).script s)[2 * o]? = some (.read o 1 o) ∧
    ((setepochCommand e).script s)[2 * o + 1]? = some (.write o [epochByte s.params s.fld o (s.slot o)]) := by
  match o, ho with
  | 0, _ | 1, _ | 2, _ | 3, _ | 4, _ | 5, _ | 6, _ => exact ⟨rfl, rfl⟩

theorem setepoch_reads (e : BitVec 32) {o : Nat} (ho : o < 7) : Reads always (.setepoch e) (2 * o) o 1 o more :=
  reads_of_script (fun s _ => exec_setepoch e s) (fun _ _ => rfl) (fun s => (setepoch_entries e s ho).1) (by omega)
    (followedBy_more (by omega) fun _ => show 2 * o + 1 < 14 by omega)

theorem setepoch_writes (e : BitVec 32) {o : Nat} (ho : o < 7) {result : State → Option DWord}
    (hr : FollowedBy (setepochCommand e) (2 * o + 1) result) :
    Writes always (.setepoch e) (2 * o + 1) o (fun s => [epochByte s.params s.fld o (s.slot o)]) result :=
  writes_of_script (fun s _ => exec_setepoch e s) (fun _ _ => rfl) (fun s => (setepoch_entries e s ho).2)
    (fun _ => show o + 1 ≤ 0x13 by omega) hr

/-- What a run follows once register `o` is read and written. -/
def View.setField (v : View) (o : Nat) : View :=
  (v.setSlot o (v.reg o)).setReg o (epochByte v.params v.fld o (v.reg o))

/-- What a run follows once the registers below `n` are read and written. -/
def View.setFields (v : View) : Nat → View
  | 0 => v
  | n + 1 => (v.setFields n).setField n

@[simp] theorem View.setFields_fld (v : View) (n : Nat) : (v.setFields n).fld = v.fld := by
  induction n with
  | zero => rfl
  | succ n ih => exact ih

@[simp] theorem View.setFields_params (v : View) (n : Nat) : (v.setFields n).params = v.params := by
  induction n with
  | zero => rfl
  | succ n ih => exact ih

/-- Each register below `n` holds SETEPOCH's byte over what it held, and every other is as it was. -/
theorem View.setFields_reg (v : View) (n x : Nat) :
    (v.setFields n).reg x = if x < n then epochByte v.params v.fld x (v.reg x) else v.reg x := by
  induction n with
  | zero => rfl
  | succ n ih =>
    rw [View.setFields, View.setField, View.setReg_reg]
    split
    · next h =>
      subst h
      simp [ih]
    · rw [View.setSlot_reg, ih]
      simp only [show x < n + 1 ↔ x < n by omega]

/-- The read and the write of one register, up to what follows the write. -/
theorem setepoch_field (e : BitVec 32) {o m : Nat} (ho : o < 7) {v : View} {s : State}
    {result : State → Option DWord} (hr : FollowedBy (setepochCommand e) (2 * o + 1) result)
    (hs : Stage (2 * o) (m + 2) v s) :
    ∃ u, RunsTo (.setepoch e) 2 s (after (result u) u) ∧ Stage (2 * o + 1) m (v.setField o) u := by
  obtain ⟨t, hx, ht⟩ := (setepoch_reads e ho).next trivial (by omega) (by omega) hs
  obtain ⟨u, hy, hu⟩ := (setepoch_writes e ho hr).runs trivial (by omega) ht
  have hparams : t.params = v.params := congrArg View.params ht.view
  have hfld : t.fld = v.fld := congrArg View.fld ht.view
  have hslot : t.slot o = v.reg o := (congrFun (congrArg View.slot ht.view) o).trans (if_pos rfl)
  rw [hparams, hfld, hslot] at hu
  exact ⟨u, ⟨_, hx, _, hy, rfl⟩, hu⟩

/-- The reads and writes of the registers below `n`, with more to come. -/
theorem setepoch_fields (e : BitVec 32) {n m : Nat} (hn : n < 7) {v : View} {s : State}
    (hs : Stage 0 (m + 2 * n) v s) :
    ∃ t, RunsTo (.setepoch e) (2 * n) s t ∧ Stage (2 * n) m (v.setFields n) t := by
  induction n generalizing m with
  | zero => exact ⟨s, rfl, hs⟩
  | succ n ih =>
    have hs : Stage 0 (m + 2 + 2 * n) v s := by rwa [show m + 2 + 2 * n = m + 2 * (n + 1) by omega]
    obtain ⟨t, hrun, ht⟩ := ih (by omega) hs
    obtain ⟨u, hrun', hu⟩ := setepoch_field e (by omega)
      (followedBy_more (by omega) fun _ => show 2 * n + 2 < 14 by omega) ht
    exact ⟨_, runsTo_append hrun hrun', hu.advance (by omega)⟩

/-- SETEPOCH from its first transaction on, all fourteen of them successful. -/
theorem setepoch_finishes (e : BitVec 32) {m : Nat} {s : State} (hs : s.At 0) (hd : s.DrawsOk (m + 14)) :
    ∃ t, RunsTo (.setepoch e) 14 s t ∧ t.phase = .idle ∧ t.DrawsOk m ∧ viewOf t = (viewOf s).setFields 7 := by
  obtain ⟨t, hrun, ht⟩ := setepoch_fields e (n := 6) (m := m + 2) (by decide) ⟨hs, hd, rfl⟩
  obtain ⟨u, hrun', hu⟩ := setepoch_field e (o := 6) (by decide)
    (followedBy_last (by decide) (fun _ => Nat.le_refl _) fun _ => rfl) ht
  exact ⟨_, runsTo_append hrun hrun', rfl, hu.draws, hu.view⟩

/-! The two commands together (R9). -/

/-- Settles O57: SETEPOCH's run leaves its byte in every time register, GETEPOCH's run decodes them, and the codec gives
back each field. -/
theorem epochRoundTrip : Obligations.EpochRoundTrip := by
  intro s e hat hd hbase f hy1 hy2 hm1 hm2 hday1 hday2 hhour hmin hsec
  obtain ⟨t, hset, hidle, hdt, hview⟩ := setepoch_finishes e hat hd
  obtain ⟨u, hget⟩ := getepoch_finishes hidle hdt
  have hparams : t.params = s.params := (congrArg View.params hview).trans (View.setFields_params ..)
  have hreg (x : Nat) (hx : x < 7) : t.reg x = epochByte s.params f x (s.reg x) := by
    rw [show t.reg = _ from congrArg View.reg hview, View.setFields_reg, if_pos hx]
    rfl
  refine ⟨t, u, hset, hidle, ?_⟩
  have hyear : regToYear t.params.yearBase (t.reg 6) = f.year := by
    rw [hreg 6 (by decide), hparams, hbase]
    exact (congrArg _ (rmwByte_year ..)).trans (regToYear_yearToReg hy1 hy2)
  have hmonth : fieldVal (t.reg 5) 0x1F = f.month := by
    rw [hreg 5 (by decide)]
    exact fieldVal_rmwByte (by decide) (by omega) (toBCD8_and_0x1F _ (by omega)) ..
  have hdate : fieldVal (t.reg 4) 0x3F = f.day := by
    rw [hreg 4 (by decide)]
    exact fieldVal_rmwByte (by decide) (by omega) (toBCD8_and_0x3F _ (by omega)) ..
  have hhours : canonHour (t.reg 2) = f.hour := by
    rw [hreg 2 (by decide)]
    exact canonHour_setHourCanon _ hhour
  have hminute : fieldVal (t.reg 1) 0x7F = f.minute := by
    rw [hreg 1 (by decide)]
    exact fieldVal_rmwByte (by decide) (by omega) (toBCD8_and_0x7F _ (by omega)) ..
  have hsecond : fieldVal (t.reg 0) 0x7F = f.second := by
    rw [hreg 0 (by decide)]
    exact fieldVal_rmwByte (by decide) (by omega) (toBCD8_and_0x7F _ (by omega)) ..
  rwa [hyear, hmonth, hdate, hhours, hminute, hsecond] at hget

end Sys2Proof.Claims

namespace Sys2Proof.Machine

/-! The invariant of every step (R17, R18, R21, R47, R60, R88). -/

theorem Inv.wf {s : State} (h : Inv s) : s.mem.wf := h.1

theorem Inv.inMap {s : State} (h : Inv s) : s.mem.inMap := h.2.1

/-- An IDLE state with nothing in flight meets the invariant by its registers and its response. -/
theorem inv_of_idle {s : State} (hp : s.phase = .idle) (hw : s.mem.wf) (hm : s.mem.inMap) (hr : RspOk s.rsp)
    (hb : s.burst = 0) (hl : s.burstLost = false) : Inv s :=
  ⟨hw, hm, hr, fun _ => ⟨hb, hl⟩, fun h => by simp [hp] at h⟩

/-- Every finish and every failure with a response R21 allows meets the invariant. -/
theorem inv_finishWith {s : State} (hw : s.mem.wf) (hm : s.mem.inMap) {code : StatusCode} {fidx : BitVec 4} {r : DWord}
    (hr : RspOk { valid := true, code := code, fidx := fidx, r := r }) : Inv (finishWith code fidx r s) :=
  inv_of_idle rfl hw hm hr rfl rfl

/-- A finish OK (R92), an illegal command's end (R89, R90) and BUS_FAIL (R93) each give a response R21 allows. -/
theorem rspOk_ok (r : DWord) : RspOk { valid := true, code := .ok, fidx := 0, r := r } :=
  ⟨fun _ => rfl, fun h => absurd rfl h⟩

theorem rspOk_illegal (code : StatusCode) : RspOk { valid := true, code := code, fidx := 0, r := 0 } :=
  ⟨fun _ => rfl, fun _ => rfl⟩

theorem rspOk_busFail (fidx : BitVec 4) : RspOk { valid := true, code := .busFail, fidx := fidx, r := 0 } :=
  ⟨fun h => absurd rfl h, fun _ => rfl⟩

/-- `s` is in the middle of the legal command `i`: all the invariant says of a BUSY block but the bound on K. -/
structure Running (i : Instr) (s : State) : Prop where
  busy : s.phase = .busy
  wf : s.mem.wf
  inMap : s.mem.inMap
  rsp : RspOk s.rsp
  notValid : s.rsp.valid = false
  burst : s.burst < 8
  decodes : decode s.cmd = .ok i
  legal : issueLegal s.params i = true

theorem Running.inv {i : Instr} {s : State} (h : Running i s) (hk : s.k.toNat < txCount i) : Inv s :=
  ⟨h.wf, h.inMap, h.rsp, fun hp => by simp [h.busy] at hp,
    fun _ => ⟨h.notValid, h.burst, by simp only [h.decodes]; exact ⟨h.legal, hk⟩⟩⟩

/-- A BUSY state that meets the invariant is in the middle of the command in CMD, K below its transaction count. -/
theorem Inv.running {i : Instr} {s : State} (h : Inv s) (hp : s.phase = .busy) (hd : decode s.cmd = .ok i) :
    Running i s ∧ s.k.toNat < txCount i := by
  obtain ⟨hw, hm, hr, -, hb⟩ := h
  obtain ⟨hv, hburst, hcmd⟩ := hb hp
  rw [hd] at hcmd
  obtain ⟨hlegal, hk⟩ := hcmd
  exact ⟨⟨hp, hw, hm, hr, hv, hburst, hd, hlegal⟩, hk⟩

/-- Moving bytes of a transaction inside the map leaves the command running. -/
theorem Running.moved {i : Instr} {t : Tx} {s u : State} (h : Running i s) (he : TxEffect t s u)
    (hm : t.inMap = true) (hb : u.burst < 8) : Running i u where
  busy := he.phase.trans h.busy
  wf := he.wf h.wf
  inMap := he.inMap hm h.inMap
  rsp := by rw [he.rsp]; exact h.rsp
  notValid := by rw [he.rsp]; exact h.notValid
  burst := hb
  decodes := by rw [he.cmd]; exact h.decodes
  legal := by rw [he.params]; exact h.legal

theorem Running.advanceK {i : Instr} {s : State} (h : Running i s) : Running i (advanceK s) :=
  ⟨h.busy, h.wf, h.inMap, h.rsp, h.notValid, h.burst, h.decodes, h.legal⟩

/-- A command goes on only where its script has an entry at K, and finishes OK otherwise (R92). -/
theorem Running.inv_finishIfDone {i : Instr} {c : Command} {s : State} (h : Running i s) (hf : CommandFacts i c) :
    Inv (finishIfDone c s) := by
  rcases finishIfDone_cases c s with ⟨hk, e⟩ | ⟨-, e⟩
  · rw [e]
    exact h.inv (Nat.lt_of_lt_of_le hk (hf.script_length s))
  · rw [e]
    exact inv_finishWith h.wf h.inMap (rspOk_ok _)

/-- Issue leaves the invariant: the command is illegal and ends, or is legal and runs from K = 0 (R88 to R90). -/
theorem inv_issue {i : Instr} {c : Command} {s : State} (h : Inv s) (hd : decode s.cmd = .ok i)
    (hf : CommandFacts i c) : Inv (issue c s) := by
  obtain ⟨hw, hm, hr, -, -⟩ := h
  cases hc : c.check (beginCommand s) with
  | some code =>
    rw [issue_illegal hc]
    exact inv_finishWith (s := beginCommand s) hw hm (rspOk_illegal code)
  | none =>
    have hrun : Running i (c.latch (beginCommand s)) := by
      rw [hf.latch_frame]
      exact ⟨rfl, hw, hm, hr, rfl, by simp, hd, (hf.check_none (beginCommand s)).mp hc⟩
    simpa only [issue, hc] using hrun.inv_finishIfDone hf

/-- The issue of a reserved opcode finishes at once (R89). -/
theorem inv_issueReserved {s : State} (h : Inv s) : Inv (issueReserved s) :=
  inv_finishWith (s := beginCommand s) h.wf h.inMap (rspOk_illegal _)

/-- A transaction leaves the invariant, however it ends (R91 to R93, R55). -/
theorem Running.inv_transact {i : Instr} {c : Command} {t : Tx} {s : State} (h : Running i s)
    (hk : s.k.toNat < txCount i) (hf : CommandFacts i c) (ht : TxOk t) : Inv (transact c t s) := by
  obtain ⟨hm, -, h8⟩ := ht
  obtain ⟨u, he, ⟨e, hb⟩ | e | ⟨e, hlt, hb⟩⟩ := transact_cases c t s
  · rw [e]
    have hburst : u.burst < 8 := by
      rcases hb with ⟨-, hb, -⟩ | ⟨hb, -⟩ <;> rw [hb]
      · exact h.burst
      · decide
    exact (h.moved he hm hburst).advanceK.inv_finishIfDone hf
  · rw [e]
    exact inv_finishWith (he.wf h.wf) (he.inMap hm h.inMap) (rspOk_busFail _)
  · rw [e]
    exact (h.moved he hm (by omega)).inv (by rw [he.k]; exact hk)

/-- A sequencer step of the command in CMD keeps the invariant. -/
theorem exec_keeps_inv {i : Instr} {s t : State} (h : Inv s) (hd : decode s.cmd = .ok i) (hx : exec i s = .next t) :
    Inv t := by
  obtain ⟨c, hf, -, hc⟩ := exec_command i s.params
  rw [hc s rfl] at hx
  obtain ⟨-, rfl⟩ | ⟨-, code, -, rfl⟩ | ⟨-, -, -, rfl⟩ | ⟨hp, -, tx, htx, -, rfl⟩ := runCommand_cases hx
  · exact inv_issue h hd hf
  · exact inv_finishWith h.wf h.inMap (rspOk_illegal code)
  · exact inv_finishWith h.wf h.inMap (rspOk_ok _)
  · obtain ⟨hrun, hk⟩ := h.running hp hd
    exact hrun.inv_transact hk hf (hf.script_ok s tx (List.mem_of_getElem? htx))

/-- The invariant speaks of no input. -/
theorem Inv.withInputs {s : State} (h : Inv s) (l : List Input) : Inv { s with inputs := l } := h

/-- The issue of a word meets a state with the invariant: the block was IDLE. -/
theorem inv_latchCommand {s : State} (h : Inv s) (hp : s.phase = .idle) (w : CmdWord) :
    Inv (latchCommand w s.popInput) := by
  obtain ⟨hw, hm, hr, hi, -⟩ := h
  obtain ⟨hb, hl⟩ := hi hp
  exact inv_of_idle hp hw hm hr hb hl

/-- The timekeeper's steps only write registers of the map. -/
theorem RegStep.keeps_inv {s t : State} (g : RegStep s t) (h : Inv s) : Inv t := by
  obtain ⟨hw, hm, hrest⟩ := h
  rw [g.rest]
  exact ⟨g.wf hw, g.inMap hm, hrest⟩

theorem inv_resetBlock {s : State} (h : Inv s) (d : ResetDraw) : Inv (resetBlock d s) :=
  inv_of_idle rfl h.wf h.inMap (rspOk_ok 0) rfl rfl

end Sys2Proof.Machine

namespace Sys2Proof.Claims

open Sys2Proof.Machine

/-- Settles O52: each of the agents' steps keeps the invariant, a command's step by what its script can do. -/
theorem invariantKeptByEveryStep : Obligations.InvariantKeptByEveryStep := by
  intro s t h hstep
  have hpop : Inv s.popInput := h.withInputs _
  rcases step_cases hstep with ⟨w, i, hi⟩ | ⟨w, op, hp, -, -, rfl⟩ | ⟨i, hq⟩ | ⟨n, d1, d2, -, -, rfl⟩ |
    ⟨d1, d2, -, -, rfl⟩ | ⟨m, l, -, rfl⟩ | ⟨c, st, -, rfl⟩ | ⟨d, -, -, rfl⟩ | ⟨d, i, u, ha⟩
  · exact exec_keeps_inv (inv_latchCommand h hi.idle w) hi.decodes hi.runs
  · exact inv_issueReserved (inv_latchCommand h hp w)
  · exact exec_keeps_inv h hq.decodes hq.runs
  · exact (tickStep_step n d1 d2 _).keeps_inv hpop
  · exact (compareStep_step d1 d2 _).keeps_inv hpop
  · exact (tempStep_step m l _).keeps_inv hpop
  · exact (volStep_step c st _).keeps_inv hpop
  · exact inv_resetBlock hpop d
  · have hu : Inv u := exec_keeps_inv (s := inFlight d s.popInput) (hpop.withInputs _) ha.decodes ha.runs
    rw [ha.result]
    exact (inv_resetBlock hu d).withInputs _

end Sys2Proof.Claims

namespace Sys2Proof.Machine

/-! What a step of any command can do to a register. -/

@[simp] theorem finishIfDone_mem (c : Command) (s : State) : (finishIfDone c s).mem = s.mem := by
  unfold finishIfDone
  split <;> rfl

/-- Issue changes no register (R88 to R90). -/
theorem issue_mem {c : Command} (hl : ∀ s, (c.latch s).mem = s.mem) (s : State) : (issue c s).mem = s.mem := by
  unfold issue
  split
  · rfl
  · rw [finishIfDone_mem, hl, State.beginCommand_mem]

/-- A step that answers a next state changes a register by a transaction of the script only. -/
theorem runCommand_mem {c : Command} (hl : ∀ s, (c.latch s).mem = s.mem) {s t : State}
    (h : runCommand c s = .next t) :
    t.mem = s.mem ∨
      s.phase = .busy ∧ ∃ tx, (c.script s)[s.k.toNat]? = some tx ∧ t = transact c tx s := by
  obtain ⟨-, rfl⟩ | ⟨-, code, -, rfl⟩ | ⟨-, -, -, rfl⟩ | ⟨hp, -, tx, htx, -, rfl⟩ := runCommand_cases h
  · exact .inl (issue_mem hl s)
  · exact .inl rfl
  · exact .inl rfl
  · exact .inr ⟨hp, tx, htx, rfl⟩

/-- However a transaction ends, only what its bytes moved changes the registers. -/
theorem transact_mem (c : Command) (t : Tx) (s : State) : ∃ u, TxEffect t s u ∧ (transact c t s).mem = u.mem := by
  obtain ⟨u, he, ⟨e, -⟩ | e | ⟨e, -⟩⟩ := transact_cases c t s
  · exact ⟨u, he, by rw [e, finishIfDone_mem, State.advanceK_mem]⟩
  · exact ⟨u, he, by rw [e, State.finishWith_mem]⟩
  · exact ⟨u, he, by rw [e]⟩

/-- A sequencer step of `i` leaves every register its rule does not name. -/
theorem exec_reg_of_not_mayWrite {i : Instr} {s t : State} (hx : exec i s = .next t) {a : Nat}
    (ha : ¬ mayWrite s.params.oscReg.offset i a) : t.reg a = s.reg a := by
  obtain ⟨c, hf, hw, hc⟩ := exec_command i s.params
  rw [hc s rfl] at hx
  rcases runCommand_mem (fun s => by rw [hf.latch_frame]) hx with e | ⟨-, tx, htx, rfl⟩
  · exact congrArg (Memory.read · a) e
  · obtain ⟨u, he, e⟩ := transact_mem c tx s
    have hreg : (transact c tx s).reg a = u.reg a := congrArg (Memory.read · a) e
    rw [hreg]
    cases tx with
    | read o n slot => exact congrArg (Memory.read · a) (he.read_mem o n slot rfl)
    | write o bs =>
      refine he.reg_other a (Classical.byContradiction fun h => ha ?_)
      simp only [Tx.offset, Tx.count, not_or, Nat.not_lt, Nat.not_le] at h
      obtain ⟨hlo, hhi⟩ := h
      exact hw.script s o bs (List.mem_of_getElem? htx) a hlo hhi

/-- A failed write of one byte stores it or leaves every register as it was (R49). -/
theorem devWriteLanded_single (p : Params) (m : Memory) (o : Nat) (b : Byte) (l : List Bool) :
    devWriteLanded p m o [b] l = m ∨ devWriteLanded p m o [b] l = devWriteByte p m o b := by
  rcases l with _ | ⟨_ | _, l⟩
  · exact .inl rfl
  · exact .inl (by simp [devWriteLanded])
  · exact .inr (by simp [devWriteLanded])

/-- So does moving any byte of it, delivered or lost (R55). -/
theorem applyTxByte_write_single (o : Nat) (b : Byte) (j : Nat) (d : BusDraw) (s : State) :
    (applyTxByte (.write o [b]) j d s).mem = s.mem ∨
      (applyTxByte (.write o [b]) j d s).mem = devWriteByte s.params s.mem o b := by
  cases j with
  | zero =>
    cases d with
    | ok => exact .inr rfl
    | fail l => exact devWriteLanded_single s.params s.mem o b l
  | succ j => cases d <;> exact .inl rfl

/-- The write of one byte, whole or byte by byte, failed or not, stores it by the device write rule or leaves every
register as it was (R49, R55). -/
theorem transact_write_single (c : Command) (o : Nat) (b : Byte) (s : State) :
    (transact c (.write o [b]) s).mem = s.mem ∨
      (transact c (.write o [b]) s).mem = devWriteByte s.params s.mem o b := by
  unfold transact
  split
  · unfold transactWhole
    split
    · exact .inr (finishIfDone_mem ..)
    · next l _ => exact devWriteLanded_single s.params s.mem o b l
  · have h := applyTxByte_write_single o b s.burst s.nextDraw s.popDraw
    unfold transactByte
    simp only
    split
    · exact h
    · split
      · exact h
      · rwa [finishIfDone_mem]

/-! The alarm flags under a write of STATUS (R40, R53). -/

/-- With W0C flags a bus write clears the flags it writes 0 to, and sets none (R40). -/
theorem statusAfterWrite_flag_w0c {n : Nat} (hn : n < 2) (old w : Byte) :
    (statusAfterWrite .w0c old w).getLsbD n = (old.getLsbD n && w.getLsbD n) := by
  obtain rfl | rfl : n = 0 ∨ n = 1 := by omega
  all_goals simp [statusAfterWrite]

/-- An RMW of STATUS writes to a flag in its mask the value's bit, flag-protect or not (R52, R53). -/
theorem rmwByte_flag_inside {n : Nat} (hn : n < 2) (p : Params) {mask : Byte} (hm : mask.getLsbD n = true)
    (val old : Byte) : (rmwByte p 0x0F mask val old).getLsbD n = val.getLsbD n := by
  rw [BitVec.getLsbD_eq_getElem (by omega)] at hm
  cases hp : p.flagProtect <;> simp [rmwByte, flagProtected, hp, hm, show n < 8 by omega]

/-- It writes to a flag outside its mask the bit read, and 1 under flag-protect (R52, R53). -/
theorem rmwByte_flag_outside {n : Nat} (hn : n < 2) (p : Params) {mask : Byte} (hm : mask.getLsbD n = false)
    (val old : Byte) : (rmwByte p 0x0F mask val old).getLsbD n = (old.getLsbD n || p.flagProtect) := by
  obtain rfl | rfl : n = 0 ∨ n = 1 := by omega
  all_goals
    rw [BitVec.getLsbD_eq_getElem (by decide)] at hm
    cases hp : p.flagProtect <;> simp [rmwByte, flagProtected, hp, hm]

/-! The commands that write STATUS: CLR1 and CLR2, and START and STOP where the oscillator bit is in it. -/

/-- The mask and the value of the RMW of STATUS that `i` is, if it is one (R133, R134, R163, R164). -/
def statusRmw (p : Params) : Instr → Option (Byte × Byte)
  | .clr1 => some (0x01, 0)
  | .clr2 => some (0x02, 0)
  | .start => if p.oscReg = .status then some (oscMask p, oscLevel p true) else none
  | .stop => if p.oscReg = .status then some (oscMask p, oscLevel p false) else none
  | _ => none

/-- No other command may write STATUS. -/
theorem not_mayWrite_status {p : Params} {i : Instr} (h : statusRmw p i = none) :
    ¬ mayWrite p.oscReg.offset i 0x0F := by
  cases i
  case start | stop => cases hr : p.oscReg <;> simp_all [statusRmw, mayWrite, OscReg.offset]
  case clr1 | clr2 => cases h
  all_goals simp [mayWrite]

/-- Those that do are the one RMW of STATUS. -/
theorem exec_statusRmw {i : Instr} {s : State} {mask val : Byte} (h : statusRmw s.params i = some (mask, val)) :
    exec i s = runCommand (rmwCommand 0x0F mask val) s := by
  cases i
  case clr1 | clr2 => cases h; rfl
  case start | stop =>
    cases hr : s.params.oscReg <;> simp only [statusRmw, hr, if_true, reduceCtorEq, if_false] at h
    cases h
    simp [exec, execStart, execStop, hr, OscReg.offset]
  all_goals cases h

/-- One step of an RMW leaves its register as it was, or is the write and leaves in it what the device write rule makes of
the merged byte (R49, R52). -/
theorem rmwCommand_reg {o : Nat} {mask val : Byte} {s t : State} (h : runCommand (rmwCommand o mask val) s = .next t) :
    t.reg o = s.reg o ∨
      s.phase = .busy ∧ s.k = 1 ∧
        t.reg o = (devWriteByte s.params s.mem o (rmwByte s.params o mask val (s.slot 0))).read o := by
  rcases runCommand_mem (fun _ => rfl) h with e | ⟨hp, tx, htx, rfl⟩
  · exact .inl (congrArg (Memory.read · o) e)
  · replace htx : [Tx.read o 1 0, .write o [rmwByte s.params o mask val (s.slot 0)]][s.k.toNat]? = some tx := htx
    match hk : s.k.toNat, htx with
    | 0, htx =>
      obtain rfl := Option.some.inj htx
      obtain ⟨u, he, e⟩ := transact_mem (rmwCommand o mask val) (.read o 1 0) s
      exact .inl (congrArg (Memory.read · o) (e.trans (he.read_mem o 1 0 rfl)))
    | 1, htx =>
      obtain rfl := Option.some.inj htx
      have hk1 : s.k = 1 := BitVec.eq_of_toNat_eq hk
      rcases transact_write_single (rmwCommand o mask val) o (rmwByte s.params o mask val (s.slot 0)) s with e | e
      · exact .inl (congrArg (Memory.read · o) e)
      · exact .inr ⟨hp, hk1, congrArg (Memory.read · o) e⟩

/-- STATUS after a bus write of one byte to it (R40). -/
theorem read_devWriteByte_status (p : Params) (m : Memory) (b : Byte) :
    (devWriteByte p m 0x0F b).read 0x0F = statusAfterWrite p.flagWsem (m.read 0x0F) b := by
  simp [read_devWriteByte]

/-- The oscillator bit is one bit, so it is no flag where it is above them (R39, R133). -/
theorem oscMask_flag {p : Params} (hosc : 2 ≤ p.oscBit.val) {n : Nat} (hn : n < 2) :
    (oscMask p).getLsbD n = false := by
  have hlt : ¬ p.oscBit.val ≤ n := by omega
  simp [oscMask, BitVec.getLsbD_ofNat, Nat.testBit_shiftLeft, hlt]

/-- Of the commands that write STATUS only CLR1 and CLR2 have a flag in their mask, each its own, to write 0 to, where the
oscillator bit is not on a flag. -/
theorem statusRmw_flag {p : Params} (hosc : p.oscReg = .status → 2 ≤ p.oscBit.val) {i : Instr} {mask val : Byte}
    (h : statusRmw p i = some (mask, val)) {n : Nat} (hn : n < 2) (hm : mask.getLsbD n = true) :
    i = (if n = 0 then .clr1 else .clr2) ∧ val = 0 := by
  cases i
  case clr1 | clr2 =>
    cases h
    obtain rfl | rfl : n = 0 ∨ n = 1 := by omega
    all_goals simp_all
  case start | stop =>
    cases hr : p.oscReg <;> simp only [statusRmw, hr, if_true, reduceCtorEq, if_false] at h
    cases h
    simp [oscMask_flag (hosc hr) hn] at hm
  all_goals cases h

/-- In the default flag configuration a sequencer step of `i` keeps a flag, or is the write of the CLRx that clears it. -/
theorem exec_flag {i : Instr} {s t : State} (hp : Claims.FlagSafe s.params) (hx : exec i s = .next t) {n : Nat}
    (hn : n < 2) :
    (t.reg 0x0F).getLsbD n = (s.reg 0x0F).getLsbD n ∨
      (t.reg 0x0F).getLsbD n = false ∧ s.phase = .busy ∧ s.k = 1 ∧ i = (if n = 0 then .clr1 else .clr2) := by
  obtain ⟨hsem, hprot, hosc⟩ := hp
  cases h : statusRmw s.params i with
  | none => exact .inl (by rw [exec_reg_of_not_mayWrite hx (not_mayWrite_status h)])
  | some mv =>
    obtain ⟨mask, val⟩ := mv
    rw [exec_statusRmw h] at hx
    rcases rmwCommand_reg hx with e | ⟨hbusy, hk, e⟩
    · exact .inl (by rw [e])
    · rw [e, read_devWriteByte_status, hsem, statusAfterWrite_flag_w0c hn]
      cases hm : mask.getLsbD n with
      | false => exact .inl (by rw [rmwByte_flag_outside hn _ hm, hprot, Bool.or_true, Bool.and_true]; rfl)
      | true =>
        obtain ⟨hi, rfl⟩ := statusRmw_flag (fun _ => hosc) h hn hm
        exact .inr ⟨by rw [rmwByte_flag_inside hn _ hm]; simp, hbusy, hk, hi⟩

/-! The alarm flags under the timekeeper's steps (R156, R182). -/

/-- The comparator clears no flag (R156). -/
theorem compareStep_flag (d1 d2 : Bool) (s : State) {n : Nat} (hn : n < 2)
    (h : (s.reg 0x0F).getLsbD n = true) : ((compareStep d1 d2 s).reg 0x0F).getLsbD n = true := by
  rw [reg_compareStep, if_pos rfl]
  obtain rfl | rfl : n = 0 ∨ n = 1 := by omega
  · refine (statusAfterCompare_flag1 s.reg d1 d2).trans ?_
    simp [flagAfterCompare, statusA1F, h]
  · refine (statusAfterCompare_flag2 s.reg d1 d2).trans ?_
    simp [flagAfterCompare, statusA2F, h]

/-- TICK clears no flag: its time bytes are not STATUS (R179). -/
theorem tickStep_flag (draw : TimeBytes) (d1 d2 : Bool) (s : State) {n : Nat} (hn : n < 2)
    (h : (s.reg 0x0F).getLsbD n = true) : ((tickStep draw d1 d2 s).reg 0x0F).getLsbD n = true :=
  compareStep_flag d1 d2 _ hn (by simpa [reg_tickRegs] using h)

/-- No flag is volatile (R41, R182). -/
theorem volStep_flag (c st : Byte) (s : State) {n : Nat} (hn : n < 2) :
    ((volStep c st s).reg 0x0F).getLsbD n = (s.reg 0x0F).getLsbD n := by
  rw [reg_volStep, if_pos rfl]
  obtain rfl | rfl : n = 0 ∨ n = 1 := by omega
  all_goals simp [mergeBits, statusVolatile]

theorem tempStep_status (m l : Byte) (s : State) : (tempStep m l s).reg 0x0F = s.reg 0x0F := by
  simp [reg_tempStep]

end Sys2Proof.Machine

namespace Sys2Proof.Claims

open Sys2Proof.Machine

/-- A TICK or a MATCH is next (R178). -/
def ComparatorNext (s : State) : Prop :=
  ∃ rest, (∃ new d1 d2, s.inputs = .tick new d1 d2 :: rest) ∨ (∃ d1 d2, s.inputs = .matchStep d1 d2 :: rest)

/-- What any agent's step does to a flag in the default flag configuration: it keeps it, clears it as the write of its
CLRx, or is the comparator's and does not clear it. -/
theorem step_flag {s t : State} (hp : FlagSafe s.params) (hstep : step s = .next t) {n : Nat} (hn : n < 2) :
    (t.reg 0x0F).getLsbD n = (s.reg 0x0F).getLsbD n ∨
    ((t.reg 0x0F).getLsbD n = false ∧ s.phase = .busy ∧ s.k = 1 ∧
      decode s.cmd = .ok (if n = 0 then .clr1 else .clr2)) ∨
    (((s.reg 0x0F).getLsbD n = true → (t.reg 0x0F).getLsbD n = true) ∧ ComparatorNext s) := by
  rcases step_cases hstep with ⟨w, i, hi⟩ | ⟨w, op, -, -, -, rfl⟩ | ⟨i, hq⟩ | ⟨new, d1, d2, hin, -, rfl⟩ |
    ⟨d1, d2, hin, -, rfl⟩ | ⟨m, l, -, rfl⟩ | ⟨c, st, -, rfl⟩ | ⟨d, -, -, rfl⟩ | ⟨d, i, u, ha⟩
  · rcases exec_flag (s := latchCommand w s.popInput) hp hi.runs hn with e | ⟨-, hbusy, -⟩
    · exact .inl e
    · exact absurd (hi.idle.symm.trans hbusy) (by decide)
  · exact .inl rfl
  · rcases exec_flag hp hq.runs hn with e | ⟨hc, hbusy, hk, rfl⟩
    · exact .inl e
    · exact .inr (.inl ⟨hc, hbusy, hk, hq.decodes⟩)
  · exact .inr (.inr ⟨tickStep_flag new d1 d2 s.popInput hn, _, .inl ⟨new, d1, d2, hin⟩⟩)
  · exact .inr (.inr ⟨compareStep_flag d1 d2 s.popInput hn, _, .inr ⟨d1, d2, hin⟩⟩)
  · exact .inl (by rw [tempStep_status]; rfl)
  · exact .inl (volStep_flag c st s.popInput hn)
  · exact .inl rfl
  · have hreg : t.reg 0x0F = u.reg 0x0F := by rw [ha.result]; rfl
    rw [hreg]
    rcases exec_flag (s := inFlight d s.popInput) hp ha.runs hn with e | ⟨hc, hbusy, hk, rfl⟩
    · exact .inl e
    · exact .inr (.inl ⟨hc, hbusy, hk, ha.decodes⟩)

/-- Settles O39: of what a step can do to a flag, only the CLRx's write clears it and only the comparator's step sets it. -/
theorem onlyClearCommandsClearFlags : Obligations.OnlyClearCommandsClearFlags := by
  intro s t hp hstep
  refine ⟨fun n hn hs ht => ?_, fun n hn hs ht => ?_⟩
  · rcases step_flag hp hstep hn with e | ⟨-, h⟩ | ⟨hkept, -⟩
    · simp [e, hs] at ht
    · exact h
    · simp [hkept hs] at ht
  · rcases step_flag hp hstep hn with e | ⟨hc, -⟩ | ⟨-, h⟩
    · simp [e, hs] at ht
    · simp [hc] at ht
    · exact h

/-! A flag in the window between the read and the write of an RMW of STATUS (R201). -/

/-- The write of an RMW of STATUS that succeeds (R40, R52). -/
theorem exec_status_write {i : Instr} {s t : State} {mask val : Byte} (h : statusRmw s.params i = some (mask, val))
    (hs : s.At 1) (hd : s.nextDraw = .ok) (hx : exec i s = .next t) :
    t.reg 0x0F = statusAfterWrite s.params.flagWsem (s.reg 0x0F) (rmwByte s.params 0x0F mask val (s.slot 0)) := by
  have hok := (exec_transaction (exec_statusRmw h) rfl rfl rfl hs (.inl rfl)).1 hd
  obtain rfl := Host.Outcome.next.inj (hok.symm.trans hx)
  exact (congrArg (Memory.read · 0x0F) (finishIfDone_mem ..)).trans (read_devWriteByte_status ..)

/-- A flag after that write by `P_FLAG_WSEM`, where `w` is the bit written (R40). -/
def flagAfterWrite (sem : FlagWsem) (now w : Bool) : Bool :=
  match sem with
  | .w0c => now && w
  | .plain => w

theorem statusAfterWrite_flag {n : Nat} (hn : n < 2) (sem : FlagWsem) (old w : Byte) :
    (statusAfterWrite sem old w).getLsbD n = flagAfterWrite sem (old.getLsbD n) (w.getLsbD n) := by
  cases sem with
  | w0c => exact statusAfterWrite_flag_w0c hn old w
  | plain => rfl

section
variable {i : Instr} {s t : State} {mask val : Byte} {n : Nat} (h : statusRmw s.params i = some (mask, val))
  (hs : s.At 1) (hd : s.nextDraw = .ok) (hx : exec i s = .next t) (hn : n < 2)
include h hs hd hx hn

/-- That write offers a flag outside the mask its value read, or 1 under flag-protect (R53). -/
theorem flag_outside_mask (hm : mask.getLsbD n = false) :
    (t.reg 0x0F).getLsbD n =
      flagAfterWrite s.params.flagWsem ((s.reg 0x0F).getLsbD n) ((s.slot 0).getLsbD n || s.params.flagProtect) := by
  rw [exec_status_write h hs hd hx, statusAfterWrite_flag hn, rmwByte_flag_outside hn _ hm]

/-- It offers a flag in the mask the value's bit, and 0 clears it in either semantics (R40). -/
theorem flag_in_mask (hm : mask.getLsbD n = true) (hv : val = 0) : (t.reg 0x0F).getLsbD n = false := by
  rw [exec_status_write h hs hd hx, statusAfterWrite_flag hn, rmwByte_flag_inside hn _ hm, hv]
  cases s.params.flagWsem <;> simp [flagAfterWrite]

end

/-- The commands of `keeps` in O40 for flag `n`: those that write STATUS and have the flag outside their mask. -/
theorem statusRmw_of_keeps {p : Params} (hosc : p.oscReg = .status → 2 ≤ p.oscBit.val) {i : Instr} {n : Nat}
    (h : (n = 0 ∧ i = .clr2) ∨ (n = 1 ∧ i = .clr1) ∨ (n < 2 ∧ p.oscReg = .status ∧ (i = .start ∨ i = .stop))) :
    n < 2 ∧ ∃ mask val, statusRmw p i = some (mask, val) ∧ mask.getLsbD n = false := by
  rcases h with ⟨rfl, rfl⟩ | ⟨rfl, rfl⟩ | ⟨hn, hr, rfl | rfl⟩
  · exact ⟨by decide, _, _, rfl, by decide⟩
  · exact ⟨by decide, _, _, rfl, by decide⟩
  · exact ⟨hn, _, _, if_pos hr, oscMask_flag (hosc hr) hn⟩
  · exact ⟨hn, _, _, if_pos hr, oscMask_flag (hosc hr) hn⟩

/-- START and STOP do not write STATUS where the oscillator bit is in CONTROL (R39). -/
theorem statusRmw_control {p : Params} (hr : p.oscReg = .control) {i : Instr} (hi : i = .start ∨ i = .stop) :
    statusRmw p i = none := by
  rcases hi with rfl | rfl <;> simp [statusRmw, hr]

/-- Settles O40: each of the four commands' writes is the RMW of STATUS, so a flag outside its mask follows from the bit
the RMW offers it, and the one in CLRx's mask is offered 0. -/
theorem flagProtectKeepsAFlagSetInTheWindow : Obligations.FlagProtectKeepsAFlagSetInTheWindow := by
  intro i s t hs hd hosc hx flag now read runStop keeps
  have hkeep (n : Nat) (hn : keeps n) :
      flag n = flagAfterWrite s.params.flagWsem (now n) (read n || s.params.flagProtect) := by
    obtain ⟨hn, mask, val, h, hm⟩ := statusRmw_of_keeps hosc hn
    exact flag_outside_mask h hs hd hx hn hm
  refine ⟨fun hsem hprot n hn => ?_, fun hsem hprot n hn => ?_, fun hsem hprot n hn => ?_, ?_, ?_, fun hr hi => ?_⟩
  · simp [hkeep n hn, hsem, hprot, flagAfterWrite]
  · simp [hkeep n hn, hsem, hprot, flagAfterWrite]
  · simp [hkeep n hn, hsem, hprot, flagAfterWrite]
  · rintro rfl
    exact flag_in_mask rfl hs hd hx (by decide) (by decide) rfl
  · rintro rfl
    exact flag_in_mask rfl hs hd hx (by decide) (by decide) rfl
  · exact exec_reg_of_not_mayWrite hx (not_mayWrite_status (statusRmw_control hr hi))

/-- Settles O41: each disjunct of the line is an enable bit with its flag, and the pin's function is read off INTCN and
SQWE. -/
theorem interruptLineRule : Obligations.InterruptLineRule := by
  refine ⟨fun s => ?_, fun c => ⟨fun hint f => ?_, fun hint hsqw f => ?_, fun hint hsqw f => ?_⟩⟩
  · simp only [State.intLine, intAsserted, controlINTCN, controlA1IE, controlA2IE, statusA1F, statusA2F,
      Bool.and_eq_true, Bool.or_eq_true]
  · simp only [pinAllows, controlINTCN, hint, if_true, decide_eq_true_eq]
  · simp only [pinAllows, controlINTCN, controlSQWE, controlRS, hint, hsqw, Bool.false_eq_true, if_false, if_true]
    exact decide_eq_true_iff
  · simp only [pinAllows, controlINTCN, controlSQWE, hint, hsqw, Bool.false_eq_true, if_false]

end Sys2Proof.Claims

namespace Sys2Proof.Machine

/-! The device write rule on a burst, register by register (R49). -/

/-- What a register reads after a byte is written to it depends on what it held alone. -/
theorem read_devWriteByte_congr (p : Params) {m m' : Memory} {o : Nat} (h : m.read o = m'.read o) (b : Byte) :
    (devWriteByte p m o b).read o = (devWriteByte p m' o b).read o := by
  simp only [read_devWriteByte, h]

/-- Register `o + i` of a burst that succeeds takes byte `i` as by a write of that byte alone. -/
theorem read_devWriteBytes_getElem (p : Params) (m : Memory) (o : Nat) {bs : List Byte} {i : Nat} {b : Byte}
    (h : bs[i]? = some b) : (devWriteBytes p m o bs).read (o + i) = (devWriteByte p m (o + i) b).read (o + i) := by
  induction bs generalizing m o i with
  | nil => cases h
  | cons c bs ih =>
    rw [devWriteBytes]
    cases i with
    | zero =>
      obtain rfl : c = b := Option.some.inj h
      exact read_devWriteBytes_other _ _ _ _ _ (.inl (Nat.lt_add_one o))
    | succ i =>
      rw [show o + (i + 1) = o + 1 + i by omega, ih _ _ h]
      exact read_devWriteByte_congr p (by rw [read_devWriteByte, if_neg (by omega)]) b

/-- Register `o + i` of a burst that fails takes byte `i` if the draw says so, and is unchanged if not. -/
theorem read_devWriteLanded_getElem (p : Params) (m : Memory) (o : Nat) {bs : List Byte} (l : List Bool) {i : Nat}
    {b : Byte} (h : bs[i]? = some b) :
    (devWriteLanded p m o bs l).read (o + i) =
      if l[i]? = some true then (devWriteByte p m (o + i) b).read (o + i) else m.read (o + i) := by
  induction bs generalizing m o l i with
  | nil => cases h
  | cons c bs ih =>
    cases l with
    | nil => rfl
    | cons a l =>
      rw [devWriteLanded]
      cases i with
      | zero =>
        obtain rfl : c = b := Option.some.inj h
        refine (read_devWriteLanded_other _ _ _ _ _ _ (.inl (Nat.lt_add_one o))).trans ?_
        cases a <;> rfl
      | succ i =>
        have hkept : (if a then devWriteByte p m o c else m).read (o + 1 + i) = m.read (o + 1 + i) := by
          split
          · rw [read_devWriteByte, if_neg (by omega)]
          · rfl
        rw [show o + (i + 1) = o + 1 + i by omega, ih _ _ l h, hkept, read_devWriteByte_congr p hkept]
        rfl

/-- A failed write of one byte stores it exactly if its draw says so. -/
theorem devWriteLanded_single_eq (p : Params) (m : Memory) (o : Nat) (b : Byte) (l : List Bool) :
    devWriteLanded p m o [b] l = if l.head? = some true then devWriteBytes p m o [b] else m := by
  rcases l with _ | ⟨_ | _, l⟩ <;> rfl

end Sys2Proof.Machine

namespace Sys2Proof.Claims

open Sys2Proof.Machine

/-- Settles O12: a register inside the burst takes its own byte by the device write rule, and in a failed burst only if
the draw says so; one outside keeps its byte. -/
theorem deviceWriteRule : Obligations.DeviceWriteRule := by
  intro p m o bs x _ written
  have hwritten (b : Byte) : (devWriteByte p m x b).read x = written b := by
    rw [read_devWriteByte, if_pos rfl]
    rfl
  refine ⟨fun b hx hb => ?_, read_devWriteBytes_other p m o bs x, fun l b hx hb => ?_,
    fun l => read_devWriteLanded_other p m o bs l x⟩
  · have h := read_devWriteBytes_getElem p m o hb
    rwa [Nat.add_sub_cancel' hx, hwritten] at h
  · have h := read_devWriteLanded_getElem p m o l hb
    rwa [Nat.add_sub_cancel' hx, hwritten] at h

end Sys2Proof.Claims

namespace Sys2Proof.Claims

open Sys2Proof.Machine

/-! The write of one byte, seen in its register (R49, R61). -/

/-- A command whose transaction `k` writes `b` to a register with no write rule of its own leaves `b` in it, whatever it
held. -/
theorem exec_stores {i : Instr} {c : Command} {k o : Nat} {b : Byte} {s : State} (hx : exec i s = runCommand c s)
    (hc : c.check s = none) (ht : (c.script s)[k]? = some (.write o [b])) (ho : o < 0x0F) (hs : s.At k)
    (hd : s.nextDraw = .ok) : ∃ t, exec i s = .next t ∧ t.reg o = b := by
  have hm : (Tx.write o [b]).inMap = true := decide_eq_true (show o + 1 ≤ 0x13 by omega)
  refine ⟨_, (exec_transaction hx hc ht hm hs (.inl rfl)).1 hd, ?_⟩
  refine (congrArg (Memory.read · o) (finishIfDone_mem ..)).trans ?_
  exact (read_devWriteBytes_single s.params s.mem ho b o).trans (if_pos rfl)

/-- The bits of a merged byte outside the field are those of the old byte (R101). -/
theorem merge_and_not (old val mask : Byte) :
    ((old &&& ~~~mask) ||| (val &&& mask)) &&& ~~~mask = old &&& ~~~mask := by
  ext i hi
  simp only [BitVec.getElem_and, BitVec.getElem_or, BitVec.getElem_not]
  cases old[i] <;> cases val[i] <;> cases mask[i] <;> rfl

/-- In 12-hour mode SETHOUR's field is bits 4:0 (R103). -/
theorem setHourRel_of_is12 {p : Byte} (h : hourIs12 p = true) (v : Byte) :
    setHourRel p v = (p &&& ~~~0x1F) ||| (toBCD8 v &&& 0x1F) := by
  simp only [setHourRel, encHourRel, h, hmask, if_true]

/-- Settles O60: both writes store the byte read with the field merged in, so bits 7:5 are those of the byte read. -/
theorem raceRestoresTheBitsRead : Obligations.RaceRestoresTheBitsRead := by
  intro s v hs hd
  obtain ⟨t, ht, hhour⟩ : ∃ t, exec (.sethour v) s = .next t ∧ t.reg 0x02 = setHourRel (s.slot 0) v :=
    exec_stores rfl rfl rfl (by decide) hs hd
  obtain ⟨u, hu, hmonth⟩ :
      ∃ u, exec (.setmonth v) s = .next u ∧ u.reg 0x05 = rmwByte s.params 0x05 0x1F (toBCD8 v) (s.slot 0) :=
    exec_stores rfl rfl rfl (by decide) hs hd
  refine ⟨⟨t, ht, fun h12 => ?_⟩, u, hu, ?_⟩
  · rw [hhour, setHourRel_of_is12 h12]
    exact ⟨merge_and_not (s.slot 0) (toBCD8 v) 0x1F, merge_and ..⟩
  · rw [hmonth, rmwByte_of_ne (by decide)]
    exact ⟨merge_and_not (s.slot 0) (toBCD8 v) 0x1F, merge_and ..⟩

end Sys2Proof.Claims

namespace Sys2Proof.Machine

/-! A command whose result is read off the state it is made in. -/

/-- `c` with another result. -/
def Command.withResult (c : Command) (r : State → DWord) : Command := { c with result := r }

@[simp] theorem Command.withResult_check (c : Command) (r : State → DWord) : (c.withResult r).check = c.check := rfl
@[simp] theorem Command.withResult_latch (c : Command) (r : State → DWord) : (c.withResult r).latch = c.latch := rfl
@[simp] theorem Command.withResult_script (c : Command) (r : State → DWord) :
    (c.withResult r).script = c.script := rfl
@[simp] theorem Command.withResult_result (c : Command) (r : State → DWord) : (c.withResult r).result = r := rfl

theorem finishIfDone_withResult {c : Command} {r : State → DWord} {s : State} (h : r s = c.result s) :
    finishIfDone (c.withResult r) s = finishIfDone c s := by
  simp only [finishIfDone, Command.withResult_script, Command.withResult_result, h]

section
variable {c : Command} {r : State → DWord} {s : State} (h : ∀ u, u.params = s.params → r u = c.result u)
include h

theorem transact_withResult (t : Tx) : transact (c.withResult r) t s = transact c t s := by
  unfold transact
  split
  · unfold transactWhole
    split
    · exact finishIfDone_withResult (h _ (by simp))
    · rfl
  · simp only [transactByte]
    rw [finishIfDone_withResult (h _ (by simp))]

theorem issue_withResult (hl : (c.latch (beginCommand s)).params = s.params) :
    issue (c.withResult r) s = issue c s := by
  unfold issue
  rw [Command.withResult_check, Command.withResult_latch, finishIfDone_withResult (h _ hl)]

/-- A step does not tell apart two results that agree under the state's parameters. -/
theorem runCommand_withResult (hl : (c.latch (beginCommand s)).params = s.params) :
    runCommand (c.withResult r) s = runCommand c s := by
  simp only [runCommand, Command.withResult_check, Command.withResult_script, Command.withResult_result,
    issue_withResult h hl, transact_withResult h, h s rfl]

end

/-! The results and the bytes written, from the scratch bytes. -/

/-- A byte more at the low end of packed bytes (R78). -/
theorem packBytes_cons {w : Nat} {x : BitVec w} {bs : List Byte} (h : packBytes bs = x.setWidth 64) (b : Byte) :
    packBytes (b :: bs) = (x ++ b).setWidth 64 := by
  rw [packBytes, h]
  apply BitVec.eq_of_getLsbD_eq
  intro i hi
  simp only [BitVec.getLsbD_or, BitVec.getLsbD_shiftLeft, BitVec.getLsbD_setWidth, BitVec.getLsbD_append, hi]
  by_cases h8 : i < 8
  · simp [h8]
  · simp [h8, BitVec.getLsbD_of_ge b i (by omega), show i - 8 < 64 by omega]

theorem packBytes_slots3 (s : State) : packBytes (s.slots 3) = Claims.oldBytes3 s := by
  have h0 : packBytes [] = (0#40).setWidth 64 := rfl
  exact (packBytes_cons (packBytes_cons (packBytes_cons h0 _) _) _).trans (BitVec.setWidth_eq _)

theorem packBytes_slots4 (s : State) : packBytes (s.slots 4) = Claims.oldBytes4 s := by
  have h0 : packBytes [] = (0#32).setWidth 64 := rfl
  exact (packBytes_cons (packBytes_cons (packBytes_cons (packBytes_cons h0 _) _) _) _).trans (BitVec.setWidth_eq _)

theorem packBytes_slots7 (s : State) : packBytes (s.slots 7) = Claims.oldBytes7 s := by
  have h0 : packBytes [] = (0#8).setWidth 64 := rfl
  exact (packBytes_cons (packBytes_cons (packBytes_cons (packBytes_cons (packBytes_cons (packBytes_cons
    (packBytes_cons h0 _) _) _) _) _) _) _).trans (BitVec.setWidth_eq _)

/-- Quarter degrees fit in R107's 16 bits, so their sign extends through the sum. -/
theorem tempQ_signExtend (m l : Byte) :
    (tempQ m l).signExtend 64 = 4 * m.signExtend 64 + (l.extractLsb' 6 2).setWidth 64 := by
  have hlo := BitVec.le_toInt m
  have hhi := BitVec.toInt_lt (x := m)
  apply BitVec.eq_of_toInt_eq
  have hq := (l.extractLsb' 6 2).isLt
  rw [tempQ, BitVec.toInt_signExtend_of_le (by decide), BitVec.toInt_add, BitVec.toInt_add, BitVec.toInt_mul,
    BitVec.toInt_mul, BitVec.toInt_signExtend_of_le (by decide), BitVec.toInt_signExtend_of_le (by decide),
    BitVec.toInt_setWidth, BitVec.toInt_setWidth, show (4 : BitVec 16).toInt = 4 from rfl,
    show (4 : BitVec 64).toInt = 4 from rfl, Int.bmod_add_bmod, Int.add_bmod_bmod, Int.bmod_add_bmod,
    Int.add_bmod_bmod]
  rw [Int.bmod_eq_of_le (by omega) (by omega), Int.bmod_eq_of_le (by omega) (by omega)]

theorem extractLsb'_one (b : Byte) (i : Nat) : b.extractLsb' i 1 = BitVec.ofBool (b.getLsbD i) := by
  ext j hj
  obtain rfl : j = 0 := by omega
  simp

/-- The hour byte of the results, field by field (R138, R153). -/
theorem hourByte_eq (b : Byte) : hourByte b = Claims.hourResult b := by
  unfold Claims.hourResult hourByte decHourVal hourIsPm hourIs12
  cases h : b.getLsbD 6 with
  | false =>
    rw [Bool.false_and]
    rfl
  | true =>
    rw [extractLsb'_one]
    rfl

/-- The day byte of the results, field by field (R153). -/
theorem alarmDayByte_eq (b : Byte) : alarmDayByte b = Claims.dayResult b := by
  unfold Claims.dayResult alarmDayByte decAlarmDayVal alarmDayIsDow
  cases h : b.getLsbD 6 <;> rfl

/-- The kinds of R152, by the mask bits as numbers. -/
theorem kind1_eq : ∀ m1 m2 m3 m4 : Bool, kind1 m1 m2 m3 m4 =
    if BitVec.ofBool m1 = 1 ∧ BitVec.ofBool m2 = 1 ∧ BitVec.ofBool m3 = 1 ∧ BitVec.ofBool m4 = 1 then 0
    else if BitVec.ofBool m1 = 0 ∧ BitVec.ofBool m2 = 1 ∧ BitVec.ofBool m3 = 1 ∧ BitVec.ofBool m4 = 1 then 1
    else if BitVec.ofBool m1 = 0 ∧ BitVec.ofBool m2 = 0 ∧ BitVec.ofBool m3 = 1 ∧ BitVec.ofBool m4 = 1 then 2
    else if BitVec.ofBool m1 = 0 ∧ BitVec.ofBool m2 = 0 ∧ BitVec.ofBool m3 = 0 ∧ BitVec.ofBool m4 = 1 then 3
    else if BitVec.ofBool m1 = 0 ∧ BitVec.ofBool m2 = 0 ∧ BitVec.ofBool m3 = 0 ∧ BitVec.ofBool m4 = 0 then 4
    else 0xFF := by decide

theorem kind2_eq : ∀ m2 m3 m4 : Bool, kind2 m2 m3 m4 =
    if BitVec.ofBool m2 = 1 ∧ BitVec.ofBool m3 = 1 ∧ BitVec.ofBool m4 = 1 then 0
    else if BitVec.ofBool m2 = 0 ∧ BitVec.ofBool m3 = 1 ∧ BitVec.ofBool m4 = 1 then 1
    else if BitVec.ofBool m2 = 0 ∧ BitVec.ofBool m3 = 0 ∧ BitVec.ofBool m4 = 1 then 2
    else if BitVec.ofBool m2 = 0 ∧ BitVec.ofBool m3 = 0 ∧ BitVec.ofBool m4 = 0 then 3
    else 0xFF := by decide

theorem alarm1Result_slots (s : State) : alarm1Result (s.slots 4) = Claims.geta1Result s := by
  simp only [alarm1Result, Claims.geta1Result, kind1_eq, hourByte_eq, alarmDayByte_eq, extractLsb'_one]
  rfl

theorem alarm2Result_slots (s : State) : alarm2Result (s.slots 3) = Claims.geta2Result s := by
  simp only [alarm2Result, Claims.geta2Result, kind2_eq, hourByte_eq, alarmDayByte_eq, extractLsb'_one]
  rfl

theorem fullTimeResult_slots (s : State) : fullTimeResult s.params.yearBase (s.slots 7) = Claims.getdtResult s := by
  simp only [fullTimeResult, hourByte_eq]
  rfl

theorem tempQ_slots (s : State) :
    (tempQ (byteAt (s.slots 2) 0) (byteAt (s.slots 2) 1)).signExtend 64 = Claims.gettempResult s :=
  tempQ_signExtend ..

/-- The pseudocode of GETDT, with `P_YEAR_BASE` read where the result is made (R138). -/
def getdtCommand : Command :=
  (Command.plain (fun _ => [.read 0x00 7 0]) fun s => fullTimeResult s.params.yearBase (s.slots 7)).batchOnly

theorem exec_getdt (s : State) : exec .getdt s = runCommand getdtCommand s :=
  (runCommand_withResult (c := (burstReadCommand 0x00 7 (fullTimeResult s.params.yearBase)).batchOnly)
    (r := getdtCommand.result) (fun u hu => by rw [← hu]; rfl) rfl).symm

end Sys2Proof.Machine

namespace Sys2Proof.Claims

open Sys2Proof.Machine

/-! A transaction moved byte by byte, read off the script (R55). -/

section
variable {P : State → Prop} {i : Instr} {c : Command} {k o n : Nat} {result : State → Option DWord}

/-- One byte of the transaction `t` of a command, delivered or lost: the next byte follows, or what the transaction's
end says. -/
theorem exec_byte {s : State} {t : Tx} (hx : exec i s = runCommand c s) (hc : c.check s = none)
    (ht : (c.script s)[k]? = some t) (hm : t.inMap = true) (hs : AtByte k t.count s) (hr : FollowedBy c k result) :
    exec i s = .next (afterByte t.count result (s.burstLost || s.nextDraw.failed)
      (applyTxByte t s.burst s.nextDraw s.popDraw)) := by
  obtain ⟨ha, hp, hk, -⟩ := hs
  rw [hx, runCommand_busy hp hc (by rwa [hk]) hm]
  congr 1
  unfold afterByte
  simp only [State.applyTxByte_burst, State.popDraw_burst]
  split
  · next hn => exact transact_byte_more ha hn
  · next hn =>
    split
    · next hl =>
      rw [transact_byte_lost ha hn hl]
      rfl
    · next hl =>
      rw [transact_byte_done ha hn ((Bool.not_eq_true _).mp hl)]
      exact hr _ (by simpa using hk)

/-- Entry `k` of the script is a read: its bytes are `ReadsByBytes`. -/
theorem readsByBytes_of_script {slot : Nat} (hx : ∀ s, P s → exec i s = runCommand c s)
    (hc : ∀ s, P s → c.check s = none) (ht : ∀ s, (c.script s)[k]? = some (.read o n slot)) (hm : o + n ≤ 0x13)
    (hr : FollowedBy c k result) : ReadsByBytes P i k o n slot result := by
  intro s hP hs
  have hbyte := exec_byte (hx s hP) (hc s hP) (ht s) (decide_eq_true hm) hs hr
  refine ⟨fun hd => ?_, fun l hd => ?_⟩
  · rw [hbyte, hd, BusDraw.failed, Bool.or_false]
    rfl
  · rw [hbyte, hd, BusDraw.failed, Bool.or_true]
    rfl

/-- Entry `k` of the script is a write of `n` bytes: they are `WritesByBytes`. -/
theorem writesByBytes_of_script {f : (Nat → Byte) → List Byte} (hx : ∀ s, P s → exec i s = runCommand c s)
    (hc : ∀ s, P s → c.check s = none) (ht : ∀ s, (c.script s)[k]? = some (.write o (f s.slot)))
    (hn : ∀ p, (f p).length = n) (hm : o + n ≤ 0x13) (hr : FollowedBy c k result) :
    WritesByBytes P i k o n f result := by
  intro s b hP hs hb
  have hcount : (Tx.write o (f s.slot)).count = n := hn _
  have hbyte := exec_byte (hx s hP) (hc s hP) (ht s) (decide_eq_true (by rwa [hcount])) (by rwa [hcount]) hr
  rw [hcount] at hbyte
  refine ⟨fun hd => ?_, fun l hd => ?_⟩
  · rw [hbyte, hd, BusDraw.failed, Bool.or_false, applyTxByte, hb]
    rfl
  · rw [hbyte, hd, BusDraw.failed, Bool.or_true, applyTxByte, hb, Option.toList_some, devWriteLanded_single_eq]
    split <;> rfl

/-- A command that is one burst read is `ReadsByBytes`. -/
theorem readsByBytes_of_read {f : State → DWord} (hx : ∀ s, P s → exec i s = runCommand c s)
    (hc : ∀ s, P s → c.check s = none) (hscript : ∀ s, c.script s = [.read o n 0]) (hm : o + n ≤ 0x13)
    (hresult : ∀ s, c.result (advanceK s) = f s) : ReadsByBytes P i 0 o n 0 (last f) :=
  readsByBytes_of_script hx hc (fun s => by rw [hscript]; rfl) hm
    (followedBy_last (by decide) (fun s => by rw [hscript]; exact Nat.le_refl _) hresult)

/-- A command that is one RMWN is `RunsRmwnByBytes`. -/
theorem runsRmwnByBytes_of_rmwn {g : List Byte → List Byte} {f : (Nat → Byte) → List Byte} {r : State → DWord}
    (hx : ∀ s, P s → exec i s = runCommand c s) (hc : ∀ s, P s → c.check s = none)
    (hscript : ∀ s, c.script s = rmwn s o n g) (hg : ∀ s : State, g (s.slots n) = f s.slot)
    (hn : ∀ p, (f p).length = n) (hm : o + n ≤ 0x13) (hresult : ∀ s, c.result (advanceK s) = r s) :
    RunsRmwnByBytes P i o n f r := by
  have hentries (s : State) : c.script s = [.read o n 0, .write o (f s.slot)] := by rw [hscript, rmwn, hg]
  exact ⟨readsByBytes_of_script hx hc (fun s => by rw [hentries]; rfl) hm
      (followedBy_more (by decide) fun s => by rw [hentries]; exact Nat.lt_add_one 1),
    writesByBytes_of_script hx hc (fun s => by rw [hentries]; rfl) hn hm
      (followedBy_last (by decide) (fun s => by rw [hentries]; exact Nat.le_refl _) hresult)⟩

end

/-- The four alarm 1 setters, byte by byte: one RMWN of the mask generator (R144). -/
theorem alarm1_byBytes {i : Instr} {fields : List AlarmField} {sec min hour day : Option Byte}
    (hx : ∀ s, exec i s = runCommand (burstModifyCommand 0x07 4 (alarmBytes fields)) s)
    (hf : ∀ s : State, alarmBytes fields (s.slots 4) = alarm1Over sec min hour day s.slot) :
    RunsRmwnByBytes always i 0x07 4 (alarm1Over sec min hour day) oldBytes4 :=
  runsRmwnByBytes_of_rmwn (fun s _ => hx s) (fun _ _ => rfl) (fun _ => rfl) hf (fun _ => rfl) (by decide)
    fun s => packBytes_slots4 s

/-- The three alarm 2 setters, byte by byte (R144). -/
theorem alarm2_byBytes {i : Instr} {fields : List AlarmField} {min hour day : Option Byte}
    (hx : ∀ s, exec i s = runCommand (burstModifyCommand 0x0B 3 (alarmBytes fields)) s)
    (hf : ∀ s : State, alarmBytes fields (s.slots 3) = alarm2Over min hour day s.slot) :
    RunsRmwnByBytes always i 0x0B 3 (alarm2Over min hour day) oldBytes3 :=
  runsRmwnByBytes_of_rmwn (fun s _ => hx s) (fun _ _ => rfl) (fun _ => rfl) hf (fun _ => rfl) (by decide)
    fun s => packBytes_slots3 s

/-- A batch command is legal where `P_HAS_BATCH` holds (R80). -/
theorem batchOnly_check (c : Command) {s : State} (h : s.params.hasBatch = true) : c.batchOnly.check s = none :=
  if_pos h

/-- SETDT, byte by byte (R139). -/
theorem setdt_byBytes (d : FullTime) :
    RunsRmwnByBytes (fun s => s.params.hasBatch = true) (.setdt d) 0x00 7 (setdtBytes d) oldBytes7 :=
  runsRmwnByBytes_of_rmwn (c := (burstModifyCommand 0x00 7 (fullTimeBytes d)).batchOnly) (fun _ _ => rfl)
    (fun _ h => batchOnly_check _ h) (fun _ => rfl) (fun _ => rfl) (fun _ => rfl) (by decide)
    fun s => packBytes_slots7 s

/-- Settles O13: each command's script is one burst read, or an RMWN, and a byte of either goes to its slot or its
register; the results are the packed scratch bytes. -/
theorem nonAtomicBurstMovesOneByte : Obligations.NonAtomicBurstMovesOneByte :=
  ⟨readsByBytes_of_read (fun _ _ => rfl) (fun _ _ => rfl) (fun _ => rfl) (by decide) fun s => tempQ_slots s,
    readsByBytes_of_read (fun _ _ => rfl) (fun _ _ => rfl) (fun _ => rfl) (by decide) fun s => alarm1Result_slots s,
    readsByBytes_of_read (fun _ _ => rfl) (fun _ _ => rfl) (fun _ => rfl) (by decide) fun s => alarm2Result_slots s,
    readsByBytes_of_read (fun s _ => exec_getdt s) (fun _ h => batchOnly_check _ h) (fun _ => rfl) (by decide)
      fun s => fullTimeResult_slots s,
    setdt_byBytes,
    fun _ => alarm1_byBytes (fun _ => rfl) (fun _ => rfl),
    fun _ _ => alarm1_byBytes (fun _ => rfl) (fun _ => rfl),
    fun _ _ _ => alarm1_byBytes (fun _ => rfl) (fun _ => rfl),
    fun _ _ _ _ => alarm1_byBytes (fun _ => rfl) (fun _ => rfl),
    fun _ => alarm2_byBytes (fun _ => rfl) (fun _ => rfl),
    fun _ _ => alarm2_byBytes (fun _ => rfl) (fun _ => rfl),
    fun _ _ _ => alarm2_byBytes (fun _ => rfl) (fun _ => rfl)⟩

end Sys2Proof.Claims

namespace Sys2Proof.Claims

open Sys2Proof.Machine

/-! Each field of an operand reads back as the encoder placed it (R65 to R76). -/

/-- Formats B8, T3, A4, O8 and S8 are bytes of D. -/
@[simp] theorem operandByte_bytesOperand (b3 b2 b1 b0 : Byte) :
    operandByte (bytesOperand b3 b2 b1 b0) 0 = b0 ∧ operandByte (bytesOperand b3 b2 b1 b0) 1 = b1 ∧
      operandByte (bytesOperand b3 b2 b1 b0) 2 = b2 ∧ operandByte (bytesOperand b3 b2 b1 b0) 3 = b3 := by
  simp (disch := decide) only [operandByte, bytesOperand, BitVec.extractLsb'_setWidth_of_le,
    BitVec.extractLsb'_append_eq_of_le, BitVec.extractLsb'_append_eq_right, BitVec.extractLsb'_eq_self, Nat.reduceMul,
    Nat.reduceSub, and_self]

/-- Format DT, whose year is two bytes wide (R69). -/
@[simp] theorem dateOperand_fields (day month : Byte) (year : BitVec 16) :
    operandByte ((day ++ month ++ year).setWidth 64) 3 = day ∧
      operandByte ((day ++ month ++ year).setWidth 64) 2 = month ∧
      ((day ++ month ++ year).setWidth 64).extractLsb' 0 16 = year := by
  simp (disch := decide) only [operandByte, BitVec.extractLsb'_setWidth_of_le, BitVec.extractLsb'_append_eq_of_le,
    BitVec.extractLsb'_append_eq_right, BitVec.extractLsb'_eq_self, Nat.reduceMul, Nat.reduceSub, and_self]

@[simp] theorem fullTimeOf_fullTimeOperand (t : FullTime) : fullTimeOf (fullTimeOperand t) = t := by
  obtain ⟨year, month, date, dow, h12, pm, hour, minute, second⟩ := t
  simp (disch := decide) only [fullTimeOf, fullTimeOperand, FullTime.mk.injEq, BitVec.extractLsb'_append_eq_of_le,
    BitVec.extractLsb'_append_eq_right, BitVec.getLsbD_append, Nat.reduceSub]
  simp

/-- Formats Y16 and E32 are one field at the low end of D (R68, R72). -/
theorem extractLsb'_setWidth_operand {n : Nat} (hn : n ≤ 64) (x : BitVec n) :
    (x.setWidth 64).extractLsb' 0 n = x := by
  rw [BitVec.extractLsb'_setWidth_of_le (by omega), BitVec.extractLsb'_eq_self]

/-- The opcode selects the command, and the command's format reads each operand back from its field. -/
theorem decodeFields_operand (i : Instr) : decodeFields (opcode i) (operand i) = .ok i := by
  cases i <;> refine Eq.trans (b := .ok _) rfl (congrArg _ ?_)
  case setdt => simp only [operand, fullTimeOf_fullTimeOperand]
  case setdate => simp only [operand, dateOperand_fields]
  case setyear | setepoch => simp (disch := decide) only [operand, extractLsb'_setWidth_operand]
  case sethmode | setmer => simp [operand]
  case setsec | setmin | sethour | setweek | setday | setmonth | settime | seta1s | seta1ms | seta1hms | seta1dhms |
      seta2m | seta2hm | seta2dhm | setout | setage =>
    simp only [operand, operandByte_bytesOperand]
  all_goals rfl

/-- Settles O2: the word's parts are the opcode and the operand field, and the operand field reads back. -/
theorem decodeOfEncode : Obligations.DecodeOfEncode := by
  intro i
  obtain ⟨hop, hd⟩ := Laws.EncodeFields.of_append i
  rw [decode, hop, hd, decodeFields_operand]

/-- The encoder tells instructions apart by the opcode and the operand field. -/
theorem eq_of_opcode_operand {i j : Instr} (hop : opcode i = opcode j) (hd : operand i = operand j) : i = j := by
  have h := decodeFields_operand i
  rw [hop, hd, decodeFields_operand] at h
  exact (Except.ok.inj h).symm

/-! The other way round: the operand field of what a D decodes to is D under the format's mask (R81). -/

/-- The low `n` bits of D are D under their mask, as formats Y16 and E32 name them (R68, R72). -/
theorem setWidth_extractLsb'_low (d : DWord) (n : Nat) :
    (d.extractLsb' 0 n).setWidth 64 = d &&& (BitVec.allOnes n).setWidth 64 := by
  ext j hj
  simp [BitVec.getLsbD_eq_getElem hj, Bool.and_comm]

/-- Format DT names the low half of D (R69). -/
theorem dateOperand_named (d : DWord) :
    (operandByte d 3 ++ operandByte d 2 ++ d.extractLsb' 0 16).setWidth 64 = d &&& 0xFFFFFFFF := by
  simp (disch := decide) only [operandByte, Nat.reduceMul, BitVec.extractLsb'_append_extractLsb'_eq_extractLsb']
  exact setWidth_extractLsb'_low d 32

theorem ofBool_getLsbD (d : DWord) (j : Nat) : BitVec.ofBool (d.getLsbD j) = d.extractLsb' j 1 := by
  ext n hn
  obtain rfl : n = 0 := by omega
  simp

/-- Format F64 names all of D (R76). -/
theorem fullTimeOperand_fullTimeOf (d : DWord) : fullTimeOperand (fullTimeOf d) = d := by
  simp (disch := decide) only [fullTimeOf, fullTimeOperand, ofBool_getLsbD,
    BitVec.extractLsb'_append_extractLsb'_eq_extractLsb']
  exact BitVec.extractLsb'_eq_self

theorem bytesOperand_operandByte (d : DWord) :
    bytesOperand (operandByte d 3) (operandByte d 2) (operandByte d 1) (operandByte d 0) =
      d &&& (BitVec.allOnes 32).setWidth 64 := by
  rw [← setWidth_extractLsb'_low, bytesOperand]
  simp (disch := decide) only [operandByte, Nat.reduceMul, BitVec.extractLsb'_append_extractLsb'_eq_extractLsb']

theorem bytesOperand_and (a3 a2 a1 a0 b3 b2 b1 b0 : Byte) :
    bytesOperand a3 a2 a1 a0 &&& bytesOperand b3 b2 b1 b0 =
      bytesOperand (a3 &&& b3) (a2 &&& b2) (a1 &&& b1) (a0 &&& b0) := by
  simp only [bytesOperand, ← BitVec.setWidth_and, BitVec.and_append]

/-- A mask of the four low bytes of D masks them one by one. -/
theorem bytesOperand_masked (d : DWord) (m3 m2 m1 m0 : Byte) :
    bytesOperand (operandByte d 3 &&& m3) (operandByte d 2 &&& m2) (operandByte d 1 &&& m1) (operandByte d 0 &&& m0) =
      d &&& bytesOperand m3 m2 m1 m0 := by
  have hlow : (BitVec.allOnes 32).setWidth 64 &&& bytesOperand m3 m2 m1 m0 = bytesOperand m3 m2 m1 m0 := by
    rw [bytesOperand, ← BitVec.setWidth_and, BitVec.allOnes_and]
  rw [← bytesOperand_and, bytesOperand_operandByte, BitVec.and_assoc, hlow]

theorem and_ite_byte (b : Byte) (named : Bool) :
    (b &&& if named then 0xFF else 0) = if named then b else 0 := by
  cases named
  · exact BitVec.and_zero
  · exact BitVec.and_allOnes

/-- Formats B8, T3, A4, O8 and S8 name whole bytes of D, those for which `n` is true (R67, R70, R71, R74, R75). -/
theorem bytesOperand_named (d : DWord) (n3 n2 n1 n0 : Bool) :
    bytesOperand (if n3 then operandByte d 3 else 0) (if n2 then operandByte d 2 else 0)
      (if n1 then operandByte d 1 else 0) (if n0 then operandByte d 0 else 0) =
    d &&& bytesOperand (if n3 then 0xFF else 0) (if n2 then 0xFF else 0) (if n1 then 0xFF else 0)
      (if n0 then 0xFF else 0) := by
  simp only [← bytesOperand_masked, and_ite_byte]

/-- A command's opcode decodes to that command whatever D holds, and D's named bits are its operand field. -/
theorem decodeFields_opcode (i : Instr) (d : DWord) :
    ∃ j, decodeFields (opcode i) d = .ok j ∧ opcode j = opcode i ∧ operand j = d &&& namedBits i := by
  cases i
  case setsec | setmin | sethour | setweek | setday | setmonth | seta1s | setout | setage =>
    exact ⟨_, rfl, rfl, bytesOperand_named d false false false true⟩
  case seta1ms => exact ⟨_, rfl, rfl, bytesOperand_named d false false true true⟩
  case settime | seta1hms => exact ⟨_, rfl, rfl, bytesOperand_named d false true true true⟩
  case seta1dhms => exact ⟨_, rfl, rfl, bytesOperand_named d true true true true⟩
  case seta2m => exact ⟨_, rfl, rfl, bytesOperand_named d false false true false⟩
  case seta2hm => exact ⟨_, rfl, rfl, bytesOperand_named d false true true false⟩
  case seta2dhm => exact ⟨_, rfl, rfl, bytesOperand_named d true true true false⟩
  case setyear => exact ⟨_, rfl, rfl, setWidth_extractLsb'_low d 16⟩
  case setepoch => exact ⟨_, rfl, rfl, setWidth_extractLsb'_low d 32⟩
  case setdate => exact ⟨_, rfl, rfl, dateOperand_named d⟩
  case sethmode | setmer => exact ⟨_, rfl, rfl, BitVec.and_one_eq_setWidth_ofBool_getLsbD.symm⟩
  case setdt => exact ⟨_, rfl, rfl, (fullTimeOperand_fullTimeOf d).trans BitVec.and_allOnes.symm⟩
  all_goals exact ⟨_, rfl, rfl, BitVec.and_zero.symm⟩

/-- Only an instruction's own opcode decodes to it. -/
theorem opcode_of_decodeFields {op : Byte} {d : DWord} {i : Instr} (h : decodeFields op d = .ok i) :
    op = opcode i := by
  unfold decodeFields at h
  split at h <;> cases h <;> rfl

/-- Settles O3: the word's opcode is the instruction's own, and under that opcode any D decodes to the instruction whose
operand field is D's named bits. -/
theorem decodeReadsNamedBitsOnly : Obligations.DecodeReadsNamedBitsOnly := by
  intro w i h
  have hop : opcodeOf w = opcode i := opcode_of_decodeFields h
  have hd : operand i = operandOf w &&& namedBits i := by
    obtain ⟨j, hj, -, hd⟩ := decodeFields_opcode i (operandOf w)
    rw [decode, hop, hj] at h
    rwa [Except.ok.inj h] at hd
  refine ⟨hop, hd.symm, fun w' hop' hd' => ?_⟩
  obtain ⟨j, hj, hopj, hdj⟩ := decodeFields_opcode i (operandOf w')
  have hji : j = i := eq_of_opcode_operand hopj (by rw [hdj, hd', hd])
  rw [decode, hop', hop, hj, hji]

/-! The reserved opcodes (R83). -/

theorem opcode_not_reserved (i : Instr) : ¬ reservedOpcode (opcode i) := by
  unfold reservedOpcode opcode
  split <;> decide

/-- The one rejection, by name (R80, R83). -/
theorem reject_of_decodeFields {op : Byte} {d : DWord} {e : DecodeReject} (h : decodeFields op d = .error e) :
    e = .reservedOpcode op := by
  unfold decodeFields at h
  split at h <;> cases h
  rfl

theorem decodeFields_of_reserved {op : Byte} (h : reservedOpcode op) (d : DWord) :
    decodeFields op d = .error (.reservedOpcode op) := by
  cases hd : decodeFields op d with
  | ok i =>
    obtain rfl := opcode_of_decodeFields hd
    exact absurd h (opcode_not_reserved i)
  | error e => rw [reject_of_decodeFields hd]

/-- The 256 opcodes one by one, with D = 0. -/
theorem decodeFields_zero_isOk : ∀ op : Byte, ¬ reservedOpcode op → (decodeFields op 0).isOk = true := by
  unfold reservedOpcode
  decide

theorem decodeFields_of_not_reserved {op : Byte} (h : ¬ reservedOpcode op) (d : DWord) :
    ∃ i, decodeFields op d = .ok i := by
  have hok := decodeFields_zero_isOk op h
  cases h0 : decodeFields op 0 with
  | ok i =>
    obtain ⟨j, hj, -⟩ := decodeFields_opcode i d
    exact ⟨j, by rw [opcode_of_decodeFields h0, hj]⟩
  | error e =>
    rw [h0] at hok
    cases hok

/-- Settles O4: no command's opcode is reserved, and every other opcode is a command's, whatever D holds. -/
theorem reservedOpcodesAreTheOnesListed : Obligations.ReservedOpcodesAreTheOnesListed :=
  fun w => ⟨fun h => decodeFields_of_reserved h (operandOf w), fun h => decodeFields_of_not_reserved h (operandOf w)⟩

/-- Settles O1: each word decodes by evaluation. -/
theorem specWordsDecode : Obligations.SpecWordsDecode :=
  ⟨rfl, rfl, rfl, rfl, rfl, rfl, rfl, rfl, rfl⟩

end Sys2Proof.Claims

namespace Sys2Proof.Machine

/-! The transaction counts of R79, and a state between two transactions (R91). -/

/-- Every command but NOP has a first transaction. -/
theorem hasTransaction_at_zero {i : Instr} (hi : i ≠ .nop) {s : State} (hk : s.k = 0) : hasTransaction i s = true := by
  cases i
  case nop => exact absurd rfl hi
  case setmer => cases h : hourIs12 (s.slot 0) <;> simp [hasTransaction, hk, h]
  all_goals simp [hasTransaction, txCount, hk]

theorem txCount_le (i : Instr) : txCount i ≤ 14 := by
  unfold txCount
  split <;> decide

/-- NOP finishes at issue (R95). -/
theorem exec_nop {s : State} (hp : s.phase = .idle) : exec .nop s = .next (finish 0 (beginCommand s)) :=
  runCommand_idle hp

/-- A whole transaction that succeeded leaves the block at the next one. -/
theorem State.At.advance {s : State} {k : Nat} (hs : s.At k) (hk : k < 15) (t : Tx) :
    (advanceK (applyTx t s.popDraw)).At (k + 1) := by
  obtain ⟨hp, hks, hb, hl⟩ := hs
  exact ⟨by simpa using hp, Claims.advanceK_toNat (by simpa using hks) hk, by simpa using hb, by simpa using hl⟩

theorem State.DrawsOk.advance {s : State} {m : Nat} (h : s.DrawsOk (m + 1)) (t : Tx) :
    (advanceK (applyTx t s.popDraw)).DrawsOk m := by
  obtain ⟨-, hd⟩ := h
  simpa [State.DrawsOk] using hd

end Sys2Proof.Machine

namespace Sys2Proof.Claims

open Sys2Proof.Machine

/-! Every legal command finishes (R79, R91, R92). -/

section
variable {i : Instr} {c : Command} {p : Params} (hf : CommandFacts i c)
  (hx : ∀ s, s.params = p → exec i s = runCommand c s) (hlegal : issueLegal p i = true) (ha : p.burstAtomic = true)
include hf hx hlegal ha

/-- A legal command at a transaction of its script, the next `m` of which succeed, finishes OK within the `m` its count
leaves. -/
theorem finishes_from {m k : Nat} {s : State} (hp : s.params = p) (hs : s.At k) (hk : k < (c.script s).length)
    (hm : txCount i ≤ k + m) (hd : s.DrawsOk m) : ∃ n t r, 1 ≤ n ∧ n ≤ m ∧ Finishes i n s t r := by
  have hlen := hf.script_length s
  induction m generalizing k s with
  | zero => omega
  | succ m ih =>
    have hcheck : c.check s = none := (hf.check_none s).mpr (by rwa [hp])
    obtain ⟨tx, htx⟩ : ∃ tx, (c.script s)[k]? = some tx := ⟨_, List.getElem?_eq_getElem hk⟩
    obtain ⟨hmap, -, -⟩ := hf.script_ok s tx (List.mem_of_getElem? htx)
    obtain ⟨hok, -⟩ := exec_transaction (hx s hp) hcheck htx hmap hs (.inr (by rwa [hp]))
    have ⟨hdraw, _⟩ := hd
    have hstep := hok hdraw
    have hnext := hs.advance (by have := txCount_le i; omega) tx
    rcases finishIfDone_cases c (advanceK (applyTx tx s.popDraw)) with ⟨hmore, e⟩ | ⟨-, e⟩ <;> rw [e] at hstep
    · have ⟨_, hk1, _⟩ := hnext
      rw [hk1] at hmore
      obtain ⟨n, t, r, -, hn, hrun, hend⟩ :=
        ih (by simpa using hp) hnext hmore (by omega) (hd.advance tx) (hf.script_length _)
      exact ⟨n + 1, t, r, by omega, by omega, ⟨_, hstep, hrun⟩, hend⟩
    · exact ⟨1, _, _, by omega, by omega, ⟨_, hstep, rfl⟩, rfl, rfl⟩

end

/-- Settles O10: issue opens the command at its first transaction, and each transaction that succeeds is followed by the
next or by the finish; NOP has none. -/
theorem everyLegalCommandFinishes : Obligations.EveryLegalCommandFinishes := by
  intro i s hidle hlegal ha hd
  by_cases hi : i = .nop
  · subst hi
    exact ⟨_, _, 0, exec_nop hidle, Nat.le_refl 0, rfl, fun h => absurd rfl h, rfl, rfl, rfl, rfl⟩
  obtain ⟨c, hf, -, hx⟩ := exec_command i s.params
  obtain ⟨f, hu⟩ : ∃ f, c.latch (beginCommand s) = { beginCommand s with fld := f } := ⟨_, hf.latch_frame _⟩
  have hscript : 0 < (c.script { beginCommand s with fld := f }).length :=
    (hf.script_next { beginCommand s with fld := f }).mpr (hasTransaction_at_zero hi rfl)
  have hissue : exec i s = .next { beginCommand s with fld := f } := by
    rw [hx s rfl, runCommand_idle hidle, issue_opens ((hf.check_none (beginCommand s)).mpr hlegal) (by rwa [hu])
      (by rw [hu]; rfl), hu]
  obtain ⟨n, t, r, h1, hn, hrun, hphase, hrsp⟩ :=
    finishes_from hf hx hlegal ha (s := { beginCommand s with fld := f }) rfl ⟨rfl, rfl, rfl, rfl⟩ hscript
      (Nat.le_of_eq (Nat.zero_add _).symm) hd
  exact ⟨_, t, n, hissue, hn, hrun, fun _ => ⟨rfl, rfl, h1⟩, hphase, by rw [hrsp], by rw [hrsp], by rw [hrsp]⟩

end Sys2Proof.Claims

namespace Sys2Proof.Machine

/-! The host's issue (R88), and the step of a BUSY command (R91). -/

theorem latchCommand_popInput {s : State} {w : CmdWord} {rest : List Input} (h : s.inputs = .host w :: rest) :
    latchCommand w s.popInput = { s with cmd := w, inputs := rest } := by
  simp [latchCommand, State.popInput, h]

theorem nextMove_host {s : State} {w : CmdWord} {rest : List Input} (hp : s.phase = .idle)
    (h : s.inputs = .host w :: rest) : nextMove s = .issue w s.popInput := by
  simp only [nextMove, h, hp]

theorem step_issue {s : State} {w : CmdWord} {rest : List Input} {i : Instr} (hp : s.phase = .idle)
    (h : s.inputs = .host w :: rest) (hd : decode w = .ok i) : step s = exec i { s with cmd := w, inputs := rest } := by
  simp only [step, nextMove_host hp h, hd, latchCommand_popInput h]

theorem step_issueReserved {s : State} {w : CmdWord} {rest : List Input} {e : DecodeReject} (hp : s.phase = .idle)
    (h : s.inputs = .host w :: rest) (hd : decode w = .error e) :
    step s = .next (issueReserved { s with cmd := w, inputs := rest }) := by
  simp only [step, nextMove_host hp h, hd, latchCommand_popInput h]

theorem step_busy {s : State} {i : Instr} (hp : s.phase = .busy) (hd : decode s.cmd = .ok i)
    (hi : s.inputs = [] ∨ (∃ w l, s.inputs = .host w :: l) ∨ ∃ d l, s.inputs = .bus d :: l) : step s = exec i s := by
  simp only [step, nextMove_busy hp hi, busyMove, hd]

theorem decode_tableWord {nbits w : Nat} {i : Instr} (h : decodeTableWord nbits w = some i) :
    decode (tableWord nbits w) = .ok i := by
  unfold decodeTableWord at h
  split at h
  · next j hj => rw [hj, Option.some.inj h]
  · cases h

/-! Issue of a legal command, and of one that ends there (R88 to R90). -/

/-- Issue opens every legal command that has a transaction, and FLD is latched for SETEPOCH alone. -/
theorem exec_opens {i : Instr} {s : State} (hi : i ≠ .nop) (hp : s.phase = .idle)
    (hlegal : issueLegal s.params i = true) :
    ∃ f, exec i s = .next { beginCommand s with fld := f } ∧
      (f = s.fld ∨ ∃ e, i = .setepoch e ∧ f = Config.calSplit e) := by
  obtain ⟨c, hf, hw, hx⟩ := exec_command i s.params
  have hlatch := hf.latch_frame (beginCommand s)
  refine ⟨(c.latch (beginCommand s)).fld, ?_, (hw.latch (beginCommand s)).imp_left fun h => by rw [h]; rfl⟩
  have hscript : 0 < (c.script (c.latch (beginCommand s))).length := by
    rw [hlatch]
    exact (hf.script_next { beginCommand s with fld := _ }).mpr (hasTransaction_at_zero hi rfl)
  rw [hx s rfl, runCommand_idle hp,
    issue_opens ((hf.check_none (beginCommand s)).mpr hlegal) hscript (by rw [hlatch]; rfl), ← hlatch]

/-- A command its check rejects ends at issue with the check's code. -/
theorem runCommand_illegal {c : Command} {s : State} {code : StatusCode} (hp : s.phase = .idle)
    (hc : c.check (beginCommand s) = some code) : runCommand c s = .next (finishWith code 0 0 (beginCommand s)) := by
  rw [runCommand_idle hp, issue_illegal hc]

theorem batchOnly_check_of_no_batch (c : Command) {s : State} (h : s.params.hasBatch = false) :
    c.batchOnly.check s = some .illegalOpcode := by
  simp [Command.batchOnly, h]

theorem legalOutMode_eq_false {mode : Byte} : legalOutMode mode = false ↔ 5 ≤ mode.toNat := by
  simp [legalOutMode]

/-- The commands that are illegal at issue. -/
theorem illegal_cases {p : Params} {i : Instr} (h : issueLegal p i = false) :
    (∃ mode : Byte, 5 ≤ mode.toNat ∧ i = .setout mode) ∨ i = .getdt ∨ ∃ d, i = .setdt d := by
  cases i
  case setout mode =>
    exact .inl ⟨mode, legalOutMode_eq_false.mp (by simpa [issueLegal, Instr.wellFormed] using h), rfl⟩
  case getdt => exact .inr (.inl rfl)
  case setdt d => exact .inr (.inr ⟨d, rfl⟩)
  all_goals simp [issueLegal, Instr.wellFormed] at h

/-! What one sequencer step of a command can do: how it moves the state, and how it then ends. -/

/-- The moves of a step: an issue, with its latch or without, and while BUSY none or the bytes of a transaction, after
which K may have advanced. -/
inductive Command.Moves (c : Command) (s : State) : State → Prop
  | begun (hp : s.phase = .idle) : Moves c s (beginCommand s)
  | latched (hp : s.phase = .idle) : Moves c s (c.latch (beginCommand s))
  | unmoved (hp : s.phase = .busy) : Moves c s s
  | moved (hp : s.phase = .busy) {t : Tx} {u : State} (he : TxEffect t s u) (k : BitVec 4) : Moves c s { u with k := k }

/-- The ends of a step that moved to `u`: the command goes on, finishes OK, loses a transaction, or is illegal (R89 to
R93). -/
inductive Command.Ends (c : Command) (s u : State) : State → Prop
  | goesOn : Ends c s u u
  | finishes (r : DWord) : Ends c s u (finishWith .ok 0 r u)
  | fails : Ends c s u (finishWith .busFail s.k 0 u)
  | illegal {code : StatusCode} (hc : c.check u = some code) : Ends c s u (finishWith code 0 0 u)

theorem Command.ends_finishIfDone (c : Command) (s u : State) : c.Ends s u (finishIfDone c u) := by
  rcases finishIfDone_cases c u with ⟨-, e⟩ | ⟨-, e⟩ <;> rw [e]
  · exact .goesOn
  · exact .finishes _

/-- Every step of a command is a move and an end. -/
theorem runCommand_moves_ends {c : Command} {s t : State} (h : runCommand c s = .next t) :
    ∃ u, c.Moves s u ∧ c.Ends s u t := by
  obtain ⟨hp, rfl⟩ | ⟨hp, code, hc, rfl⟩ | ⟨hp, -, -, rfl⟩ | ⟨hp, -, tx, -, -, rfl⟩ := runCommand_cases h
  · cases hc : c.check (beginCommand s) with
    | some code => exact ⟨_, .begun hp, by rw [issue_illegal hc]; exact .illegal hc⟩
    | none => exact ⟨_, .latched hp, by simpa only [issue, hc] using c.ends_finishIfDone s _⟩
  · exact ⟨s, .unmoved hp, .illegal hc⟩
  · exact ⟨s, .unmoved hp, .finishes _⟩
  · obtain ⟨u, he, ⟨e, -⟩ | e | ⟨e, -⟩⟩ := transact_cases c tx s <;> rw [e]
    · exact ⟨_, .moved hp he _, c.ends_finishIfDone s _⟩
    · exact ⟨_, .moved hp he u.k, .fails⟩
    · exact ⟨_, .moved hp he u.k, .goesOn⟩

theorem Command.Ends.eq {c : Command} {s u t : State} (h : c.Ends s u t) :
    t = u ∨ ∃ code fidx r, t = finishWith code fidx r u := by
  cases h with
  | goesOn => exact .inl rfl
  | finishes | fails | illegal => exact .inr ⟨_, _, _, rfl⟩

/-- A latch that leaves RSP opens a command with RSP not valid, and no move of a BUSY block touches RSP. -/
theorem Command.Moves.rsp {c : Command} (hl : ∀ s, (c.latch s).rsp = s.rsp) {s u : State} (h : c.Moves s u) :
    (s.phase = .idle ∧ u.rsp.valid = false) ∨ (s.phase = .busy ∧ u.rsp = s.rsp) := by
  cases h with
  | begun hp => exact .inl ⟨hp, rfl⟩
  | latched hp => exact .inl ⟨hp, by rw [hl]; rfl⟩
  | unmoved hp => exact .inr ⟨hp, rfl⟩
  | moved hp he k => exact .inr ⟨hp, he.rsp⟩

/-- Only a check of the command finishes it with ILLEGAL_OPERAND. -/
theorem check_of_illegalOperand {c : Command} (hl : ∀ s, (c.latch s).rsp = s.rsp) {s t : State}
    (hb : s.phase = .busy → s.rsp.valid = false) (h : runCommand c s = .next t) (hv : t.rsp.valid = true)
    (hcode : t.rsp.code = .illegalOperand) : ∃ u, c.check u = some .illegalOperand := by
  obtain ⟨u, hm, he⟩ := runCommand_moves_ends h
  have hnot : u.rsp.valid = false := by
    rcases hm.rsp hl with ⟨-, hu⟩ | ⟨hp, hu⟩
    · exact hu
    · rw [hu, hb hp]
  cases he with
  | goesOn => simp [hnot] at hv
  | finishes r => cases hcode
  | fails => cases hcode
  | illegal hc =>
    obtain rfl := hcode
    exact ⟨u, hc⟩

/-! The two batch commands (R80, R138, R139). -/

theorem batchOnly_check_code {c : Command} {s : State} {code : StatusCode} (h : c.batchOnly.check s = some code) :
    code = .illegalOpcode := by
  simp only [Command.batchOnly] at h
  split at h <;> cases h
  rfl

theorem exec_batch {i : Instr} (hi : i = .getdt ∨ ∃ d, i = .setdt d) (s : State) :
    ∃ c : Command, exec i s = runCommand c.batchOnly s ∧ ∀ u, c.batchOnly.latch u = u := by
  rcases hi with rfl | ⟨d, rfl⟩
  · exact ⟨_, exec_getdt s, fun _ => rfl⟩
  · exact ⟨_, rfl, fun _ => rfl⟩

/-- Without `P_HAS_BATCH` a batch command's opcode is reserved (R80). -/
theorem exec_batch_of_no_batch {i : Instr} (hi : i = .getdt ∨ ∃ d, i = .setdt d) {s : State}
    (hb : s.params.hasBatch = false) (hp : s.phase = .idle) : exec i s = .next (issueReserved s) := by
  obtain ⟨c, hx, -⟩ := exec_batch hi s
  rw [hx, runCommand_illegal hp (batchOnly_check_of_no_batch c hb)]
  rfl

theorem exec_setout_illegal {mode : Byte} (hm : 5 ≤ mode.toNat) {s : State} (hp : s.phase = .idle) :
    exec (.setout mode) s = .next (finishWith .illegalOperand 0 0 (beginCommand s)) :=
  runCommand_illegal hp (by simp [legalOutMode_eq_false.mpr hm])

/-- ILLEGAL_OPERAND is SETOUT's alone (R82, R90). -/
theorem setout_of_illegalOperand {i : Instr} {s t : State} (hb : s.phase = .busy → s.rsp.valid = false)
    (h : exec i s = .next t) (hv : t.rsp.valid = true) (hcode : t.rsp.code = .illegalOperand) :
    ∃ mode : Byte, 5 ≤ mode.toNat ∧ i = .setout mode := by
  obtain ⟨c, hf, -, hx⟩ := exec_command i s.params
  obtain ⟨u, hu⟩ := check_of_illegalOperand (fun s => by rw [hf.latch_frame]) hb (hx s rfl ▸ h) hv hcode
  have hlegal : issueLegal u.params i = false := by
    rw [← Bool.not_eq_true, ← hf.check_none, hu]
    exact Option.some_ne_none _
  refine (illegal_cases hlegal).resolve_right fun hi => ?_
  obtain ⟨d, hd, hl⟩ := exec_batch hi s
  obtain ⟨v, hcheck⟩ := check_of_illegalOperand (fun s => by rw [hl]) hb (hd ▸ h) hv hcode
  cases batchOnly_check_code hcheck

/-! The frame of a step (R88, R91 to R93, R144). -/

/-- What a step of `i` from `s` to `u` leaves as it was, but for RSP and the registers a transaction changes. -/
structure StepFrame (i : Instr) (s u : State) : Prop where
  cmd : u.cmd = s.cmd
  params : u.params = s.params
  busRest : u.busRest = s.busRest
  fld : u.fld = s.fld ∨ s.phase = .idle ∧ ∃ e, i = .setepoch e ∧ u.fld = Config.calSplit e
  idle : s.phase = .idle → u.mem = s.mem ∧ u.scr = s.scr ∧ u.inputs = s.inputs
  inputs : u.inputs = s.inputs ∨ u.inputs = popBus s.inputs

theorem Command.Moves.frame {i : Instr} {c : Command} {p : Params} (hf : CommandFacts i c) (hw : CommandWrites i p c)
    {s u : State} (h : c.Moves s u) : StepFrame i s u := by
  cases h with
  | begun hp => exact ⟨rfl, rfl, rfl, .inl rfl, fun _ => ⟨rfl, rfl, rfl⟩, .inl rfl⟩
  | latched hp =>
    have hfld := (hw.latch (beginCommand s)).imp (congrArg State.fld) fun h => And.intro hp h
    rw [hf.latch_frame]
    exact ⟨rfl, rfl, rfl, hfld, fun _ => ⟨rfl, rfl, rfl⟩, .inl rfl⟩
  | unmoved hp => exact ⟨rfl, rfl, rfl, .inl rfl, fun _ => ⟨rfl, rfl, rfl⟩, .inl rfl⟩
  | moved hp he k => exact ⟨he.cmd, he.params, he.busRest, .inl he.fld, by simp [hp], .inr he.inputs⟩

theorem StepFrame.finishWith {i : Instr} {s u : State} (h : StepFrame i s u) (code : StatusCode) (fidx : BitVec 4)
    (r : DWord) : StepFrame i s (finishWith code fidx r u) :=
  ⟨h.cmd, h.params, h.busRest, h.fld, h.idle, h.inputs⟩

/-- A step has the frame, and one that leaves a BUSY block BUSY leaves RSP. -/
theorem exec_frame {i : Instr} {s t : State} (h : exec i s = .next t) :
    StepFrame i s t ∧ (t.phase = .busy → s.phase = .busy → t.rsp = s.rsp) := by
  obtain ⟨c, hf, hw, hx⟩ := exec_command i s.params
  obtain ⟨u, hm, he⟩ := runCommand_moves_ends (hx s rfl ▸ h)
  have hu := hm.frame hf hw
  rcases he.eq with rfl | ⟨code, fidx, r, rfl⟩
  · refine ⟨hu, fun _ hp => ?_⟩
    rcases hm.rsp fun s => by rw [hf.latch_frame] with ⟨hidle, -⟩ | ⟨-, hrsp⟩
    · simp [hp] at hidle
    · exact hrsp
  · exact ⟨hu.finishWith code fidx r, nofun⟩

/-! A whole transaction in one step, with its draw (R55, R91, R93). -/

theorem transactWhole_ok {s : State} (h : s.nextDraw = .ok) (c : Command) (t : Tx) :
    transactWhole c t s = finishIfDone c (advanceK (applyTx t s.popDraw)) := by
  simp only [transactWhole, h]

theorem transactWhole_fail {s : State} {l : List Bool} (h : s.nextDraw = .fail l) (c : Command) (t : Tx) :
    transactWhole c t s = finishWith .busFail s.k 0 (applyFailedTx t l s.popDraw) := by
  simp [transactWhole, h]

/-- A legal command at an entry of its script performs it whole. -/
theorem CommandFacts.runs_whole {i : Instr} {c : Command} (hf : CommandFacts i c) {s : State} {t : Tx}
    (hp : s.phase = .busy) (hlegal : issueLegal s.params i = true) (ht : (c.script s)[s.k.toNat]? = some t)
    (ha : s.params.burstAtomic = true) : runCommand c s = .next (transactWhole c t s) := by
  obtain ⟨hmap, -, -⟩ := hf.script_ok s t (List.mem_of_getElem? ht)
  rw [runCommand_busy hp ((hf.check_none s).mpr hlegal) ht hmap, transact, if_pos ha]

/-- Each register a failed write reaches holds its old byte or the one the write would have left (R49). -/
theorem read_devWriteLanded_cases (p : Params) (m : Memory) (o : Nat) (bs : List Byte) (l : List Bool) (a : Nat) :
    (devWriteLanded p m o bs l).read a = m.read a ∨
      (devWriteLanded p m o bs l).read a = (devWriteBytes p m o bs).read a := by
  by_cases ha : o ≤ a ∧ a < o + bs.length
  · obtain ⟨j, rfl⟩ := Nat.exists_eq_add_of_le ha.1
    have hb := List.getElem?_eq_getElem (show j < bs.length by omega)
    rw [read_devWriteLanded_getElem p m o l hb, read_devWriteBytes_getElem p m o hb]
    split
    · exact .inr rfl
    · exact .inl rfl
  · exact .inl (read_devWriteLanded_other p m o bs l a (by omega))

/-- A failed transaction leaves each register at its old byte or at the one it leaves when it succeeds, whatever the
inputs are then. -/
theorem reg_applyFailedTx_cases (t : Tx) (l : List Bool) (s : State) (a : Nat) :
    (applyFailedTx t l s.popDraw).reg a = s.reg a ∨ (applyFailedTx t l s.popDraw).reg a = (applyTx t s).reg a := by
  cases t with
  | read o n slot => exact .inl rfl
  | write o bs => exact read_devWriteLanded_cases s.params s.mem o bs l a

@[simp] theorem State.applyFailedTx_scr (t : Tx) (l : List Bool) (s : State) : (applyFailedTx t l s).scr = s.scr := by
  cases t <;> rfl

end Sys2Proof.Machine

namespace Sys2Proof.Claims

open Sys2Proof.Machine

/-- Settles O5: the next move is the host's issue, or the step of the command in CMD. -/
theorem stepRunsTheDecodedCommand : Obligations.StepRunsTheDecodedCommand :=
  ⟨fun _ _ _ _ hp hi hd => step_issue hp hi hd, fun _ _ hp hd hi => step_busy hp hd hi,
    fun s nbits w _ hd => step_issue (s := s.withFetchWord nbits w) rfl rfl (decode_tableWord hd)⟩

/-- Settles O6: NOP and SETEPOCH by their own pseudocode, every other command by its facts. -/
theorem issueOpensEveryLegalCommand : Obligations.IssueOpensEveryLegalCommand := by
  intro i s hp hlegal
  split
  · exact exec_nop hp
  · next e =>
    rw [exec_setepoch, runCommand_idle hp]
    rfl
  · next hnop hepoch =>
    obtain ⟨f, hx, rfl | ⟨e, he, -⟩⟩ := exec_opens hnop hp hlegal
    · exact hx
    · exact absurd he (hepoch e)

/-- Settles O7: opcode 0x00 is NOP's, and NOP's issue is its finish. -/
theorem nopFinishesAtIssue : Obligations.NopFinishesAtIssue :=
  ⟨encoded_of_decodeFields fun _ => rfl, fun _ hp => exec_nop hp⟩

/-- Settles O8: a word that decodes to nothing ends in the step that issues it, and so does a batch command without
`P_HAS_BATCH`. -/
theorem reservedOpcodeEndsAtIssue : Obligations.ReservedOpcodeEndsAtIssue := by
  rintro s w rest hp hi (hres | ⟨hb, hop⟩)
  · exact step_issueReserved hp hi (decodeFields_of_reserved hres (operandOf w))
  · obtain ⟨i, hd, hbatch⟩ : ∃ i, decode w = .ok i ∧ (i = .getdt ∨ ∃ d, i = .setdt d) := by
      rcases hop with hop | hop
      · exact ⟨_, encoded_of_decodeFields (f := fun _ => .getdt) (fun _ => rfl) w hop, .inl rfl⟩
      · exact ⟨_, encoded_of_decodeFields (f := fun d => .setdt (fullTimeOf d)) (fun _ => rfl) w hop, .inr ⟨_, rfl⟩⟩
    rw [step_issue hp hi hd]
    exact exec_batch_of_no_batch hbatch hb hp

/-- Settles O9: each illegal command by its own check, and conversely only a check gives the code, SETOUT's alone. -/
theorem illegalCommandsEndAtIssue : Obligations.IllegalCommandsEndAtIssue :=
  ⟨fun _ _ hm hp => exec_setout_illegal hm hp, fun _ hb hp => exec_batch_of_no_batch (.inl rfl) hb hp,
    fun d _ hb hp => exec_batch_of_no_batch (.inr ⟨d, rfl⟩) hb hp,
    fun _ _ _ hb hx hv hcode => setout_of_illegalOperand hb hx hv hcode⟩

/-- Settles O11: the transaction K names runs on either draw from the same registers, and the failed one applies some of
the bytes the successful one does. -/
theorem failedTransactionEndsTheCommand : Obligations.FailedTransactionEndsTheCommand := by
  intro i s l hp hlegal hn ha hd
  obtain ⟨c, hf, -, hx⟩ := exec_command i s.params
  obtain ⟨tx, htx⟩ : ∃ tx, (c.script s)[s.k.toNat]? = some tx :=
    ⟨_, List.getElem?_eq_getElem ((hf.script_next s).mpr hn)⟩
  have hrun (inputs : List Input) :
      exec i { s with inputs := inputs } = .next (transactWhole c tx { s with inputs := inputs }) := by
    have hscript := hf.script_local s { s with inputs := inputs } rfl rfl rfl
    rw [hx { s with inputs := inputs } rfl]
    exact hf.runs_whole hp hlegal (by rwa [hscript]) ha
  have hfail : exec i s = .next (finishWith .busFail s.k 0 (applyFailedTx tx l s.popDraw)) := by
    rw [← transactWhole_fail hd c]
    exact hrun s.inputs
  have hok : exec i { s with inputs := .bus .ok :: s.inputs } = .next (finishIfDone c (advanceK (applyTx tx s))) := by
    rw [hrun, transactWhole_ok rfl]
    rfl
  refine ⟨_, _, hfail, hok, rfl, rfl, by simp, by simp, by simp, by simp, by simp, fun a => ?_⟩
  have hu : (finishIfDone c (advanceK (applyTx tx s))).reg a = (applyTx tx s).reg a :=
    congrArg (Memory.read · a) (finishIfDone_mem ..)
  rw [hu]
  exact reg_applyFailedTx_cases tx l s a

/-- Settles O36: the frame every step has, and the registers a command may write. -/
theorem commandStepFrame : Obligations.CommandStepFrame := by
  intro i s t hx
  obtain ⟨hframe, hrsp⟩ := exec_frame hx
  exact ⟨fun _ ha => exec_reg_of_not_mayWrite hx ha, hframe.cmd, hframe.params, hframe.busRest, hframe.fld, hframe.idle,
    hframe.inputs, hrsp⟩

end Sys2Proof.Claims

namespace Sys2Proof.Machine

/-! The codec as arithmetic on the numbers its bytes stand for (R97 to R99). -/

theorem hiNibble_eq (b : Byte) : hiNibble b = b.toNat / 16 := by
  have := b.isLt
  rw [hiNibble, BitVec.extractLsb'_toNat, Nat.shiftRight_eq_div_pow]
  omega

theorem loNibble_eq (b : Byte) : loNibble b = b.toNat % 16 := by
  simp [loNibble]

/-- The encoder wraps from 160 on (R98). -/
theorem toNat_toBCD8 (v : Byte) : (toBCD8 v).toNat = (16 * (v.toNat / 10) + v.toNat % 10) % 256 :=
  BitVec.toNat_ofNat ..

/-- The decoder never wraps (R99). -/
theorem toNat_fromBCD8 (b : Byte) : (fromBCD8 b).toNat = 10 * (b.toNat / 16) + b.toNat % 16 := by
  have := b.isLt
  rw [fromBCD8, hiNibble_eq, loNibble_eq, BitVec.toNat_ofNat]
  omega

/-- Encoding and decoding loses whole multiples of 160, the first value whose tens digit has no nibble. -/
theorem toNat_fromBCD8_toBCD8 (v : Byte) : (fromBCD8 (toBCD8 v)).toNat = v.toNat % 160 := by
  rw [toNat_fromBCD8, toNat_toBCD8]
  omega

/-- A low nibble above 9 carries into the tens digit, so its byte does not survive; every other byte does, whatever its
high nibble. -/
theorem toBCD8_fromBCD8_eq_iff (b : Byte) : toBCD8 (fromBCD8 b) = b ↔ loNibble b ≤ 9 := by
  have := b.isLt
  rw [← BitVec.toNat_inj, toNat_toBCD8, toNat_fromBCD8, loNibble_eq]
  omega

theorem loNibble_le_of_isBCD {b : Byte} (h : isBCD b = true) : loNibble b ≤ 9 := by
  simp only [isBCD, Bool.and_eq_true, decide_eq_true_eq] at h
  exact h.2

/-- The mode bit of an encoded hour is the mode it was encoded in (R102, R105). -/
theorem encCanonHour_h12 (h : Byte) (h12 : Bool) : hourIs12 (encCanonHour h h12) = h12 := by
  cases h12 <;> simp [hourIs12, encCanonHour]

end Sys2Proof.Machine

namespace Sys2Proof.Claims

open Sys2Proof.Machine

/-- Settles O53: up to 159 nothing is lost, from 160 on exactly 160, and a byte survives by its low nibble alone. -/
theorem codecRoundTrips : Obligations.CodecRoundTrips := by
  have hbelow (v : Byte) (hv : v.toNat ≤ 159) : fromBCD8 (toBCD8 v) = v :=
    BitVec.eq_of_toNat_eq (by rw [toNat_fromBCD8_toBCD8, Nat.mod_eq_of_lt (by omega)])
  have habove (v : Byte) (hv : 160 ≤ v.toNat) : fromBCD8 (toBCD8 v) = v - 160 := by
    have := v.isLt
    have hle : 160 ≤ v := BitVec.le_def.mpr hv
    apply BitVec.eq_of_toNat_eq
    rw [toNat_fromBCD8_toBCD8, BitVec.toNat_sub_of_le hle, show (160 : Byte).toNat = 160 from rfl]
    omega
  exact ⟨fromBCD8_toBCD8, hbelow, habove, fun b hb => (toBCD8_fromBCD8_eq_iff b).mpr (loNibble_le_of_isBCD hb),
    toBCD8_fromBCD8_eq_iff, (toBCD8_fromBCD8_eq_iff 0xA0).mpr (by decide), by decide⟩

/-- Settles O54: the hour reads back in either mode, and bit 6 holds the mode. -/
theorem canonicalHourRoundTrips : Obligations.CanonicalHourRoundTrips := fun h m hh =>
  ⟨canonHour_encCanonHour h m (Nat.le_of_lt_succ hh), encCanonHour_h12 h m⟩

end Sys2Proof.Claims

namespace Sys2Proof.Claims

open Sys2Proof.Machine

/-! A command whose script has `n` entries in every state: each entry is a transaction, and the last one finishes it
(R91, R92). -/

/-- Where `P` holds, `i` steps the legal command `c`, whose script has `n` entries, few enough for K (R18). -/
structure Scripted (P : State → Prop) (i : Instr) (c : Command) (n : Nat) : Prop where
  runs : ∀ s, P s → exec i s = runCommand c s
  legal : ∀ s, P s → c.check s = none
  length : ∀ s, (c.script s).length = n
  short : n ≤ 15

section
variable {P : State → Prop} {i : Instr} {c : Command} {n k o : Nat} {result : State → Option DWord}

/-- Issue only opens it (R88). -/
theorem Scripted.opens (h : Scripted P i c n) (hP : ∀ s, P s → P (beginCommand s)) (hl : ∀ s, c.latch s = s)
    (hn : 0 < n) : Opens P i :=
  opens_of_command h.runs (fun s hs => h.legal _ (hP s hs)) hl fun s => by rwa [h.length]

/-- Another transaction follows every entry but the last. -/
theorem Scripted.more (h : Scripted P i c n) (hk : k + 1 < n) : FollowedBy c k more :=
  followedBy_more (by have := h.short; omega) fun t => by rwa [h.length]

/-- The last entry ends the command with its result. -/
theorem Scripted.last (h : Scripted P i c n) (hk : k + 1 = n) {f : State → DWord}
    (hf : ∀ t, c.result (advanceK t) = f t) : FollowedBy c k (last f) :=
  followedBy_last (by have := h.short; omega) (fun t => Nat.le_of_eq ((h.length t).trans hk.symm)) hf

theorem Scripted.reads (h : Scripted P i c n) {m slot : Nat} (ht : ∀ s, (c.script s)[k]? = some (.read o m slot))
    (hm : o + m ≤ 0x13) (hr : FollowedBy c k result) : Reads P i k o m slot result :=
  reads_of_script h.runs h.legal ht hm hr

theorem Scripted.writes (h : Scripted P i c n) {b : State → Byte}
    (ht : ∀ s, (c.script s)[k]? = some (.write o [b s])) (ho : o < 0x13) (hr : FollowedBy c k result) :
    Writes P i k o (fun s => [b s]) result :=
  writes_of_script h.runs h.legal ht (fun _ => ho) hr

end

/-- Where `P` holds, `i` reads register `o`, writes over the byte read the byte `f` makes of the parameters and it, and
R is the byte read. `RunsRmw` is the case where `f` is a merge. -/
def RunsModify (P : State → Prop) (i : Instr) (o : Nat) (f : Params → Byte → Byte) : Prop :=
  Opens P i ∧ Reads P i 0 o 1 0 more ∧ Writes P i 1 o (fun s => [f s.params (s.slot 0)]) (last old0)

/-- The pseudocode of such a command. -/
def modifyWith (o : Nat) (f : Params → Byte → Byte) : Command :=
  .plain (fun s => [.read o 1 0, .write o [f s.params (s.slot 0)]]) old0

/-! The three one-register shapes, each from its pseudocode. The premise holds from issue on. -/

section
variable {P : State → Prop} {i : Instr} {o : Nat} (hP : ∀ s, P s → P (beginCommand s))
include hP

theorem runsModify_of_command {f : Params → Byte → Byte} (ho : o < 0x13)
    (hx : ∀ s, P s → exec i s = runCommand (modifyWith o f) s) : RunsModify P i o f := by
  have h : Scripted P i (modifyWith o f) 2 := ⟨hx, fun _ _ => rfl, fun _ => rfl, by decide⟩
  exact ⟨h.opens hP (fun _ => rfl) (by decide), h.reads (fun _ => rfl) ho (h.more (by decide)),
    h.writes (fun _ => rfl) ho (h.last rfl fun _ => rfl)⟩

theorem runsRmw_of_command {mask val : Byte} (ho : o < 0x13)
    (hx : ∀ s, P s → exec i s = runCommand (rmwCommand o mask val) s) : RunsRmw P i o mask val :=
  runsModify_of_command hP (f := fun p old => rmwByte p o mask val old) ho hx

theorem runsGet_of_command {f : Byte → DWord} (ho : o < 0x13)
    (hx : ∀ s, P s → exec i s = runCommand (readCommand o f) s) : RunsGet P i o f := by
  have h : Scripted P i (readCommand o f) 1 := ⟨hx, fun _ _ => rfl, fun _ => rfl, by decide⟩
  exact ⟨h.opens hP (fun _ => rfl) (by decide), h.reads (fun _ => rfl) ho (h.last rfl fun _ => rfl)⟩

end

/-! The shapes of the statements, from the model's own names for the bytes and results. -/

/-- SETHOUR's byte, by the mode of the byte read (R103, R115). -/
theorem hourOver_eq (p v : Byte) : hourOver p v = setHourRel p v := by
  unfold hourOver setHourRel encHourRel hourIs12 hmask
  cases p.getLsbD 6 <;> rfl

/-- GETHOUR's result, by the mode of the byte (R102, R122). -/
theorem decHourVal_eq (p : Byte) : decHourVal p = if p.getLsbD 6 then fieldVal p 0x1F else fieldVal p 0x3F := by
  unfold decHourVal hourIs12 hmask
  cases p.getLsbD 6 <;> rfl

/-- SETHMODE's byte (R129). -/
theorem setHourMode_eq (f : Bool) (p : Byte) :
    setHourMode f p = if f then p ||| 0x40 else if p.getLsbD 6 then p &&& 0x9F else p &&& 0xBF := by
  have hand : p &&& ~~~0x40 &&& ~~~0x20 = p &&& 0x9F := BitVec.and_assoc ..
  simp only [setHourMode, hourIs12, hand]
  rfl

/-- SETMER's byte (R131). -/
theorem setMeridiem_eq (f : Bool) (p : Byte) : setMeridiem f p = if f then p ||| 0x20 else p &&& 0xDF := by
  cases f
  · exact BitVec.or_zero
  · simp only [setMeridiem, if_true]
    ext i hi
    simp only [BitVec.getElem_and, BitVec.getElem_or, BitVec.getElem_not]
    cases p[i] <;> simp

/-- Settles O14: each setter is one RMW, and its opcode reads its operand from the low end of D. -/
theorem fieldSettersRun : Obligations.FieldSettersRun :=
  ⟨⟨encoded_of_decodeFields fun _ => rfl, fun _ => runsRmw_of_command (fun _ h => h) (by decide) fun _ _ => rfl⟩,
    ⟨encoded_of_decodeFields fun _ => rfl, fun _ => runsRmw_of_command (fun _ h => h) (by decide) fun _ _ => rfl⟩,
    ⟨encoded_of_decodeFields fun _ => rfl, fun _ => runsRmw_of_command (fun _ h => h) (by decide) fun _ _ => rfl⟩,
    ⟨encoded_of_decodeFields fun _ => rfl, fun _ => runsRmw_of_command (fun _ h => h) (by decide) fun _ _ => rfl⟩,
    ⟨encoded_of_decodeFields fun _ => rfl, fun _ => runsRmw_of_command (fun _ h => h) (by decide) fun _ _ => rfl⟩,
    ⟨encoded_of_decodeFields fun _ => rfl, fun _ => runsRmw_of_command (fun _ h => h) (by decide) fun _ _ => rfl⟩⟩

theorem sethour_runsModify (v : Byte) : RunsModify always (.sethour v) 0x02 fun _ p => setHourRel p v :=
  runsModify_of_command (fun _ h => h) (by decide) fun _ _ => rfl

/-- Settles O15: SETHOUR writes over the byte it read, and the bytes of the two rules are the same. -/
theorem sethourRuns : Obligations.SethourRuns := by
  refine ⟨encoded_of_decodeFields fun _ => rfl, fun v => ?_⟩
  simp only [hourOver_eq]
  exact sethour_runsModify v

theorem gethour_runsGet : RunsGet always .gethour 0x02 fun p => (decHourVal p).setWidth 64 :=
  runsGet_of_command (fun _ h => h) (by decide) fun _ _ => rfl

/-- Settles O16: each getter is one read, GETHOUR's decoded by the mode in its byte, GETYEAR's from a base that no
step changes. -/
theorem fieldGettersRun : Obligations.FieldGettersRun := by
  refine ⟨⟨encoded_of_decodeFields fun _ => rfl, runsGet_of_command (fun _ h => h) (by decide) fun _ _ => rfl⟩,
    ⟨encoded_of_decodeFields fun _ => rfl, runsGet_of_command (fun _ h => h) (by decide) fun _ _ => rfl⟩,
    ⟨encoded_of_decodeFields fun _ => rfl, ?_⟩,
    ⟨encoded_of_decodeFields fun _ => rfl, runsGet_of_command (fun _ h => h) (by decide) fun _ _ => rfl⟩,
    ⟨encoded_of_decodeFields fun _ => rfl, runsGet_of_command (fun _ h => h) (by decide) fun _ _ => rfl⟩,
    ⟨encoded_of_decodeFields fun _ => rfl, runsGet_of_command (fun _ h => h) (by decide) fun _ _ => rfl⟩,
    ⟨encoded_of_decodeFields fun _ => rfl, ?_⟩⟩
  · simp only [← decHourVal_eq]
    exact gethour_runsGet
  · rintro base
    exact runsGet_of_command (fun _ h => h) (by decide) fun s hs => by subst hs; rfl

/-- The pseudocode of SETDATE, under a name (R127). -/
def setdateCommand (day month : Byte) (year : BitVec 16) : Command :=
  .plain
    (fun s => rmw s 0x04 0x3F (toBCD8 day) 0 ++ rmw s 0x05 0x1F (toBCD8 month) 1 ++ rmw s 0x06 0xFF (yearToReg year) 2)
    (fun s => packBytes (s.slots 3))

/-- Settles O17: the six transactions are the six entries of the script, in its order. -/
theorem setdateRuns : Obligations.SetdateRuns := by
  refine ⟨encoded_of_decodeFields fun _ => rfl, fun day month year => ?_⟩
  have h : Scripted always (.setdate day month year) (setdateCommand day month year) 6 :=
    ⟨fun _ _ => rfl, fun _ _ => rfl, fun _ => rfl, by decide⟩
  exact ⟨h.opens (fun _ h => h) (fun _ => rfl) (by decide),
    h.reads (fun _ => rfl) (by decide) (h.more (by decide)), h.writes (fun _ => rfl) (by decide) (h.more (by decide)),
    h.reads (fun _ => rfl) (by decide) (h.more (by decide)), h.writes (fun _ => rfl) (by decide) (h.more (by decide)),
    h.reads (fun _ => rfl) (by decide) (h.more (by decide)),
    h.writes (fun _ => rfl) (by decide) (h.last rfl fun t => packBytes_slots3 t)⟩

/-- The pseudocode of SETTIME, under a name (R128). -/
def settimeCommand (hour minute second : Byte) : Command :=
  .plain
    (fun s => [.read 0x02 1 0, .write 0x02 [setHourRel (s.slot 0) hour]] ++
      rmw s 0x01 0x7F (toBCD8 minute) 1 ++ rmw s 0x00 0x7F (toBCD8 second) 2)
    (fun s => packBytes (s.slots 3))

/-- Settles O18: the six transactions are the six entries of the script, in its order. -/
theorem settimeRuns : Obligations.SettimeRuns := by
  refine ⟨encoded_of_decodeFields fun _ => rfl, fun hour minute second => ?_⟩
  have h : Scripted always (.settime hour minute second) (settimeCommand hour minute second) 6 :=
    ⟨fun _ _ => rfl, fun _ _ => rfl, fun _ => rfl, by decide⟩
  simp only [hourOver_eq]
  exact ⟨h.opens (fun _ h => h) (fun _ => rfl) (by decide),
    h.reads (fun _ => rfl) (by decide) (h.more (by decide)), h.writes (fun _ => rfl) (by decide) (h.more (by decide)),
    h.reads (fun _ => rfl) (by decide) (h.more (by decide)), h.writes (fun _ => rfl) (by decide) (h.more (by decide)),
    h.reads (fun _ => rfl) (by decide) (h.more (by decide)),
    h.writes (fun _ => rfl) (by decide) (h.last rfl fun t => packBytes_slots3 t)⟩

/-- GETHMODE's result (R130). -/
theorem setWidth_ofBool (b : Bool) : (BitVec.ofBool b).setWidth 64 = if b then (1 : DWord) else 0 := by
  cases b <;> rfl

theorem sethmode_runsModify (f : Bool) : RunsModify always (.sethmode f) 0x02 fun _ => setHourMode f :=
  runsModify_of_command (fun _ h => h) (by decide) fun _ _ => rfl

/-- Settles O19: SETHMODE writes over the byte it read, GETHMODE reads bit 6 of it. -/
theorem hourModeCommandsRun : Obligations.HourModeCommandsRun := by
  refine ⟨encoded_of_decodeFields fun _ => rfl, fun f => ?_, encoded_of_decodeFields fun _ => rfl, ?_⟩
  · simp only [← setHourMode_eq]
    exact sethmode_runsModify f
  · simp only [← setWidth_ofBool]
    exact runsGet_of_command (fun _ h => h) (by decide) fun _ _ => rfl

/-- The pseudocode of SETMER, under a name (R131). -/
def setmerCommand (f : Bool) : Command :=
  .plain
    (fun s => .read 0x02 1 0 :: (if hourIs12 (s.slot 0) then [.write 0x02 [setMeridiem f (s.slot 0)]] else []))
    old0

/-- The write is skipped in 24-hour mode. -/
theorem setmerCommand_script_length (f : Bool) (s : State) :
    ((setmerCommand f).script s).length = if hourIs12 (s.slot 0) then 2 else 1 := by
  simp only [setmerCommand, Command.plain]
  split <;> rfl

/-- SETMER's read ends it in 24-hour mode (R131). -/
theorem setmer_reads (f : Bool) :
    Reads always (.setmer f) 0 0x02 1 0 (fun s => if (s.slot 0).getLsbD 6 then none else some (old0 s)) := by
  refine reads_of_script (c := setmerCommand f) (fun _ _ => rfl) (fun _ _ => rfl) (fun _ => rfl) (by decide)
    fun t ht => ?_
  have hslot : (advanceK t).slot 0 = t.slot 0 := rfl
  have h6 : (t.slot 0).getLsbD 6 = hourIs12 (t.slot 0) := rfl
  rw [finishIfDone, advanceK_toNat ht (by decide), setmerCommand_script_length, hslot, h6]
  cases hourIs12 (t.slot 0) <;> rfl

/-- SETMER's write, in 12-hour mode (R131). -/
theorem setmer_writes (f : Bool) :
    Writes (fun s => hourIs12 (s.slot 0) = true) (.setmer f) 1 0x02 (fun s => [setMeridiem f (s.slot 0)])
      (last old0) := by
  intro s h12 hs h1
  have ht : ((setmerCommand f).script s)[1]? = some (.write 0x02 [setMeridiem f (s.slot 0)]) := by
    simp [setmerCommand, Command.plain, h12]
  have hr : FollowedBy (setmerCommand f) 1 (last old0) :=
    followedBy_last (by decide) (fun t => by rw [setmerCommand_script_length]; split <;> decide) fun _ => rfl
  have ⟨_, hk, _⟩ := hs
  obtain ⟨hok, hfail⟩ := exec_transaction (i := .setmer f) (c := setmerCommand f) rfl rfl ht rfl hs h1
  exact ⟨fun hd => (hok hd).trans (congrArg _ (hr _ hk)), hfail⟩

/-- GETMER's result, bit by bit (R132). -/
theorem meridiemResult_eq (p : Byte) :
    (BitVec.ofBool (hourIs12 p) ++ BitVec.ofBool (hourIsPm p)).setWidth 64 =
      if p.getLsbD 6 then (if p.getLsbD 5 then (3 : DWord) else 2) else 0 := by
  unfold hourIsPm hourIs12
  cases p.getLsbD 6 <;> cases p.getLsbD 5 <;> rfl

/-- Settles O20: the script of SETMER has its second entry in 12-hour mode only, and GETMER reads both bits. -/
theorem meridiemCommandsRun : Obligations.MeridiemCommandsRun := by
  refine ⟨encoded_of_decodeFields fun _ => rfl, fun f => ?_, encoded_of_decodeFields fun _ => rfl, ?_⟩
  · simp only [← setMeridiem_eq]
    exact ⟨opens_of_command (c := setmerCommand f) (fun _ _ => rfl) (fun _ _ => rfl) (fun _ => rfl)
      fun _ => Nat.succ_pos _, setmer_reads f, setmer_writes f⟩
  · simp only [← meridiemResult_eq]
    exact runsGet_of_command (fun _ h => h) (by decide) fun _ _ => rfl

/-! The levels START and STOP write (R133, R134). -/

theorem oscLevel_true (p : Params) : oscLevel p true = if p.oscActive then oscMask p else 0 := by
  unfold oscLevel
  cases p.oscActive <;> rfl

theorem oscLevel_false (p : Params) : oscLevel p false = if p.oscActive then 0 else oscMask p := by
  unfold oscLevel
  cases p.oscActive <;> rfl

/-- Settles O21: under fixed oscillator parameters START and STOP are one RMW and ISRUN one read. -/
theorem oscillatorCommandsRun : Obligations.OscillatorCommandsRun := by
  refine ⟨encoded_of_decodeFields fun _ => rfl, encoded_of_decodeFields fun _ => rfl,
    encoded_of_decodeFields fun _ => rfl, fun r b active => ?_⟩
  have ho : r.offset < 0x13 := OscReg.offset_lt r
  refine ⟨runsRmw_of_command (fun _ h => h) ho ?_, runsRmw_of_command (fun _ h => h) ho ?_,
    runsGet_of_command (fun _ h => h) ho ?_⟩ <;> rintro s ⟨rfl, rfl, rfl⟩
  · rw [exec, execStart, oscLevel_true]
    rfl
  · rw [exec, execStop, oscLevel_false]
    rfl
  · simp only [exec, execIsrun, oscRunning, beq_iff_eq]
    rfl

/-- Settles O22: the latch is its issue's, and registers 0 to 6 each have two entries of the script. -/
theorem setepochRuns : Obligations.SetepochRuns := by
  refine ⟨encoded_of_decodeFields fun _ => rfl, fun e => ?_⟩
  have hmore {o : Nat} (ho : o < 6) : FollowedBy (setepochCommand e) (2 * o + 1) more :=
    followedBy_more (by omega) fun _ => show 2 * o + 2 < 14 by omega
  exact ⟨fun s hp => issueOpensEveryLegalCommand (.setepoch e) s hp (Bool.or_true _),
    setepoch_reads e (o := 0) (by decide), setepoch_writes e (o := 0) (by decide) (hmore (by decide)),
    setepoch_reads e (o := 1) (by decide), setepoch_writes e (o := 1) (by decide) (hmore (by decide)),
    setepoch_reads e (o := 2) (by decide), setepoch_writes e (o := 2) (by decide) (hmore (by decide)),
    setepoch_reads e (o := 3) (by decide), setepoch_writes e (o := 3) (by decide) (hmore (by decide)),
    setepoch_reads e (o := 4) (by decide), setepoch_writes e (o := 4) (by decide) (hmore (by decide)),
    setepoch_reads e (o := 5) (by decide), setepoch_writes e (o := 5) (by decide) (hmore (by decide)),
    setepoch_reads e (o := 6) (by decide),
    setepoch_writes e (o := 6) (by decide)
      (followedBy_last (by decide) (fun _ => Nat.le_refl _) fun t => packBytes_slots7 t)⟩

/-- Settles O24: the script is one burst read, its result the packed scratch bytes. -/
theorem getdtRuns : Obligations.GetdtRuns := by
  have h : Scripted (fun s => s.params.hasBatch = true) .getdt getdtCommand 1 :=
    ⟨fun s _ => exec_getdt s, fun _ h => batchOnly_check _ h, fun _ => rfl, by decide⟩
  exact ⟨encoded_of_decodeFields fun _ => rfl, h.opens (fun _ h => h) (fun _ => rfl) (by decide),
    h.reads (fun _ => rfl) (by decide) (h.last rfl fun t => fullTimeResult_slots t)⟩

/-- Settles O25: the script is one RMWN of the seven registers. -/
theorem setdtRuns : Obligations.SetdtRuns := by
  refine ⟨encoded_of_decodeFields fun _ => rfl, fun d => ?_⟩
  have h : Scripted (fun s => s.params.hasBatch = true) (.setdt d)
      (burstModifyCommand 0x00 7 (fullTimeBytes d)).batchOnly 2 :=
    ⟨fun _ _ => rfl, fun _ h => batchOnly_check _ h, fun _ => rfl, by decide⟩
  exact ⟨h.opens (fun _ h => h) (fun _ => rfl) (by decide), h.reads (fun _ => rfl) (by decide) (h.more (by decide)),
    writes_of_script h.runs h.legal (fun _ => rfl) (fun _ => show 7 ≤ 0x13 by decide)
      (h.last rfl fun t => packBytes_slots7 t)⟩

/-! What the write of a setter leaves of the byte it read (R141). -/

/-- Bytes with the same bits under a mask do not differ there. -/
theorem differs_eq_zero {old new m : Byte} (h : new &&& m = old &&& m) : (old ^^^ new) &&& m = 0#8 := by
  ext i hi
  have hbit : (new &&& m)[i] = (old &&& m)[i] := by rw [h]
  simp only [BitVec.getElem_and] at hbit
  simp only [BitVec.getElem_and, BitVec.getElem_xor, BitVec.getElem_zero, Bool.and_xor_distrib_right, hbit,
    Bool.xor_self]

/-- A write of W0C flags keeps the bits it offers as they are, and the flags it offers 1 (R40). -/
theorem statusAfterWrite_w0c_keeps {old w m : Byte} (h : w &&& m = (old ||| (0x03#8 &&& w)) &&& m) :
    statusAfterWrite .w0c old w &&& m = old &&& m := by
  have h3 : (0xFC : Byte) = ~~~0x03#8 := rfl
  rw [statusAfterWrite, h3]
  ext i hi
  have hbit : (w &&& m)[i] = ((old ||| (0x03#8 &&& w)) &&& m)[i] := by rw [h]
  revert hbit
  simp only [BitVec.getElem_and, BitVec.getElem_or, BitVec.getElem_not]
  generalize (3#8)[i] = x
  cases x <;> cases old[i] <;> cases w[i] <;> simp

/-- Outside its mask an RMW offers the bits read, but 1 to a flag under flag-protect (R52, R53). -/
theorem rmwByte_outside (p : Params) (o : Nat) (mask val old : Byte) :
    rmwByte p o mask val old &&& ~~~mask = (old ||| (0x03#8 &&& rmwByte p o mask val old)) &&& ~~~mask := by
  unfold rmwByte flagProtected
  split <;>
    (ext i hi
     simp only [BitVec.getElem_and, BitVec.getElem_or, BitVec.getElem_not]
     generalize (3#8)[i] = x
     cases x <;> cases old[i] <;> cases val[i] <;> cases mask[i] <;> rfl)

theorem rmwByte_of_not_flagProtect {p : Params} (h : p.flagProtect = false) (o : Nat) (mask val old : Byte) :
    rmwByte p o mask val old = (old &&& ~~~mask) ||| (val &&& mask) := by
  simp [rmwByte, flagProtected, h]

/-- The write of an RMW keeps the bits outside its mask where the register holds the byte read, with flag-protect only
for W0C flags (R53, R141). -/
theorem devWriteByte_rmwByte_keeps (p : Params) (hflag : p.flagProtect = true → p.flagWsem = .w0c) (m : Memory)
    {o : Nat} (ho : o < 0x10) (mask val : Byte) :
    (devWriteByte p m o (rmwByte p o mask val (m.read o))).read o &&& ~~~mask = m.read o &&& ~~~mask := by
  rw [read_devWriteByte, if_pos rfl]
  split
  · next hstatus =>
    cases hsem : p.flagWsem with
    | w0c => exact statusAfterWrite_w0c_keeps (rmwByte_outside ..)
    | plain =>
      have hprot : p.flagProtect = false := by
        cases h : p.flagProtect with
        | false => rfl
        | true => cases hsem.symm.trans (hflag h)
      rw [statusAfterWrite, rmwByte_of_not_flagProtect hprot, merge_and_not]
  · next hne => rw [if_neg (by omega), rmwByte_of_ne hne, merge_and_not]

section
variable {P : State → Prop} {i : Instr} {o : Nat} {s t : State} (hP : P s) (hs : s.At 1) (hd : s.nextDraw = .ok)
  (hslot : s.slot 0 = s.reg o) (hx : exec i s = .next t)
include hP hs hd hx

/-- What a successful one-byte write leaves in its register (R49). -/
theorem Writes.reg {b : State → Byte} {r : State → DWord} (h : Writes P i 1 o (fun s => [b s]) (last r)) :
    t.reg o = (devWriteByte s.params s.mem o (b s)).read o := by
  have hok := (h s hP hs (.inl rfl)).1 hd
  obtain rfl := Host.Outcome.next.inj (hok.symm.trans hx)
  rfl

include hslot

/-- A register with no write rule of its own takes what the command makes of the byte read. -/
theorem Writes.reg_eq {f : Params → Byte → Byte} {r : State → DWord}
    (h : Writes P i 1 o (fun s => [f s.params (s.slot 0)]) (last r)) (ho : o < 0x0F) :
    t.reg o = f s.params (s.reg o) := by
  rw [h.reg hP hs hd hx, hslot, read_devWriteByte, if_pos rfl, if_neg (by omega), if_neg (by omega)]

theorem RunsModify.reg_eq {f : Params → Byte → Byte} (h : RunsModify P i o f) (ho : o < 0x0F) :
    t.reg o = f s.params (s.reg o) := by
  obtain ⟨-, -, write⟩ := h
  exact write.reg_eq hP hs hd hslot hx ho

/-- An RMW whose register holds the byte read changes it in the mask only. -/
theorem rmw_differs {mask val : Byte} (h : RunsRmw P i o mask val) (ho : o < 0x10)
    (hflag : s.params.flagProtect = true → s.params.flagWsem = .w0c) : (s.reg o ^^^ t.reg o) &&& ~~~mask = 0#8 := by
  obtain ⟨-, -, write⟩ := h
  refine differs_eq_zero ?_
  rw [Writes.reg (b := fun s => rmwByte s.params o mask val (s.slot 0)) hP hs hd hx write, hslot]
  exact devWriteByte_rmwByte_keeps s.params hflag s.mem ho mask val

end

/-- The bits SETHMODE may change: the mode, and PM when leaving 12-hour mode (R129). -/
theorem setHourMode_differs : ∀ (f : Bool) (p : Byte),
    (p ^^^ setHourMode f p) &&& (if p.getLsbD 6 && !(setHourMode f p).getLsbD 6 then 0x9F else 0xBF) = 0#8 := by
  decide

/-- SETHOUR keeps the bits outside the field of the mode (R103). -/
theorem setHourRel_keeps (p v : Byte) : setHourRel p v &&& ~~~(hmask (hourIs12 p)) = p &&& ~~~(hmask (hourIs12 p)) :=
  merge_and_not ..

theorem not_hmask (p : Byte) : ~~~(hmask (hourIs12 p)) = if p.getLsbD 6 then 0xE0 else 0xC0 := by
  unfold hmask hourIs12
  cases p.getLsbD 6 <;> rfl

/-- SETMER keeps all but bit 5 (R131). -/
theorem setMeridiem_keeps (f : Bool) (p : Byte) : setMeridiem f p &&& 0xDF = p &&& 0xDF := by
  cases f
  · exact merge_and_not p 0 0x20
  · exact merge_and_not p 0x20 0x20

/-- A BUSY command past the end of its script finishes (log entry 11). -/
theorem runCommand_end {c : Command} {s : State} (hp : s.phase = .busy) (hc : c.check s = none)
    (ht : (c.script s)[s.k.toNat]? = none) : runCommand c s = .next (finish (c.result s) s) := by
  simp only [runCommand, hp, hc, ht]

/-- At its second transaction SETMER writes in 12-hour mode, and in 24-hour mode has none left. -/
theorem setmer_reg {s t : State} {f : Bool} (hs : s.At 1) (hd : s.nextDraw = .ok) (hslot : s.slot 0 = s.reg 0x02)
    (hx : exec (.setmer f) s = .next t) : t.reg 0x02 = setMeridiem f (s.reg 0x02) ∨ t.reg 0x02 = s.reg 0x02 := by
  cases h12 : hourIs12 (s.slot 0) with
  | true => exact .inl (Writes.reg_eq (f := fun _ => setMeridiem f) h12 hs hd hslot hx (setmer_writes f) (by decide))
  | false =>
    have ⟨hp, hk, _⟩ := hs
    have hend : ((setmerCommand f).script s)[s.k.toNat]? = none := by simp [setmerCommand, Command.plain, h12, hk]
    have hfinish : exec (.setmer f) s = .next (finish (old0 s) s) :=
      runCommand_end (c := setmerCommand f) hp rfl hend
    obtain rfl := Host.Outcome.next.inj (hfinish.symm.trans hx)
    exact .inr rfl

/-- Settles O37: where the register holds the byte read, each command's write keeps the bits outside its mask; SETMER's
may be skipped. -/
theorem unrelatedBitsPreserved : Obligations.UnrelatedBitsPreserved := by
  obtain ⟨⟨-, hsec⟩, ⟨-, hmin⟩, ⟨-, hweek⟩, ⟨-, hday⟩, ⟨-, hmonth⟩, -⟩ := fieldSettersRun
  obtain ⟨-, -, -, hosc⟩ := oscillatorCommandsRun
  intro i o s t hs hd hslot hflag hx differs
  refine ⟨?_, ?_, ?_, ?_, ?_, ?_, ?_, ?_, ?_⟩
  · rintro ⟨v, rfl⟩ rfl
    exact rmw_differs trivial hs hd hslot hx (hsec v) (by decide) hflag
  · rintro ⟨v, rfl⟩ rfl
    exact rmw_differs trivial hs hd hslot hx (hmin v) (by decide) hflag
  · rintro ⟨v, rfl⟩ rfl
    rw [← not_hmask]
    refine differs_eq_zero ?_
    rw [(sethour_runsModify v).reg_eq trivial hs hd hslot hx (by decide)]
    exact setHourRel_keeps ..
  · rintro ⟨v, rfl⟩ rfl
    exact rmw_differs trivial hs hd hslot hx (hweek v) (by decide) hflag
  · rintro ⟨v, rfl⟩ rfl
    exact rmw_differs trivial hs hd hslot hx (hday v) (by decide) hflag
  · rintro ⟨v, rfl⟩ rfl
    exact rmw_differs trivial hs hd hslot hx (hmonth v) (by decide) hflag
  · rintro ⟨f, rfl⟩ rfl
    have hreg := (sethmode_runsModify f).reg_eq trivial hs hd hslot hx (by decide)
    simp only [differs, hreg]
    exact setHourMode_differs f _
  · rintro ⟨f, rfl⟩ rfl
    refine differs_eq_zero ?_
    rcases setmer_reg hs hd hslot hx with hreg | hreg <;> rw [hreg]
    exact setMeridiem_keeps ..
  · obtain ⟨hstart, hstop, -⟩ := hosc s.params.oscReg s.params.oscBit s.params.oscActive
    have ho : s.params.oscReg.offset < 0x10 := by cases s.params.oscReg <;> decide
    rintro (rfl | rfl) rfl
    · exact rmw_differs ⟨rfl, rfl, rfl⟩ hs hd hslot hx hstart ho hflag
    · exact rmw_differs ⟨rfl, rfl, rfl⟩ hs hd hslot hx hstop ho hflag

/-! A setter run to its end, and then a getter (R140). -/

/-- A state that issue has opened is at the first transaction. -/
theorem Stage.opened {s : State} {m : Nat} (hd : s.DrawsOk m) : Stage 0 m (viewOf s) (opened s) :=
  ⟨⟨rfl, rfl, rfl, rfl⟩, hd, rfl⟩

/-- A setter from an IDLE state, both of its transactions successful. -/
theorem RunsModify.finishes {P : State → Prop} {i : Instr} {o m : Nat} {f : Params → Byte → Byte} {s : State}
    (h : RunsModify P i o f) (hP : ∀ t : State, t.params = s.params → P t) (ho : o < 0x0F) (hp : s.phase = .idle)
    (hd : s.DrawsOk (m + 2)) :
    ∃ t, RunsTo i 3 s t ∧ t.phase = .idle ∧ t.DrawsOk m ∧ t.params = s.params ∧ t.reg o = f s.params (s.reg o) := by
  obtain ⟨opens, read, write⟩ := h
  obtain ⟨s1, x0, h1⟩ := read.next (hP (Claims.opened s) rfl) (by decide) (by decide) (Stage.opened hd)
  have hparams : s1.params = s.params := congrArg View.params h1.view
  have hslot : s1.slot 0 = s.reg o := congrFun (congrArg View.slot h1.view) 0
  obtain ⟨u, x1, h2⟩ := write.runs (hP _ hparams) ho h1
  rw [hparams, hslot] at h2
  exact ⟨_, ⟨_, opens s (hP _ rfl) hp, _, x0, _, x1, rfl⟩, rfl, h2.draws, congrArg View.params h2.view,
    (congrFun (congrArg View.reg h2.view) o).trans (if_pos rfl)⟩

/-- A getter from an IDLE state, its transaction successful. -/
theorem RunsGet.finishes {P : State → Prop} {i : Instr} {o : Nat} {f : Byte → DWord} {s : State} (h : RunsGet P i o f)
    (hP : ∀ t : State, t.params = s.params → P t) (hp : s.phase = .idle) (hd : s.DrawsOk 1) :
    ∃ t, Finishes i 2 s t (f (s.reg o)) := by
  obtain ⟨opens, read⟩ := h
  obtain ⟨u, x0, h1⟩ := read.runs (hP (Claims.opened s) rfl) (by decide) (Stage.opened hd)
  have hslot : u.slot 0 = s.reg o := congrFun (congrArg View.slot h1.view) 0
  refine ⟨_, ⟨_, opens s (hP _ rfl) hp, _, x0, rfl⟩, rfl, ?_⟩
  simp only [last, after, ended, hslot]

/-- A setter and then a getter of the same register: R is what the getter makes of the byte the setter left. -/
theorem modify_then_get {set get : Instr} {o : Nat} {f : Params → Byte → Byte} {g : Byte → DWord} {P : State → Prop}
    {s : State} (hset : RunsModify always set o f) (hget : RunsGet P get o g)
    (hP : ∀ t : State, t.params = s.params → P t) (ho : o < 0x0F) (hp : s.phase = .idle) (hd : s.DrawsOk 3) :
    ∃ t u, RunsTo set 3 s t ∧ t.phase = .idle ∧ Finishes get 2 t u (g (f s.params (s.reg o))) ∧
      t.reg o = f s.params (s.reg o) := by
  obtain ⟨t, hrun, hidle, hdt, hparams, hreg⟩ := hset.finishes (fun _ _ => trivial) ho hp hd
  obtain ⟨u, hfin⟩ := hget.finishes (fun v hv => hP v (hv.trans hparams)) hidle hdt
  exact ⟨t, u, hrun, hidle, hreg ▸ hfin, hreg⟩

/-- An RMW of a field and then its getter return the value set, if the field's bits encode it. -/
theorem rmw_then_get {set get : Instr} {o : Nat} {mask val : Byte} {g : Byte → DWord} {r : DWord} {P : State → Prop}
    {s : State} (hset : RunsRmw always set o mask val) (hget : RunsGet P get o g)
    (hP : ∀ t : State, t.params = s.params → P t) (ho : o < 0x0F) (hp : s.phase = .idle) (hd : s.DrawsOk 3)
    (hr : ∀ old, g (rmwByte s.params o mask val old) = r) :
    ∃ t u, RunsTo set 3 s t ∧ t.phase = .idle ∧ Finishes get 2 t u r := by
  obtain ⟨t, u, hrun, hidle, hfin, -⟩ :=
    modify_then_get (f := fun p old => rmwByte p o mask val old) hset hget hP ho hp hd
  exact ⟨t, u, hrun, hidle, hr _ ▸ hfin⟩

theorem toBCD8_and_0x07 : ∀ v : Byte, v.toNat ≤ 7 → toBCD8 v &&& 0x07 = v := by decide

/-- The hour reads back in the mode of the byte it is written over (R102, R103). -/
theorem decHourVal_setHourRel {p v : Byte} (hv : v.toNat ≤ 99) (hm : toBCD8 v &&& hmask (hourIs12 p) = toBCD8 v) :
    decHourVal (setHourRel p v) = v := by
  rw [decHourVal, setHourRel_h12, fieldVal, setHourRel, encHourRel, merge_and, hm, fromBCD8_toBCD8 v hv]

/-- SETHOUR keeps PM in 12-hour mode (R103). -/
theorem setHourRel_bit5 {p : Byte} (h12 : hourIs12 p = true) (v : Byte) :
    (setHourRel p v).getLsbD 5 = p.getLsbD 5 := by
  simp [setHourRel_of_is12 h12]

/-- Settles O55: the setter leaves its byte over the one it read, and the getter decodes the field of that byte. -/
theorem fieldsRoundTrip : Obligations.FieldsRoundTrip := by
  obtain ⟨⟨-, setsec⟩, ⟨-, setmin⟩, ⟨-, setweek⟩, ⟨-, setday⟩, ⟨-, setmonth⟩, ⟨-, setyear⟩⟩ := fieldSettersRun
  obtain ⟨⟨-, getsec⟩, ⟨-, getmin⟩, -, ⟨-, getweek⟩, ⟨-, getday⟩, ⟨-, getmonth⟩, ⟨-, getyear⟩⟩ := fieldGettersRun
  intro s v y hp hd roundTrip
  refine ⟨fun hv => ?_, fun hv => ?_, fun _ hv => ?_, fun _ hv => ?_, fun _ hv => ?_, fun h1 h2 hbase => ?_,
    fun hv => ?_⟩
  · exact rmw_then_get (setsec v) getsec (fun _ _ => trivial) (by decide) hp hd fun old =>
      congrArg _ (fieldVal_rmwByte (by decide) (by omega) (toBCD8_and_0x7F v (by omega)) s.params old)
  · exact rmw_then_get (setmin v) getmin (fun _ _ => trivial) (by decide) hp hd fun old =>
      congrArg _ (fieldVal_rmwByte (by decide) (by omega) (toBCD8_and_0x7F v (by omega)) s.params old)
  · exact rmw_then_get (setweek v) getweek (fun _ _ => trivial) (by decide) hp hd fun old =>
      congrArg _ (by rw [rmwByte_of_ne (by decide), merge_and, toBCD8_and_0x07 v hv])
  · exact rmw_then_get (setday v) getday (fun _ _ => trivial) (by decide) hp hd fun old =>
      congrArg _ (fieldVal_rmwByte (by decide) (by omega) (toBCD8_and_0x3F v (by omega)) s.params old)
  · exact rmw_then_get (setmonth v) getmonth (fun _ _ => trivial) (by decide) hp hd fun old =>
      congrArg _ (fieldVal_rmwByte (by decide) (by omega) (toBCD8_and_0x1F v (by omega)) s.params old)
  · exact rmw_then_get (setyear y) (getyear 2000) (fun _ ht => ht.symm ▸ hbase) (by decide) hp hd fun old =>
      congrArg _ (by rw [rmwByte_year]; exact regToYear_yearToReg h1 h2)
  · obtain ⟨t, u, hrun, -, hfin, hreg⟩ :=
      modify_then_get (sethour_runsModify v) gethour_runsGet (fun _ _ => trivial) (by decide) hp hd
    have hval : decHourVal (setHourRel (s.reg 0x02) v) = v := by
      split at hv
      · next h12 => exact decHourVal_setHourRel (by omega) (by rw [hourIs12, h12]; exact toBCD8_and_0x1F v (by omega))
      · next h12 =>
        exact decHourVal_setHourRel (by omega)
          (by rw [hourIs12, (Bool.not_eq_true _).mp h12]; exact toBCD8_and_0x3F v (by omega))
    refine ⟨t, u, hrun, hval ▸ hfin, ?_, fun h12 => ?_⟩ <;> rw [hreg]
    · exact setHourRel_h12 ..
    · exact setHourRel_bit5 h12 v

/-- Leaving 12-hour mode, the five numeric bits are the hour (R129). -/
theorem decHourVal_leave12 {p : Byte} (h12 : hourIs12 p = true) :
    decHourVal (setHourMode false p) = fieldVal p 0x1F := by
  have hfield : setHourMode false p &&& 0x3F = p &&& 0x1F := by
    simp only [setHourMode, h12, if_true, Bool.false_eq_true, if_false, BitVec.and_assoc]
    rfl
  rw [decHourVal, setHourMode_h12]
  exact congrArg fromBCD8 hfield

/-- SETHMODE never touches bits 4:0 (R129). -/
theorem setHourMode_low (f : Bool) (p : Byte) : setHourMode f p &&& 0x1F = p &&& 0x1F := by
  unfold setHourMode
  split
  · rw [BitVec.and_or_distrib_right]
    exact BitVec.or_zero
  · split <;> (simp only [BitVec.and_assoc]; rfl)

/-- Settles O59: the byte SETHMODE leaves keeps bits 4:0, which are all that GETHOUR then decodes. -/
theorem modeSwitchDoesNotRenormalize : Obligations.ModeSwitchDoesNotRenormalize := by
  intro s hp hd
  refine ⟨fun h12 => ?_, fun f => ?_⟩
  · obtain ⟨t, u, hrun, -, hfin, -⟩ :=
      modify_then_get (sethmode_runsModify false) gethour_runsGet (fun _ _ => trivial) (by decide) hp hd
    rw [decHourVal_leave12 h12] at hfin
    exact ⟨t, u, hrun, hfin⟩
  · obtain ⟨t, hrun, -, -, -, hreg⟩ := (sethmode_runsModify f).finishes (fun _ _ => trivial) (by decide) hp hd
    refine ⟨t, hrun, ?_, ?_⟩ <;> rw [hreg]
    · exact setHourMode_low ..
    · rw [show (setHourMode f (s.reg 0x02)).getLsbD 6 = f from setHourMode_h12 ..]

end Sys2Proof.Claims

namespace Sys2Proof.Machine

/-! A burst read, slot by slot (R19, R48). -/

/-- Bytes delivered from slot `i` on leave the slots below. -/
theorem fillSlots_below {scr : Vector Byte 8} {i x : Nat} (hx : x < i) (bs : List Byte) :
    (fillSlots scr i bs)[x]? = scr[x]? := by
  induction bs generalizing scr i with
  | nil => rfl
  | cons b bs ih => rw [fillSlots, ih (by omega), Vector.getElem?_setIfInBounds_ne (by omega)]

/-- Byte `j` of those delivered from slot `i` on is in slot `i + j`. -/
theorem fillSlots_getElem? {scr : Vector Byte 8} {i j : Nat} {bs : List Byte} {b : Byte} (hi : i + bs.length ≤ 8)
    (hb : bs[j]? = some b) : (fillSlots scr i bs)[i + j]? = some b := by
  induction bs generalizing scr i j with
  | nil => cases hb
  | cons c bs ih =>
    simp only [List.length_cons] at hi
    rw [fillSlots]
    cases j with
    | zero =>
      obtain rfl : c = b := Option.some.inj hb
      show (fillSlots _ (i + 1) bs)[i]? = _
      rw [fillSlots_below (Nat.lt_add_one i), Vector.getElem?_setIfInBounds_self_of_lt (by omega)]
    | succ j =>
      rw [show i + (j + 1) = i + 1 + j by omega]
      exact ih (by omega) hb

theorem readBytes_getElem? (m : Memory) (o : Nat) {n j : Nat} (hj : j < n) :
    (readBytes m o n)[j]? = some (m.read (o + j)) := by
  simp [readBytes, hj]

/-- A burst read of `n` registers leaves register `o + j` in slot `j`. -/
theorem slot_fillSlots_readBytes (s : State) (m : Memory) (o : Nat) {n j : Nat} (hn : n ≤ 8) (hj : j < n) :
    State.slot { s with scr := fillSlots s.scr 0 (readBytes m o n) } j = m.read (o + j) := by
  have h := fillSlots_getElem? (scr := s.scr) (i := 0) (by simpa [readBytes] using hn) (readBytes_getElem? m o hj)
  rw [Nat.zero_add] at h
  simp [State.slot, h]

/-- A burst write below STATUS stores byte `j` in register `o + j` (R49). -/
theorem read_devWriteBytes_plain (p : Params) (m : Memory) {o j : Nat} {bs : List Byte} {b : Byte}
    (hb : bs[j]? = some b) (ho : o + j < 0x0F) : (devWriteBytes p m o bs).read (o + j) = b := by
  rw [read_devWriteBytes_getElem p m o hb, read_devWriteByte, if_pos rfl, if_neg (by omega), if_neg (by omega)]

/-! The codec on what SETDT writes and GETDT reads back (R76, R138, R139). -/

theorem fieldVal_pack {v mask : Byte} (hv : v.toNat ≤ 99) (hm : toBCD8 v &&& mask = toBCD8 v) (old : Byte) :
    fieldVal (pack old mask v) mask = v := by
  rw [fieldVal, pack, Claims.merge_and, hm, Claims.fromBCD8_toBCD8 v hv]

theorem decDow_pack {v : Byte} (hv : v.toNat ≤ 7) (old : Byte) : decDow (pack old 0x07 v) = v := by
  rw [decDow, pack, Claims.merge_and, Claims.toBCD8_and_0x07 v hv]

theorem fullTimeHour_isPm (d : FullTime) (p : Byte) : hourIsPm (fullTimeHour d p) = (d.h12 && d.pm) := by
  rw [hourIsPm, fullTimeHour_h12]
  cases h : d.h12 <;> cases hpm : d.pm <;> simp [fullTimeHour, h, hpm]

theorem fullTimeHour_field (d : FullTime) (p : Byte) :
    fullTimeHour d p &&& hmask d.h12 = toBCD8 (d.hour.setWidth 8) &&& hmask d.h12 := by
  unfold fullTimeHour
  cases h : d.h12 <;> cases hpm : d.pm <;>
    simp [hmask, BitVec.and_or_distrib_right, BitVec.and_assoc]

theorem decHourVal_fullTimeHour {d : FullTime} (hv : d.hour.toNat ≤ 23)
    (hm : toBCD8 (d.hour.setWidth 8) &&& hmask d.h12 = toBCD8 (d.hour.setWidth 8)) (p : Byte) :
    decHourVal (fullTimeHour d p) = d.hour.setWidth 8 := by
  have hw : (d.hour.setWidth 8).toNat = d.hour.toNat := BitVec.toNat_setWidth_of_le (by decide)
  rw [decHourVal, fullTimeHour_h12, fieldVal, fullTimeHour_field, hm, Claims.fromBCD8_toBCD8 _ (by omega)]

/-- The hour byte of a legal hour reads back as its mode, meridiem and hour (R102, R139). -/
theorem hourResult_fullTimeHour {d : FullTime}
    (h : if d.h12 then 1 ≤ d.hour.toNat ∧ d.hour.toNat ≤ 12 else d.hour.toNat ≤ 23 ∧ d.pm = false) (p : Byte) :
    Claims.hourResult (fullTimeHour d p) = BitVec.ofBool d.h12 ++ BitVec.ofBool d.pm ++ d.hour := by
  have hw : (d.hour.setWidth 8).toNat = d.hour.toNat := BitVec.toNat_setWidth_of_le (by decide)
  have hlegal : d.hour.toNat ≤ 23 ∧ (d.h12 && d.pm) = d.pm ∧
      toBCD8 (d.hour.setWidth 8) &&& hmask d.h12 = toBCD8 (d.hour.setWidth 8) := by
    split at h
    · next h12 =>
      obtain ⟨-, hle⟩ := h
      rw [h12]
      exact ⟨by omega, rfl, Claims.toBCD8_and_0x1F _ (by omega)⟩
    · next h12 =>
      obtain ⟨hle, hpm⟩ := h
      rw [(Bool.not_eq_true _).mp h12, hpm]
      exact ⟨hle, rfl, Claims.toBCD8_and_0x3F _ (by omega)⟩
  obtain ⟨hle, hpm, hm⟩ := hlegal
  rw [← hourByte_eq, hourByte, fullTimeHour_h12, fullTimeHour_isPm, hpm, decHourVal_fullTimeHour hle hm,
    BitVec.setWidth_setWidth_of_le _ (by decide), BitVec.setWidth_eq]

/-- Format F64's hour byte is its three fields side by side (R76). -/
theorem append_hourByte {n : Nat} (x : BitVec n) (h12 pm : BitVec 1) (hour : BitVec 6) :
    x ++ (h12 ++ pm ++ hour) = (x ++ h12 ++ pm ++ hour : BitVec (n + 8)) := by
  simp only [BitVec.append_assoc, BitVec.cast_eq]

end Sys2Proof.Machine

namespace Sys2Proof.Claims

open Sys2Proof.Machine

/-! Commands of bursts, run to their end with atomic bursts (R54, R55). -/

section
variable {P : State → Prop} {i : Instr} {o n : Nat} {s : State} (hP : ∀ t : State, t.params = s.params → P t)
  (ha : s.params.burstAtomic = true) (hn : n ≤ 8) (hp : s.phase = .idle)
include hP ha hn hp

/-- An RMWN from an IDLE state, both of its bursts successful: it writes what `f` makes of the bytes it read. -/
theorem RunsRmwn.finishes {m : Nat} {f : (Nat → Byte) → List Byte} {r : State → DWord} (h : RunsRmwn P i o n f r)
    (hd : s.DrawsOk (m + 2)) :
    ∃ t old, RunsTo i 3 s t ∧ t.phase = .idle ∧ t.DrawsOk m ∧ t.params = s.params ∧
      t.mem = devWriteBytes s.params s.mem o (f old) ∧ ∀ j, j < n → old j = s.reg (o + j) := by
  obtain ⟨opens, read, write⟩ := h
  obtain ⟨hd0, hd1, hdm⟩ := hd
  have x0 := (read (opened s) (hP _ rfl) ⟨rfl, rfl, rfl, rfl⟩ (.inr ha)).1 hd0
  have x1 := (write _ (hP (after none { drawn (opened s) with scr := fillSlots s.scr 0 (readBytes s.mem o n) }) rfl)
    ⟨rfl, rfl, rfl, rfl⟩ (.inr ha)).1 hd1
  exact ⟨_, _, ⟨_, opens s (hP _ rfl) hp, _, x0, _, x1, rfl⟩, rfl, hdm, rfl, rfl,
    fun j hj => slot_fillSlots_readBytes s s.mem o hn hj⟩

/-- A burst getter from an IDLE state, its transaction successful: R is `f` of the registers' bytes. -/
theorem burstGet_finishes {f : State → DWord} (opens : Opens P i) (read : Reads P i 0 o n 0 (last f))
    (hd : s.DrawsOk 1) :
    ∃ t u, Finishes i 2 s t (f u) ∧ u.params = s.params ∧ ∀ j, j < n → u.slot j = s.reg (o + j) := by
  obtain ⟨hd0, -⟩ := hd
  have x0 := (read (opened s) (hP _ rfl) ⟨rfl, rfl, rfl, rfl⟩ (.inr ha)).1 hd0
  exact ⟨_, _, ⟨⟨_, opens s (hP _ rfl) hp, _, x0, rfl⟩, rfl, rfl⟩, rfl,
    fun j hj => slot_fillSlots_readBytes s s.mem o hn hj⟩

end

/-- Settles O56: SETDT's write leaves its seven bytes in the registers, GETDT packs them, and the codec gives back each
field of the operand. -/
theorem batchRoundTrip : Obligations.BatchRoundTrip := by
  intro s d hp hd hbatch ha hbase hy1 hy2 hm1 hm2 hday1 hday2 hw1 hw2 hhour hmin hsec
  obtain ⟨-, setdt⟩ := setdtRuns
  obtain ⟨-, opens, read⟩ := getdtRuns
  obtain ⟨t, old, hset, hidle, hdt, hparams, hmem, -⟩ :=
    (setdt d).finishes (fun u hu => hu.symm ▸ hbatch) ha (by decide) hp hd
  obtain ⟨u, v, hget, hvparams, hslots⟩ :=
    burstGet_finishes (fun w hw => (hw.trans hparams).symm ▸ hbatch) (hparams.symm ▸ ha) (by decide) hidle opens read
      hdt
  refine ⟨t, u, hset, ?_⟩
  have hslot {j : Nat} {b : Byte} (hb : (fullTimeBytes d ((List.range 7).map old))[j]? = some b) (hj : j < 7) :
      v.slot j = b := by
    rw [hslots j hj, State.reg, hmem]
    exact read_devWriteBytes_plain _ _ hb (by omega)
  have hyear : v.params.yearBase + (fromBCD8 (v.slot 6)).setWidth 16 = d.year := by
    rw [hslot (j := 6) rfl (by decide), hvparams, hparams, hbase]
    exact regToYear_yearToReg hy1 hy2
  have hmonth : fieldVal (v.slot 5) 0x1F = d.month := by
    rw [hslot (j := 5) rfl (by decide)]
    exact fieldVal_pack (by omega) (toBCD8_and_0x1F _ (by omega)) _
  have hdate : fieldVal (v.slot 4) 0x3F = d.date := by
    rw [hslot (j := 4) rfl (by decide)]
    exact fieldVal_pack (by omega) (toBCD8_and_0x3F _ (by omega)) _
  have hdow : v.slot 3 &&& 0x07 = d.dow := by
    rw [hslot (j := 3) rfl (by decide)]
    exact decDow_pack hw2 _
  have hhours : hourResult (v.slot 2) = BitVec.ofBool d.h12 ++ BitVec.ofBool d.pm ++ d.hour := by
    rw [hslot (j := 2) rfl (by decide)]
    exact hourResult_fullTimeHour hhour _
  have hminute : fieldVal (v.slot 1) 0x7F = d.minute := by
    rw [hslot (j := 1) rfl (by decide)]
    exact fieldVal_pack (by omega) (toBCD8_and_0x7F _ (by omega)) _
  have hsecond : fieldVal (v.slot 0) 0x7F = d.second := by
    rw [hslot (j := 0) rfl (by decide)]
    exact fieldVal_pack (by omega) (toBCD8_and_0x7F _ (by omega)) _
  have hresult : getdtResult v = operand (.setdt d) := by
    rw [getdtResult, hyear, hmonth, hdate, hdow, hhours, hminute, hsecond, append_hourByte]
    rfl
  rwa [hresult] at hget

end Sys2Proof.Claims

namespace Sys2Proof.Machine

/-! The fields a comparator step compares (R155). -/

theorem fieldMatches_iff (alarm : Byte) (eq : Bool) :
    fieldMatches alarm eq = true ↔ alarm.getLsbD 7 = true ∨ eq = true :=
  Bool.or_eq_true_iff

/-- The day is compared with DOW or with DATE, by DYDT (R155). -/
theorem dayEq_iff (a dow date : Byte) :
    dayEq a dow date = true ↔
      if a.getLsbD 6 then a &&& 0x0F = dow &&& 0x07 else fieldVal a 0x3F = fieldVal date 0x3F := by
  unfold dayEq decAlarmDayVal alarmDayIsDow decDow
  cases a.getLsbD 6 <;> exact beq_iff_eq

/-- A regular kind of alarm 1 counts its unmasked fields, the seconds first (R152). -/
theorem masks_of_kind1 {m1 m2 m3 m4 : Bool} {k : Byte} (h : kind1 m1 m2 m3 m4 = k) (hk : k ≠ 0xFF) :
    (m1 = true ↔ k < 1) ∧ (m2 = true ↔ k < 2) ∧ (m3 = true ↔ k < 3) ∧ (m4 = true ↔ k < 4) := by
  subst h
  revert m1 m2 m3 m4
  decide

/-- A regular kind of alarm 2 counts its unmasked fields, the minutes first (R152). -/
theorem masks_of_kind2 {m2 m3 m4 : Bool} {k : Byte} (h : kind2 m2 m3 m4 = k) (hk : k ≠ 0xFF) :
    (m2 = true ↔ k < 1) ∧ (m3 = true ↔ k < 2) ∧ (m4 = true ↔ k < 3) := by
  subst h
  revert m2 m3 m4
  decide

end Sys2Proof.Machine

namespace Sys2Proof.Claims

open Sys2Proof.Machine

/-- Settles O48: a field matches if its mask bit is set or it is equal, and a kind fixes the mask bits. -/
theorem maskKindsSelectTheComparedFields : Obligations.MaskKindsSelectTheComparedFields := by
  intro reg sec min hour day kindA zero min2 hour2 day2 kindB masked
  have match1_iff : match1 reg = true ↔
      (masked 0x07 ∨ sec) ∧ (masked 0x08 ∨ min) ∧ (masked 0x09 ∨ hour) ∧ (masked 0x0A ∨ day) := by
    simp only [match1, Bool.and_eq_true, fieldMatches_iff, dayEq_iff, beq_iff_eq, and_assoc]
    rfl
  have match2_iff : match2 reg = true ↔
      zero ∧ (masked 0x0B ∨ min2) ∧ (masked 0x0C ∨ hour2) ∧ (masked 0x0D ∨ day2) := by
    simp only [match2, Bool.and_eq_true, fieldMatches_iff, dayEq_iff, beq_iff_eq, and_assoc]
    rfl
  have of_kind1 {k : Byte} (h : kindA = k) (hk : k ≠ 0xFF) :
      match1 reg = true ↔ (k < 1 ∨ sec) ∧ (k < 2 ∨ min) ∧ (k < 3 ∨ hour) ∧ (k < 4 ∨ day) := by
    obtain ⟨m1, m2, m3, m4⟩ := masks_of_kind1 h hk
    rw [match1_iff, ← m1, ← m2, ← m3, ← m4]
    rfl
  have of_kind2 {k : Byte} (h : kindB = k) (hk : k ≠ 0xFF) :
      match2 reg = true ↔ zero ∧ (k < 1 ∨ min2) ∧ (k < 2 ∨ hour2) ∧ (k < 3 ∨ day2) := by
    obtain ⟨m2, m3, m4⟩ := masks_of_kind2 h hk
    rw [match2_iff, ← m2, ← m3, ← m4]
    rfl
  refine ⟨match1_iff, match2_iff, fun h => ?_, fun h => ?_, fun h => ?_, fun h => ?_, fun h => ?_, fun h => ?_,
    fun h => ?_, fun h => ?_, fun h => ?_⟩
  · simpa using of_kind1 h (by decide)
  · simpa using of_kind1 h (by decide)
  · simpa using of_kind1 h (by decide)
  · simpa using of_kind1 h (by decide)
  · simpa using of_kind1 h (by decide)
  · simpa using of_kind2 h (by decide)
  · simpa using of_kind2 h (by decide)
  · simpa using of_kind2 h (by decide)
  · simpa using of_kind2 h (by decide)

/-! The alarm commands of one register (R157 to R165, R167, R169). -/

/-- Settles O29: each is one RMW of CONTROL. -/
theorem alarmEnableCommandsRun : Obligations.AlarmEnableCommandsRun :=
  ⟨⟨encoded_of_decodeFields fun _ => rfl, runsRmw_of_command (fun _ h => h) (by decide) fun _ _ => rfl⟩,
    ⟨encoded_of_decodeFields fun _ => rfl, runsRmw_of_command (fun _ h => h) (by decide) fun _ _ => rfl⟩,
    ⟨encoded_of_decodeFields fun _ => rfl, runsRmw_of_command (fun _ h => h) (by decide) fun _ _ => rfl⟩,
    ⟨encoded_of_decodeFields fun _ => rfl, runsRmw_of_command (fun _ h => h) (by decide) fun _ _ => rfl⟩⟩

/-- Settles O30: each is one read of STATUS, its result the flag's bit. -/
theorem triggerQueriesRun : Obligations.TriggerQueriesRun := by
  refine ⟨⟨encoded_of_decodeFields fun _ => rfl, ?_⟩, ⟨encoded_of_decodeFields fun _ => rfl, ?_⟩⟩ <;>
    simp only [← setWidth_ofBool]
  · exact runsGet_of_command (fun _ h => h) (by decide) fun _ _ => rfl
  · exact runsGet_of_command (fun _ h => h) (by decide) fun _ _ => rfl

/-- An RMW of STATUS under flag-protect that clears its mask writes 1 to each flag outside it (R53). -/
theorem mergedAt_status_clear {s : State} (h : s.params.flagProtect = true) (mask : Byte) :
    mergedAt 0x0F mask 0x00 0 s = [(s.slot 0 &&& ~~~mask) ||| (0x03 &&& ~~~mask)] := by
  simp [mergedAt, h]

/-- Settles O31: each is one RMW of STATUS, which under flag-protect writes 1 to the other flag. -/
theorem clearCommandsRun : Obligations.ClearCommandsRun :=
  ⟨⟨encoded_of_decodeFields fun _ => rfl, runsRmw_of_command (fun _ h => h) (by decide) fun _ _ => rfl⟩,
    ⟨encoded_of_decodeFields fun _ => rfl, runsRmw_of_command (fun _ h => h) (by decide) fun _ _ => rfl⟩,
    fun _ h => ⟨mergedAt_status_clear h 0x01, mergedAt_status_clear h 0x02⟩⟩

/-- SETOUT 0 routes the interrupt to the pin, as ALMPIN does (R165, R167). -/
theorem setout_int_runsRmw : RunsRmw always (.setout 0) 0x0E 0x44 0x04 :=
  runsRmw_of_command (fun _ h => h) (by decide) fun _ _ => rfl

/-- SETOUT with a legal mode from 1 on sets SQWE, clears INTCN and stores RS = mode - 1 (R167). -/
theorem setout_sqw_runsRmw {mode : Byte} (hm : legalOutMode mode = true) (h0 : mode ≠ 0) :
    RunsRmw always (.setout mode) 0x0E 0x5C (0x40 ||| ((mode - 1) <<< 3)) :=
  runsRmw_of_command (fun _ h => h) (by decide) fun s _ => by
    simp only [exec, execSetout, hm, h0, if_true, if_false]
    rfl

/-- Settles O32: each legal mode is one RMW of CONTROL, with the mode's field in the value. -/
theorem pinCommandsRun : Obligations.PinCommandsRun :=
  ⟨⟨encoded_of_decodeFields fun _ => rfl, runsRmw_of_command (fun _ h => h) (by decide) fun _ _ => rfl⟩,
    ⟨encoded_of_decodeFields fun _ => rfl, runsRmw_of_command (fun _ h => h) (by decide) fun _ _ => rfl⟩,
    encoded_of_decodeFields fun _ => rfl, setout_int_runsRmw,
    setout_sqw_runsRmw (mode := 1) rfl (by decide), setout_sqw_runsRmw (mode := 2) rfl (by decide),
    setout_sqw_runsRmw (mode := 3) rfl (by decide), setout_sqw_runsRmw (mode := 4) rfl (by decide)⟩

/-! The alarm setters and getters as bursts (R54, R144, R152). -/

/-- A command that is one RMWN, each of its bursts one step. -/
theorem runsRmwn_of_command {P : State → Prop} (hP : ∀ s, P s → P (beginCommand s)) {i : Instr} {o n : Nat}
    {g : List Byte → List Byte} {f : (Nat → Byte) → List Byte} {r : State → DWord}
    (hx : ∀ s, P s → exec i s = runCommand (burstModifyCommand o n g) s) (hg : ∀ s : State, g (s.slots n) = f s.slot)
    (hn : ∀ old, (f old).length = n) (hm : o + n ≤ 0x13) (hr : ∀ s : State, packBytes (s.slots n) = r s) :
    RunsRmwn P i o n f r := by
  have h : Scripted P i (burstModifyCommand o n g) 2 := ⟨hx, fun _ _ => rfl, fun _ => rfl, by decide⟩
  have hwrite (s : State) : ((burstModifyCommand o n g).script s)[1]? = some (.write o (f s.slot)) := by
    rw [← hg]
    rfl
  exact ⟨h.opens hP (fun _ => rfl) (by decide), h.reads (fun _ => rfl) hm (h.more (by decide)),
    writes_of_script h.runs h.legal hwrite (fun s => by rwa [hn]) (h.last rfl fun t => hr t)⟩

/-- An alarm 1 setter is one RMWN of its four registers (R144). -/
theorem alarm1_runsRmwn {i : Instr} {fields : List AlarmField} {sec min hour day : Option Byte}
    (hx : ∀ s, exec i s = runCommand (burstModifyCommand 0x07 4 (alarmBytes fields)) s)
    (hf : ∀ s : State, alarmBytes fields (s.slots 4) = alarm1Over sec min hour day s.slot) :
    RunsRmwn always i 0x07 4 (alarm1Over sec min hour day) oldBytes4 :=
  runsRmwn_of_command (fun _ h => h) (fun s _ => hx s) hf (fun _ => rfl) (by decide) packBytes_slots4

/-- An alarm 2 setter is one RMWN of its three registers (R144). -/
theorem alarm2_runsRmwn {i : Instr} {fields : List AlarmField} {min hour day : Option Byte}
    (hx : ∀ s, exec i s = runCommand (burstModifyCommand 0x0B 3 (alarmBytes fields)) s)
    (hf : ∀ s : State, alarmBytes fields (s.slots 3) = alarm2Over min hour day s.slot) :
    RunsRmwn always i 0x0B 3 (alarm2Over min hour day) oldBytes3 :=
  runsRmwn_of_command (fun _ h => h) (fun s _ => hx s) hf (fun _ => rfl) (by decide) packBytes_slots3

theorem seta1s_runsRmwn (s : Byte) :
    RunsRmwn always (.seta1s s) 0x07 4 (alarm1Over (some s) none none none) oldBytes4 :=
  alarm1_runsRmwn (fun _ => rfl) fun _ => rfl

theorem seta1ms_runsRmwn (m s : Byte) :
    RunsRmwn always (.seta1ms m s) 0x07 4 (alarm1Over (some s) (some m) none none) oldBytes4 :=
  alarm1_runsRmwn (fun _ => rfl) fun _ => rfl

theorem seta1hms_runsRmwn (h m s : Byte) :
    RunsRmwn always (.seta1hms h m s) 0x07 4 (alarm1Over (some s) (some m) (some h) none) oldBytes4 :=
  alarm1_runsRmwn (fun _ => rfl) fun _ => rfl

theorem seta1dhms_runsRmwn (d h m s : Byte) :
    RunsRmwn always (.seta1dhms d h m s) 0x07 4 (alarm1Over (some s) (some m) (some h) (some d)) oldBytes4 :=
  alarm1_runsRmwn (fun _ => rfl) fun _ => rfl

theorem seta2m_runsRmwn (m : Byte) :
    RunsRmwn always (.seta2m m) 0x0B 3 (alarm2Over (some m) none none) oldBytes3 :=
  alarm2_runsRmwn (fun _ => rfl) fun _ => rfl

theorem seta2hm_runsRmwn (h m : Byte) :
    RunsRmwn always (.seta2hm h m) 0x0B 3 (alarm2Over (some m) (some h) none) oldBytes3 :=
  alarm2_runsRmwn (fun _ => rfl) fun _ => rfl

theorem seta2dhm_runsRmwn (d h m : Byte) :
    RunsRmwn always (.seta2dhm d h m) 0x0B 3 (alarm2Over (some m) (some h) (some d)) oldBytes3 :=
  alarm2_runsRmwn (fun _ => rfl) fun _ => rfl

/-- Settles O26: the bytes each setter writes are the mask generator's on the fields it is given. -/
theorem alarm1SettersRun : Obligations.Alarm1SettersRun :=
  ⟨⟨encoded_of_decodeFields fun _ => rfl, seta1s_runsRmwn⟩, ⟨encoded_of_decodeFields fun _ => rfl, seta1ms_runsRmwn⟩,
    ⟨encoded_of_decodeFields fun _ => rfl, seta1hms_runsRmwn⟩,
    ⟨encoded_of_decodeFields fun _ => rfl, seta1dhms_runsRmwn⟩⟩

/-- Settles O27: the bytes each setter writes are the mask generator's on the fields it is given. -/
theorem alarm2SettersRun : Obligations.Alarm2SettersRun :=
  ⟨⟨encoded_of_decodeFields fun _ => rfl, seta2m_runsRmwn⟩, ⟨encoded_of_decodeFields fun _ => rfl, seta2hm_runsRmwn⟩,
    ⟨encoded_of_decodeFields fun _ => rfl, seta2dhm_runsRmwn⟩⟩

/-- Settles O28: each script is one burst read, its result the decoded scratch bytes. -/
theorem alarmGettersRun : Obligations.AlarmGettersRun := by
  have h1 : Scripted always .geta1 (burstReadCommand 0x07 4 alarm1Result) 1 :=
    ⟨fun _ _ => rfl, fun _ _ => rfl, fun _ => rfl, by decide⟩
  have h2 : Scripted always .geta2 (burstReadCommand 0x0B 3 alarm2Result) 1 :=
    ⟨fun _ _ => rfl, fun _ _ => rfl, fun _ => rfl, by decide⟩
  exact ⟨encoded_of_decodeFields fun _ => rfl, encoded_of_decodeFields fun _ => rfl,
    ⟨h1.opens (fun _ h => h) (fun _ => rfl) (by decide),
      h1.reads (fun _ => rfl) (by decide) (h1.last rfl fun t => alarm1Result_slots t)⟩,
    ⟨h2.opens (fun _ h => h) (fun _ => rfl) (by decide),
      h2.reads (fun _ => rfl) (by decide) (h2.last rfl fun t => alarm2Result_slots t)⟩⟩

end Sys2Proof.Claims

namespace Sys2Proof.Machine

/-! An alarm setter's bytes as its getter reads them back (R143, R144, R152). -/

/-- The shape of the alarm getters' results (R153, R154). -/
def alarmWord (kind mask day hour minute second : Byte) : DWord :=
  0#16 ++ kind ++ mask ++ day ++ hour ++ minute ++ second

/-- The word from its constant upper half. -/
theorem alarmWord_eq_append {kind mask : Byte} {head : BitVec 32} (h : 0#16 ++ kind ++ mask = head)
    (day hour minute second : Byte) :
    alarmWord kind mask day hour minute second = head ++ day ++ hour ++ minute ++ second := by
  subst h
  rfl

/-- Two adjacent fields of a word, from each of them. -/
theorem extractLsb'_eq_append {w p n m : Nat} {x : BitVec w} {hi : BitVec m} {lo : BitVec n}
    (hhi : x.extractLsb' (p + n) m = hi) (hlo : x.extractLsb' p n = lo) : x.extractLsb' p (m + n) = hi ++ lo := by
  subst hhi hlo
  exact (BitVec.extractLsb'_append_extractLsb'_eq_extractLsb' rfl).symm

section
variable (kind mask day hour minute second : Byte)

theorem alarmWord_bytes :
    (alarmWord kind mask day hour minute second).extractLsb' 0 8 = second ∧
      (alarmWord kind mask day hour minute second).extractLsb' 8 8 = minute ∧
      (alarmWord kind mask day hour minute second).extractLsb' 16 8 = hour ∧
      (alarmWord kind mask day hour minute second).extractLsb' 32 8 = mask ∧
      (alarmWord kind mask day hour minute second).extractLsb' 40 8 = kind := by
  simp (disch := decide) only [alarmWord, BitVec.extractLsb'_append_eq_of_le, BitVec.extractLsb'_append_eq_right,
    Nat.reduceSub, and_self]

theorem alarmWord_minute_second :
    (alarmWord kind mask day hour minute second).extractLsb' 0 16 = minute ++ second := by
  obtain ⟨hsecond, hminute, -⟩ := alarmWord_bytes kind mask day hour minute second
  exact extractLsb'_eq_append hminute hsecond

theorem alarmWord_time :
    (alarmWord kind mask day hour minute second).extractLsb' 0 24 = hour ++ minute ++ second := by
  obtain ⟨hsecond, hminute, hhour, -⟩ := alarmWord_bytes kind mask day hour minute second
  exact extractLsb'_eq_append (extractLsb'_eq_append (p := 8) hhour hminute) hsecond

theorem alarmWord_kind_mask :
    (alarmWord kind mask day hour minute second).extractLsb' 32 16 = kind ++ mask := by
  obtain ⟨-, -, -, hmask, hkind⟩ := alarmWord_bytes kind mask day hour minute second
  exact extractLsb'_eq_append hkind hmask

end

/-- A field's mask bit is set exactly if the field is not supplied (R144). -/
theorem maskBit_maskField {m : Byte} (hm : maskBit m = false) (supplied : Option Byte) (old : Byte) :
    maskBit (Claims.maskField supplied m old) = supplied.isNone := by
  unfold maskBit at hm
  cases supplied with
  | none => simp [maskBit, Claims.maskField]
  | some v => simp only [maskBit, Claims.maskField, BitVec.getLsbD_and, hm, Bool.and_false, Option.isNone_some]

theorem maskBit_0x7F : maskBit 0x7F = false := rfl

theorem maskBit_0x3F : maskBit 0x3F = false := rfl

/-- What GETA1 makes of an alarm 1 setter's bytes: kind and mask by the fields supplied. -/
theorem alarm1Result_alarm1Over (sec min hour day : Option Byte) (old : Nat → Byte) :
    alarm1Result (Claims.alarm1Over sec min hour day old) =
      alarmWord (kind1 sec.isNone min.isNone hour.isNone day.isNone)
        (maskByte sec.isNone min.isNone hour.isNone day.isNone) (alarmDayByte (Claims.maskField day 0x3F (old 3)))
        (hourByte (Claims.maskField hour 0x3F (old 2))) (fieldVal (Claims.maskField min 0x7F (old 1)) 0x7F)
        (fieldVal (Claims.maskField sec 0x7F (old 0)) 0x7F) := by
  rw [← maskBit_maskField maskBit_0x7F sec (old 0), ← maskBit_maskField maskBit_0x7F min (old 1),
    ← maskBit_maskField maskBit_0x3F hour (old 2), ← maskBit_maskField maskBit_0x3F day (old 3)]
  rfl

/-- What GETA2 makes of an alarm 2 setter's bytes, likewise; alarm 2 has no seconds. -/
theorem alarm2Result_alarm2Over (min hour day : Option Byte) (old : Nat → Byte) :
    alarm2Result (Claims.alarm2Over min hour day old) =
      alarmWord (kind2 min.isNone hour.isNone day.isNone) (maskByte false min.isNone hour.isNone day.isNone)
        (alarmDayByte (Claims.maskField day 0x3F (old 2))) (hourByte (Claims.maskField hour 0x3F (old 1)))
        (fieldVal (Claims.maskField min 0x7F (old 0)) 0x7F) 0 := by
  rw [← maskBit_maskField maskBit_0x7F min (old 0), ← maskBit_maskField maskBit_0x3F hour (old 1),
    ← maskBit_maskField maskBit_0x3F day (old 2)]
  rfl

/-! A supplied field reads back as the value set, in its legal range. -/

theorem fieldVal_supplied {v : Byte} (hv : v.toNat ≤ 59) (old : Byte) :
    fieldVal (Claims.maskField (some v) 0x7F old) 0x7F = v := by
  have hm := Claims.toBCD8_and_0x7F v (by omega)
  rw [Claims.maskField, fieldVal, hm, hm, Claims.fromBCD8_toBCD8 v (by omega)]

/-- The 24-hour form has bits 7 and 6 clear (R144). -/
theorem hourByte_toBCD8 : ∀ h : Byte, h.toNat ≤ 23 → hourByte (toBCD8 h &&& 0x3F) = h := by decide

theorem hourByte_supplied {h : Byte} (hh : h.toNat ≤ 23) (old : Byte) :
    hourByte (Claims.maskField (some h) 0x3F old) = h := hourByte_toBCD8 h hh

/-- A date has DYDT clear (R144). -/
theorem alarmDayByte_toBCD8 : ∀ d : Byte, d.toNat ≤ 31 → alarmDayByte (toBCD8 d &&& 0x3F) = d := by decide

theorem alarmDayByte_supplied {d : Byte} (hd : d.toNat ≤ 31) (old : Byte) :
    alarmDayByte (Claims.maskField (some d) 0x3F old) = d := alarmDayByte_toBCD8 d hd

end Sys2Proof.Machine

namespace Sys2Proof.Claims

open Sys2Proof.Machine

section
variable {set : Instr} {s : State} (hp : s.phase = .idle) (hd : s.DrawsOk 3) (ha : s.params.burstAtomic = true)
include hp hd ha

/-- An RMWN and then a burst getter of the same registers below STATUS: R is what the getter makes of the bytes
written. -/
theorem rmwn_then_burstGet {get : Instr} {o n : Nat} {f : (Nat → Byte) → List Byte} {r q : State → DWord}
    {g : List Byte → DWord} (hset : RunsRmwn always set o n f r) (opens : Opens always get)
    (read : Reads always get 0 o n 0 (last q)) (hq : ∀ v : State, q v = g (v.slots n))
    (hf : ∀ old, (f old).length = n) (ho : o + n ≤ 0x0F) (hn : n ≤ 8) :
    ∃ t u old, RunsTo set 3 s t ∧ Finishes get 2 t u (g (f old)) := by
  obtain ⟨t, old, hrun, hidle, hdt, hparams, hmem, -⟩ := hset.finishes (fun _ _ => trivial) ha hn hp hd
  obtain ⟨u, v, hfin, -, hslots⟩ :=
    burstGet_finishes (fun _ _ => trivial) (hparams.symm ▸ ha) hn hidle opens read hdt
  have hbytes : v.slots n = f old := by
    refine List.ext_getElem (by simp [State.slots, hf]) fun j hj hj' => ?_
    have hjn : j < n := hf old ▸ hj'
    have hstored : (devWriteBytes s.params s.mem o (f old)).read (o + j) = (f old)[j] :=
      read_devWriteBytes_plain _ _ (List.getElem?_eq_getElem hj') (by omega)
    simp [State.slots, hslots j hjn, State.reg, hmem, hstored]
  exact ⟨t, u, old, hrun, by rwa [hq, hbytes] at hfin⟩

/-- GETA1 after an alarm 1 setter. -/
theorem alarm1_set_then_get {sec min hour day : Option Byte} {r : State → DWord}
    (hset : RunsRmwn always set 0x07 4 (alarm1Over sec min hour day) r) :
    ∃ t u old, RunsTo set 3 s t ∧ Finishes .geta1 2 t u (alarm1Result (alarm1Over sec min hour day old)) := by
  obtain ⟨-, -, ⟨opens, read⟩, -⟩ := alarmGettersRun
  exact rmwn_then_burstGet hp hd ha hset opens read (fun v => (alarm1Result_slots v).symm) (fun _ => rfl) (by decide)
    (by decide)

/-- GETA2 after an alarm 2 setter. -/
theorem alarm2_set_then_get {min hour day : Option Byte} {r : State → DWord}
    (hset : RunsRmwn always set 0x0B 3 (alarm2Over min hour day) r) :
    ∃ t u old, RunsTo set 3 s t ∧ Finishes .geta2 2 t u (alarm2Result (alarm2Over min hour day old)) := by
  obtain ⟨-, -, -, opens, read⟩ := alarmGettersRun
  exact rmwn_then_burstGet hp hd ha hset opens read (fun v => (alarm2Result_slots v).symm) (fun _ => rfl) (by decide)
    (by decide)

end

/-- Settles O58: the getter decodes the bytes the setter wrote, whose mask bits are those of the fields not supplied. -/
theorem alarmKindAfterSet : Obligations.AlarmKindAfterSet := by
  intro s day hour minute second hp hd ha hday hhour hminute hsecond
  have hsec := fieldVal_supplied hsecond
  have hmin := fieldVal_supplied hminute
  have hhr := hourByte_supplied hhour
  have hdy := alarmDayByte_supplied hday
  refine ⟨?_, ?_, ?_, ?_, ?_, ?_, ?_⟩
  · obtain ⟨t, u, old, hset, hget⟩ := alarm1_set_then_get hp hd ha (seta1s_runsRmwn second)
    simp only [alarm1Result_alarm1Over, hsec, Option.isNone_some, Option.isNone_none] at hget
    obtain ⟨hb0, -⟩ := alarmWord_bytes ..
    exact ⟨t, u, _, hset, hget, hb0, (alarmWord_kind_mask ..).trans rfl⟩
  · obtain ⟨t, u, old, hset, hget⟩ := alarm1_set_then_get hp hd ha (seta1ms_runsRmwn minute second)
    simp only [alarm1Result_alarm1Over, hsec, hmin, Option.isNone_some, Option.isNone_none] at hget
    obtain ⟨hb0, hb1, -⟩ := alarmWord_bytes ..
    exact ⟨t, u, _, hset, hget, hb0, hb1, (alarmWord_kind_mask ..).trans rfl⟩
  · obtain ⟨t, u, old, hset, hget⟩ := alarm1_set_then_get hp hd ha (seta1hms_runsRmwn hour minute second)
    simp only [alarm1Result_alarm1Over, hsec, hmin, hhr, Option.isNone_some, Option.isNone_none] at hget
    exact ⟨t, u, _, hset, hget, alarmWord_time .., (alarmWord_kind_mask ..).trans rfl⟩
  · obtain ⟨t, u, old, hset, hget⟩ := alarm1_set_then_get hp hd ha (seta1dhms_runsRmwn day hour minute second)
    simp only [alarm1Result_alarm1Over, hsec, hmin, hhr, hdy, Option.isNone_some] at hget
    rw [alarmWord_eq_append (head := 0x00000400) rfl] at hget
    exact ⟨t, u, hset, hget⟩
  · obtain ⟨t, u, old, hset, hget⟩ := alarm2_set_then_get hp hd ha (seta2m_runsRmwn minute)
    simp only [alarm2Result_alarm2Over, hmin, Option.isNone_some, Option.isNone_none] at hget
    exact ⟨t, u, _, hset, hget, alarmWord_minute_second .., (alarmWord_kind_mask ..).trans rfl⟩
  · obtain ⟨t, u, old, hset, hget⟩ := alarm2_set_then_get hp hd ha (seta2hm_runsRmwn hour minute)
    simp only [alarm2Result_alarm2Over, hmin, hhr, Option.isNone_some, Option.isNone_none] at hget
    exact ⟨t, u, _, hset, hget, alarmWord_time .., (alarmWord_kind_mask ..).trans rfl⟩
  · obtain ⟨t, u, old, hset, hget⟩ := alarm2_set_then_get hp hd ha (seta2dhm_runsRmwn day hour minute)
    simp only [alarm2Result_alarm2Over, hmin, hhr, hdy, Option.isNone_some] at hget
    rw [alarmWord_eq_append (head := 0x00000300) rfl] at hget
    exact ⟨t, u, hset, hget⟩

end Sys2Proof.Claims

namespace Sys2Proof.Claims

open Sys2Proof.Machine

/-! The pin, aging and temperature commands (R168, R170 to R173). -/

/-- GETOUT's result, SQWE above the mode byte (R168), is a sum of the two: the mode is at most 4, so no carry reaches
SQWE's bit. -/
theorem pinWord_eq_add : ∀ (sqwe intcn : Bool) (rs : BitVec 2),
    (BitVec.ofBool sqwe ++ (if intcn then 0 else 1 + rs.setWidth 8 : Byte)).setWidth 64 =
      (if sqwe then 0x100 else 0) + (if intcn then 0 else 1 + rs.setWidth 64 : DWord) := by
  decide

theorem getoutResult_eq (p : Byte) : (BitVec.ofBool (controlSQWE p) ++ outMode p).setWidth 64 =
    (if p.getLsbD 6 then 0x100 else 0) + (if p.getLsbD 2 then 0 else 1 + (p.extractLsb' 3 2).setWidth 64 : DWord) :=
  pinWord_eq_add (controlSQWE p) (controlINTCN p) (controlRS p)

/-- Settles O33: one read of CONTROL, its result SQWE and the mode. -/
theorem getoutRuns : Obligations.GetoutRuns := by
  refine ⟨encoded_of_decodeFields fun _ => rfl, ?_⟩
  simp only [← getoutResult_eq]
  exact runsGet_of_command (fun _ h => h) (by decide) fun _ _ => rfl

/-- Settles O34: GETAGE is one read; SETAGE's script is one write, so its first transaction is its last. -/
theorem agingCommandsRun : Obligations.AgingCommandsRun := by
  refine ⟨encoded_of_decodeFields fun _ => rfl, runsGet_of_command (fun _ h => h) (by decide) fun _ _ => rfl,
    encoded_of_decodeFields fun _ => rfl, fun v => ?_⟩
  have h : Scripted always (.setage v) (.plain (fun _ => [.write 0x10 [v]]) fun _ => 0) 1 :=
    ⟨fun _ _ => rfl, fun _ _ => rfl, fun _ => rfl, by decide⟩
  exact ⟨h.opens (fun _ h => h) (fun _ => rfl) (by decide),
    h.writes (fun _ => rfl) (by decide) (h.last rfl fun _ => rfl)⟩

/-- Settles O35: the script is one burst read, its result the quarter degrees of the two bytes. -/
theorem gettempRuns : Obligations.GettempRuns := by
  have h : Scripted always .gettemp
      (burstReadCommand 0x11 2 fun P => (tempQ (byteAt P 0) (byteAt P 1)).signExtend 64) 1 :=
    ⟨fun _ _ => rfl, fun _ _ => rfl, fun _ => rfl, by decide⟩
  exact ⟨encoded_of_decodeFields fun _ => rfl, h.opens (fun _ h => h) (fun _ => rfl) (by decide),
    h.reads (fun _ => rfl) (by decide) (h.last rfl fun t => tempQ_slots t)⟩

/-- A successful RMW leaves each bit of its mask as the value has it, whatever was read and whatever the register
holds (R52). -/
theorem RunsRmw.bit_in_mask {P : State → Prop} {i : Instr} {o n : Nat} {mask val : Byte} {s t : State}
    (h : RunsRmw P i o mask val) (ho : o < 0x0F) (hn : mask.getLsbD n = true) (hP : P s) (hs : s.At 1)
    (hd : s.nextDraw = .ok) (hx : exec i s = .next t) : (t.reg o).getLsbD n = val.getLsbD n := by
  obtain ⟨-, -, write⟩ := h
  have hreg : t.reg o = (s.slot 0 &&& ~~~mask) ||| (val &&& mask) := by
    rw [Writes.reg (b := fun s => rmwByte s.params o mask val (s.slot 0)) hP hs hd hx write, read_devWriteByte,
      if_pos rfl, if_neg (by omega), if_neg (by omega), rmwByte_of_ne (by omega)]
  rw [hreg]
  simp [hn]

/-- In SETOUT's value for a square-wave mode INTCN is 0, as the mode is shifted past it, and SQWE is 1 (R167). -/
theorem sqwValue_bits (mode : Byte) :
    (0x40#8 ||| ((mode - 1) <<< 3)).getLsbD 2 = false ∧ (0x40#8 ||| ((mode - 1) <<< 3)).getLsbD 6 = true := by
  simp

/-- Settles O38: each of the commands is an RMW with INTCN and SQWE in its mask, so both bits are its value's. -/
theorem exactlyOnePinFunction : Obligations.ExactlyOnePinFunction := by
  obtain ⟨⟨-, halmpin⟩, ⟨-, hsqwpin⟩, -⟩ := pinCommandsRun
  intro i s t hs hd hx
  have bit {n : Nat} {mask val : Byte} (h : RunsRmw always i 0x0E mask val) (hn : mask.getLsbD n = true) :
      (t.reg 0x0E).getLsbD n = val.getLsbD n :=
    h.bit_in_mask (by decide) hn trivial hs hd hx
  refine ⟨?_, ?_⟩
  · rintro (rfl | rfl)
    · exact ⟨bit halmpin rfl, bit halmpin rfl⟩
    · exact ⟨bit setout_int_runsRmw rfl, bit setout_int_runsRmw rfl⟩
  · rintro (rfl | ⟨mode, h1, h4, rfl⟩)
    · exact ⟨bit hsqwpin rfl, bit hsqwpin rfl⟩
    · have hlegal : legalOutMode mode = true := decide_eq_true (Nat.lt_succ_of_le h4)
      have hmode : mode ≠ 0 := by
        rintro rfl
        exact absurd h1 (by decide)
      have hrun := setout_sqw_runsRmw hlegal hmode
      obtain ⟨hintcn, hsqwe⟩ := sqwValue_bits mode
      exact ⟨(bit hrun rfl).trans hintcn, (bit hrun rfl).trans hsqwe⟩

end Sys2Proof.Claims

namespace Sys2Proof.Machine

/-! The timekeeper's four steps where they are next in the inputs (R178 to R182). -/

section
variable {s : State} {rest : List Input} {n : TimeBytes} {d1 d2 : Bool}

/-- TICK is enabled by the oscillator bit at its active level, or by `P_TICK_WHEN_STOPPED` (R178). -/
theorem tickEnabled_iff (s : State) :
    tickEnabled s = true ↔
      (s.reg s.params.oscReg.offset).getLsbD s.params.oscBit.val = s.params.oscActive ∨
        s.params.tickWhenStopped = true := by
  simp only [tickEnabled, oscRunning, Bool.or_eq_true, beq_iff_eq]

theorem nextMove_tick (h : s.inputs = .tick n d1 d2 :: rest) :
    nextMove s = ifEnabled (tickEnabled s) (tickStep n d1 d2 s.popInput) := by
  simp only [nextMove, h]

theorem nextMove_match (h : s.inputs = .matchStep d1 d2 :: rest) :
    nextMove s = ifEnabled s.params.matchAnytime (compareStep d1 d2 s.popInput) := by
  simp only [nextMove, h]

theorem step_tick (h : s.inputs = .tick n d1 d2 :: rest) (he : tickEnabled s = true) :
    step s = .next (tickStep n d1 d2 s.popInput) := by
  simp only [step, nextMove_tick h, he, ifEnabled, if_true]

theorem step_tick_disabled (h : s.inputs = .tick n d1 d2 :: rest) (he : tickEnabled s = false) :
    step s = .refused .inputNotEnabled := by
  simp only [step, nextMove_tick h, he, ifEnabled, Bool.false_eq_true, if_false]

theorem step_match (h : s.inputs = .matchStep d1 d2 :: rest) (he : s.params.matchAnytime = true) :
    step s = .next (compareStep d1 d2 s.popInput) := by
  simp only [step, nextMove_match h, he, ifEnabled, if_true]

theorem step_match_disabled (h : s.inputs = .matchStep d1 d2 :: rest) (he : s.params.matchAnytime = false) :
    step s = .refused .inputNotEnabled := by
  simp only [step, nextMove_match h, he, ifEnabled, Bool.false_eq_true, if_false]

theorem step_temp {m l : Byte} (h : s.inputs = .temp m l :: rest) : step s = .next (tempStep m l s.popInput) := by
  simp only [step, nextMove, h]

theorem step_vol {c st : Byte} (h : s.inputs = .vol c st :: rest) : step s = .next (volStep c st s.popInput) := by
  simp only [step, nextMove, h]

end

/-! What a TICK leaves in each register (R179). -/

theorem reg_compareStep_status (d1 d2 : Bool) (s : State) :
    (compareStep d1 d2 s).reg 0x0F = statusAfterCompare s.reg d1 d2 := by
  rw [reg_compareStep, if_pos rfl]

theorem reg_compareStep_of_ne (d1 d2 : Bool) (s : State) {x : Nat} (hx : x ≠ 0x0F) :
    (compareStep d1 d2 s).reg x = s.reg x := by
  rw [reg_compareStep, if_neg hx.symm]

/-- A TICK leaves each time register its old byte in the KEEP bits and the new time's outside them. -/
theorem reg_tickStep_time {s : State} {n N : TimeBytes} (hN : tickTime s.params (timeOf s.mem) n = N) (d1 d2 : Bool)
    {i : Nat} (hi : i < 7) : (tickStep n d1 d2 s).reg i = tickByte i (s.reg i) N[i] := by
  subst hN
  rw [tickStep, reg_compareStep_of_ne _ _ _ (by omega), reg_tickRegs]
  obtain rfl | rfl | rfl | rfl | rfl | rfl | rfl :
      i = 0 ∨ i = 1 ∨ i = 2 ∨ i = 3 ∨ i = 4 ∨ i = 5 ∨ i = 6 := by omega
  all_goals rfl

theorem reg_tickRegs_of_gt (T N : TimeBytes) (s : State) {x : Nat} (hx : 6 < x) :
    (tickRegs T N s).reg x = s.reg x := by
  simp (disch := omega) only [reg_tickRegs, if_neg]

/-- YEAR has no KEEP bits. -/
theorem tickByte_year (t n : Byte) : tickByte 6 t n = n := by
  show (t &&& 0#8) ||| (n &&& BitVec.allOnes 8) = n
  simp only [BitVec.and_zero, BitVec.and_allOnes, BitVec.zero_or]

/-! The comparator writes none of the registers it compares: a match is one before and after its step (R155). -/

theorem match1_compareStep (d1 d2 : Bool) (s : State) : match1 (compareStep d1 d2 s).reg = match1 s.reg := by
  simp (disch := decide) only [match1, reg_compareStep_of_ne]

theorem match2_compareStep (d1 d2 : Bool) (s : State) : match2 (compareStep d1 d2 s).reg = match2 s.reg := by
  simp (disch := decide) only [match2, reg_compareStep_of_ne]

theorem flagAfterCompare_eq (isMatch enabled f d : Bool) :
    flagAfterCompare isMatch enabled f d = if isMatch then (enabled || f || d) else f := by
  cases isMatch <;> cases enabled <;> rfl

end Sys2Proof.Machine

namespace Sys2Proof.Claims

open Sys2Proof.Machine

/-- A step that takes its own input and writes registers changes nothing else of the block. -/
theorem blockKept_of_regStep {s t : State} (g : RegStep s.popInput t) : BlockKept s t := by
  rw [g.rest]
  exact ⟨rfl, rfl, rfl, rfl, rfl, rfl, rfl, rfl, rfl, rfl⟩

theorem inputs_of_regStep {s t : State} {x : Input} {rest : List Input} (g : RegStep s.popInput t)
    (h : s.inputs = x :: rest) : t.inputs = rest := by
  rw [g.rest]
  exact congrArg List.tail h

/-! The comparator's step on the registers of `u`, whose STATUS is that of `s` (R156). -/

section
variable {s u : State} (hst : u.reg 0x0F = s.reg 0x0F) (d1 d2 : Bool)
include hst

theorem statusRestKept_compareStep : StatusRestKept s (compareStep d1 d2 u) := by
  rw [StatusRestKept, reg_compareStep_status, statusAfterCompare_rest, hst]

theorem flag1Rule_compareStep : Flag1Rule s (compareStep d1 d2 u) d1 := by
  rw [Flag1Rule, match1_compareStep, reg_compareStep_status, reg_compareStep_of_ne _ _ _ (x := 0x0E) (by decide), ← hst]
  exact (statusAfterCompare_flag1 u.reg d1 d2).trans (flagAfterCompare_eq ..)

theorem flag2Rule_compareStep : Flag2Rule s (compareStep d1 d2 u) d2 := by
  rw [Flag2Rule, match2_compareStep, reg_compareStep_status, reg_compareStep_of_ne _ _ _ (x := 0x0E) (by decide), ← hst]
  exact (statusAfterCompare_flag2 u.reg d1 d2).trans (flagAfterCompare_eq ..)

end

/-- Settles O43: the time registers take the draw outside KEEP, then the comparator runs on them. -/
theorem tickRule : Obligations.TickRule := by
  intro s n d1 d2 rest h hfn he
  have hN : tickTime s.params (timeOf s.mem) n = n := by rw [tickTime, hfn]
  have time {i : Nat} (hi : i < 7) : (tickStep n d1 d2 s.popInput).reg i = tickByte i (s.reg i) n[i] :=
    reg_tickStep_time (s := s.popInput) hN d1 d2 hi
  have g := tickStep_step n d1 d2 s.popInput
  have hst : (tickRegs (timeOf s.mem) (tickTime s.params (timeOf s.mem) n) s.popInput).reg 0x0F = s.reg 0x0F :=
    reg_tickRegs_of_gt _ _ _ (by decide)
  exact ⟨_, step_tick h ((tickEnabled_iff s).mpr he), inputs_of_regStep g h, blockKept_of_regStep g,
    time (by decide), time (by decide), time (by decide), time (by decide), time (by decide), time (by decide),
    (time (by decide)).trans (tickByte_year ..),
    fun a h6 hf => (reg_compareStep_of_ne _ _ _ hf).trans (reg_tickRegs_of_gt _ _ _ h6),
    statusRestKept_compareStep hst d1 d2, flag1Rule_compareStep hst d1 d2, flag2Rule_compareStep hst d1 d2⟩

/-- Settles O44: the time registers take the supplied function's value outside KEEP. -/
theorem suppliedTickRule : Obligations.SuppliedTickRule := by
  intro s n d1 d2 rest h hfn he
  have hN : tickTime s.params (timeOf s.mem) n = Config.tickFn (timeOf s.mem) := by rw [tickTime, hfn]
  have time {i : Nat} (hi : i < 7) :
      (tickStep n d1 d2 s.popInput).reg i = tickByte i (s.reg i) (Config.tickFn (timeOf s.mem))[i] :=
    reg_tickStep_time (s := s.popInput) hN d1 d2 hi
  exact ⟨_, step_tick h ((tickEnabled_iff s).mpr he),
    time (by decide), time (by decide), time (by decide), time (by decide), time (by decide), time (by decide),
    (time (by decide)).trans (tickByte_year ..)⟩

/-- Settles O45: a TICK or MATCH whose enabling condition fails is refused. -/
theorem disabledTimekeeperStepsDoNotExist : Obligations.DisabledTimekeeperStepsDoNotExist := by
  refine ⟨fun s n d1 d2 rest h hstopped hosc => step_tick_disabled h ?_, fun s d1 d2 rest h => step_match_disabled h⟩
  rw [Bool.eq_false_iff, Ne, tickEnabled_iff, not_or]
  exact ⟨hosc, Bool.eq_false_iff.mp hstopped⟩

/-- Settles O46: MATCH is the comparator's step on the registers as they are. -/
theorem matchRule : Obligations.MatchRule := by
  intro s d1 d2 rest h he
  have g := compareStep_step d1 d2 s.popInput
  have hst : s.popInput.reg 0x0F = s.reg 0x0F := rfl
  exact ⟨_, step_match h he, inputs_of_regStep g h, blockKept_of_regStep g,
    fun a ha => reg_compareStep_of_ne d1 d2 s.popInput ha,
    statusRestKept_compareStep hst d1 d2, flag1Rule_compareStep hst d1 d2, flag2Rule_compareStep hst d1 d2⟩

/-- With the oscillator bit at its default place, STATUS[7], every bit of R41's list is volatile. -/
theorem volatile_default {p : Params} (hreg : p.oscReg = .status) (hbit : p.oscBit = 7) :
    controlVolatile p = 0xA0 ∧ statusVolatile p = 0x7C := by
  rw [controlVolatile, statusVolatile, oscMask, hreg, hbit]
  exact ⟨rfl, rfl⟩

/-- Settles O47: TEMP writes two registers; VOL merges the draws into CONTROL and STATUS at the volatile bits. -/
theorem temperatureAndVolatileRules : Obligations.TemperatureAndVolatileRules := by
  refine ⟨fun s m l rest h => ?_, fun s c st rest h hreg hbit => ?_⟩
  · have g := tempStep_step m l s.popInput
    refine ⟨_, step_temp h, inputs_of_regStep g h, blockKept_of_regStep g, ?_, ?_, fun a hm hl => ?_⟩ <;>
      rw [reg_tempStep]
    · rfl
    · rfl
    · rw [if_neg hl.symm, if_neg hm.symm]
      rfl
  · have g := volStep_step c st s.popInput
    obtain ⟨hcontrol, hstatus⟩ := volatile_default hreg hbit
    refine ⟨_, step_vol h, inputs_of_regStep g h, blockKept_of_regStep g, ?_, ?_, fun a hc hs => ?_⟩ <;>
      rw [reg_volStep]
    · rw [State.popInput_params, hcontrol]
      rfl
    · rw [State.popInput_params, hstatus]
      rfl
    · rw [if_neg hs.symm, if_neg hc.symm]
      rfl

end Sys2Proof.Claims

namespace Sys2Proof.Machine

/-! A block reset where it is next in the inputs (R191). -/

section
variable {s : State} {d : ResetDraw} {rest : List Input}

theorem step_reset_idle (hp : s.phase = .idle) (h : s.inputs = .reset d :: rest) :
    step s = .next (resetBlock d s.popInput) := by
  simp only [step, nextMove, h, resetMove, State.popInput_phase, hp]

/-- The reset of a BUSY block finds the transaction in flight failed, with the bytes the draw says applied. -/
theorem step_reset_busy {i : Instr} {v : State} (hp : s.phase = .busy) (h : s.inputs = .reset d :: rest)
    (hd : decode s.cmd = .ok i) (hv : exec i (inFlight d s.popInput) = .next v) :
    step s = .next { resetBlock d v with inputs := s.popInput.inputs } := by
  simp only [step, nextMove, h, resetMove, State.popInput_phase, hp, State.popInput_cmd, hd, hv, abandonWith]

end

end Sys2Proof.Machine

namespace Sys2Proof.Claims

open Sys2Proof.Machine

/-- A legal BUSY command whose transaction fails steps to a state where each register holds its old byte or the one the
transaction leaves when it succeeds (R49); one past the end of its script has no transaction and leaves every register. -/
theorem exec_failed_reg_cases {i : Instr} {s : State} (hp : s.phase = .busy) (hlegal : issueLegal s.params i = true)
    (ha : s.params.burstAtomic = true) (l : List Bool) (rest : List Input) :
    ∃ v, exec i { s with inputs := .bus (.fail l) :: rest } = .next v ∧
      ∀ u, exec i { s with inputs := .bus .ok :: rest } = .next u → ∀ a, v.reg a = s.reg a ∨ v.reg a = u.reg a := by
  obtain ⟨c, hf, -, hx⟩ := exec_command i s.params
  have hrun (inputs : List Input) : exec i { s with inputs := inputs } = runCommand c { s with inputs := inputs } :=
    hx { s with inputs := inputs } rfl
  have hscript (inputs : List Input) := hf.script_local s { s with inputs := inputs } rfl rfl rfl
  cases htx : (c.script s)[s.k.toNat]? with
  | none =>
    refine ⟨_, (hrun (.bus (.fail l) :: rest)).trans (runCommand_end hp ?_ ?_), fun _ _ _ => .inl rfl⟩
    · exact (hf.check_none _).mpr hlegal
    · rwa [hscript]
  | some tx =>
    have hwhole (inputs : List Input) :
        exec i { s with inputs := inputs } = .next (transactWhole c tx { s with inputs := inputs }) :=
      (hrun inputs).trans (hf.runs_whole hp hlegal (by rwa [hscript]) ha)
    refine ⟨_, hwhole _, fun u hu a => ?_⟩
    obtain rfl := Host.Outcome.next.inj ((hwhole _).symm.trans hu)
    rw [transactWhole_fail rfl, transactWhole_ok rfl]
    simp only [State.reg, State.finishWith_mem, finishIfDone_mem, State.advanceK_mem]
    cases tx with
    | read o n slot => exact .inl rfl
    | write o bs => exact read_devWriteLanded_cases s.params s.mem o bs l a

/-- Settles O49: an IDLE block is reset in place, a BUSY one after its transaction in flight failed with some of its bytes
applied. -/
theorem blockResetRule : Obligations.BlockResetRule := by
  intro s d rest h hbusy
  cases hp : s.phase with
  | idle =>
    exact ⟨_, step_reset_idle hp h, rfl, rfl, rfl, rfl, rfl, rfl, congrArg List.tail h, rfl, fun _ => rfl, nofun⟩
  | busy =>
    obtain ⟨ha, i, hd, hlegal⟩ := hbusy hp
    obtain rfl : s.popInput.inputs = rest := congrArg List.tail h
    obtain ⟨v, hv, hreg⟩ := exec_failed_reg_cases hp hlegal ha d.landed s.popInput.inputs
    obtain ⟨hframe, -⟩ := exec_frame hv
    refine ⟨_, step_reset_busy hp h hd hv, rfl, rfl, rfl, rfl, rfl, rfl, rfl, hframe.params, nofun,
      fun _ j u hj hu => ?_⟩
    obtain rfl : i = j := Except.ok.inj (hd.symm.trans hj)
    exact hreg u (by rwa [hp])

/-- Settles O50: the launch state's fields. -/
theorem blockStateAtLaunch : Obligations.BlockStateAtLaunch :=
  ⟨rfl, rfl, rfl⟩

/-- Settles O51: the launch state is IDLE, with no register listed and the response a reset leaves. -/
theorem invariantAtLaunch : Obligations.InvariantAtLaunch :=
  inv_of_idle rfl reset_mem_wf nofun (rspOk_ok 0) rfl rfl

/-! The line after an enable bit is set (R45, R202). -/

section
variable {i : Instr} {s t : State} (hs : s.At 1) (hd : s.nextDraw = .ok) (hx : exec i s = .next t)
include hs hd hx

/-- A successful RMW leaves each bit outside its mask as it was read, whatever the register holds (R52). -/
theorem RunsRmw.bit_outside_mask {P : State → Prop} {o n : Nat} {mask val : Byte} (h : RunsRmw P i o mask val)
    (hP : P s) (ho : o < 0x0F) (hn : mask.getLsbD n = false) : (t.reg o).getLsbD n = (s.slot 0).getLsbD n := by
  obtain ⟨-, -, write⟩ := h
  rw [Writes.reg (b := fun s => rmwByte s.params o mask val (s.slot 0)) hP hs hd hx write, read_devWriteByte,
    if_pos rfl, if_neg (by omega), if_neg (by omega), rmwByte_of_ne (by omega)]
  simpa [hn] using fun h => BitVec.lt_of_getLsbD h

/-- Setting enable bit `n` of CONTROL leaves it 1, INTCN as it was read, and STATUS. -/
theorem RunsRmw.enables {n : Nat} {bit : Byte} (h : RunsRmw always i 0x0E bit bit) (hbit : bit.getLsbD n = true)
    (hintcn : bit.getLsbD 2 = false) (hi : ¬ mayWrite s.params.oscReg.offset i 0x0F) :
    (t.reg 0x0E).getLsbD n = true ∧ (t.reg 0x0E).getLsbD 2 = (s.slot 0).getLsbD 2 ∧ t.reg 0x0F = s.reg 0x0F :=
  ⟨(h.bit_in_mask (by decide) hbit trivial hs hd hx).trans hbit, h.bit_outside_mask hs hd hx trivial (by decide) hintcn,
    exec_reg_of_not_mayWrite hx hi⟩

end

/-- Settles O42: the write sets the enable bit and keeps INTCN as read, and the flag is still 1, so one disjunct of the
line holds. -/
theorem enablingAStaleFlagInterruptsAtOnce : Obligations.EnablingAStaleFlagInterruptsAtOnce := by
  obtain ⟨hline, -⟩ := interruptLineRule
  obtain ⟨⟨-, hen1⟩, ⟨-, hen2⟩, -⟩ := alarmEnableCommandsRun
  refine fun s t hs hd hread => ⟨fun hflag hx => ?_, fun hflag hx => ?_⟩
  · obtain ⟨hie, hintcn, hstatus⟩ := hen1.enables hs hd hx (n := 0) rfl rfl (by simp [mayWrite])
    exact ⟨(hline t).mpr ⟨hintcn.trans hread, .inl ⟨hie, by rwa [hstatus]⟩⟩, hstatus⟩
  · obtain ⟨hie, hintcn, hstatus⟩ := hen2.enables hs hd hx (n := 1) rfl rfl (by simp [mayWrite])
    exact ⟨(hline t).mpr ⟨hintcn.trans hread, .inr ⟨hie, by rwa [hstatus]⟩⟩, hstatus⟩

end Sys2Proof.Claims
